-- ==== Sys2Proof/Word.lean ====
section
/-! DEFINITION. The machine's word and byte (00_scope.md R9, R10: addresses, pointers and counts are 32-bit unsigned). -/

namespace Sys2Proof

/-- A 32-bit unsigned word: every register, address, pointer and count (R7 `AW`, `CW`; R9). -/
abbrev Word := BitVec 32

/-- One byte of descriptor memory (R60: the space is byte-addressed). -/
abbrev Byte := BitVec 8

/-- A word that says yes or no, as the one-bit register fields do (R42: `RUNSTATE` bit 0). -/
def Word.ofBool (b : Bool) : Word := if b then 1 else 0

end Sys2Proof
end

