-- ==== Sys2Proof/Config.lean ====
section
/-! DEFINITION. What an implementation fixes (00_scope.md R7: the parameters; 20_memory.md R64: the flag
positions) as types, and the free values the spec leaves open, as constants without a body. The default values of
the parameters stand in Machine/Params.lean. -/

namespace Sys2Proof.Config

/-- `DESC_SIZE`: bytes in one descriptor (R7, R63). Not a parameter of R7. -/
abbrev descSize : Nat := 8

/-- A flag's position in a descriptor: word 0 or 1, bit 0 to 31 (R64). -/
structure FlagPos where
  word : Fin 2
  bit : Fin 32
deriving DecidableEq, Repr

/-- The position of a field of several bits: its word and its highest and lowest bit (R64, R10). -/
structure FieldPos where
  word : Fin 2
  hi : Fin 32
  lo : Fin 32
deriving DecidableEq, Repr

/-- The descriptor layout of R64: every position is a parameter. -/
structure Layout where
  txAddr : FieldPos
  txUsed : FlagPos
  txWrap : FlagPos
  txLast : FlagPos
  txLen : FieldPos
  rxAddr : FieldPos
  rxWrap : FlagPos
  rxNew : FlagPos
  rxEof : FlagPos
  rxSof : FlagPos
  rxLen : FieldPos
deriving DecidableEq, Repr

/-- The byte order of descriptor words in byte-addressed memory (R7 `ENDIAN`, R67). -/
inductive Endian where
  | little
  | big
deriving DecidableEq, Repr

/-- The parameters of R7 that are not fixed by the spec. `regBase` and `cacheLine` are the OPEN ones. -/
structure Params where
  /-- `MIN_ALIGN`, the minimum legal ring alignment in bytes. -/
  minAlign : Word
  /-- `TX_USED_STOP`: RECLAIM_TX stops at a descriptor whose TX used bit is clear (R186). -/
  txUsedStop : Bool
  /-- `COHERENT`: the host's view of descriptor memory is the DMA agent's (R78). -/
  coherent : Bool
  /-- `ENDIAN` (R67). -/
  endian : Endian
  /-- The flag and field positions of R64. -/
  layout : Layout
  /-- `REG_BASE`: the platform address of the register map (R62). -/
  regBase : Word
  /-- `CACHE_LINE`: the host's cache-line size in bytes, used only when `COHERENT` is false (R78). -/
  cacheLine : Nat
deriving DecidableEq, Repr

/-- FREE VALUE (R42, R241, D31): what the n-th host read whose value no rule fixes returns, "a free draw each read".
No body: nothing can be proved of it. Assumption log 4. -/
opaque freeRead : Nat → Word

/-- FREE VALUE (R260, I23): what descriptor memory holds at power-on, address by address. No body. Assumption log 5. -/
opaque powerOnByte : Nat → Byte

end Sys2Proof.Config
end

