-- ==== Sys2Proof/Syntax.lean ====
section
/-! DEFINITION. The commands: one constructor for each row of spec/opcode_table.json (30_encoding.md R96). A command
word holds no immediate; its one field is `DIR`, kept by CLONE and CHECK only (R91, R93). -/

namespace Sys2Proof

/-- The four values of the field `DIR` [5:4] (R92). `01` is TX and `10` is RX; `00` and `11` are not directions, and
CLONE and CHECK decode with them all the same. -/
inductive DirField where
  /-- `00`, not a direction. -/
  | d00
  /-- `01`, transmit. -/
  | tx
  /-- `10`, receive. -/
  | rx
  /-- `11`, not a direction. -/
  | d11
deriving DecidableEq, Repr

/-- The eleven commands (R96). -/
inductive Instr where
  /-- R120: lay out a ring. -/
  | create
  /-- R130: copy a template into a fully free, stopped ring. -/
  | clone (dir : DirField)
  /-- R150: free to pre-hardware. -/
  | alloc
  /-- R155: pre-hardware back to free. -/
  | unalloc
  /-- R160: pre-hardware to hardware. -/
  | submit
  /-- R185: hardware to post-hardware, transmit. -/
  | reclaimTx
  /-- R190: hardware to post-hardware, receive. -/
  | reclaimRx
  /-- R200: post-hardware to free. -/
  | free
  /-- R210: the consistency check. -/
  | check (dir : DirField)
  /-- R216: run state STARTED. -/
  | start
  /-- R219: run state STOPPED. -/
  | stop
deriving DecidableEq, Repr

end Sys2Proof
end

