-- ==== Sys2Proof/WellFormed.lean ====
section
/-! DEFINITION. Which commands and which parameter choices are well formed. -/

namespace Sys2Proof

/-- Every command term is well formed: the command word holds no immediate (R93), and its one field `DIR` has a type
with exactly the field's four values, each of which CLONE and CHECK decode with (R92, R99). -/
def Instr.wf : Instr → Bool
  | .create => true
  | .clone _ => true
  | .alloc => true
  | .unalloc => true
  | .submit => true
  | .reclaimTx => true
  | .reclaimRx => true
  | .free => true
  | .check _ => true
  | .start => true
  | .stop => true

/-- A field's highest bit is not below its lowest (R10). -/
def Config.FieldPos.wf (f : Config.FieldPos) : Bool := f.lo.val ≤ f.hi.val

/-- What R64 asks of a choice of positions: `RX_NEW` and `TX_USED` differ, and `TX_WRAP` and `RX_WRAP` differ. -/
def Config.Layout.wf (l : Config.Layout) : Bool :=
  l.rxNew != l.txUsed && l.txWrap != l.rxWrap &&
    l.txAddr.wf && l.txLen.wf && l.rxAddr.wf && l.rxLen.wf

/-- What R8, R35, R36 and R64 ask of the parameters: `MIN_ALIGN` at least 4 and a power of two (so that every
descriptor word is aligned), and positions as R64 asks; a cache line is not empty. -/
def Config.Params.wf (p : Config.Params) : Bool :=
  4#32 ≤ p.minAlign && (p.minAlign &&& (p.minAlign - 1)) == 0 && p.layout.wf && 0 < p.cacheLine

end Sys2Proof
end

