-- ==== Sys2Proof/Decode.lean ====
section
/-! DEFINITION. The decoder of the command word (30_encoding.md R91, R95, R99), total on every 32-bit word and rejecting
by name, and the encoder (R91, R96). -/

namespace Sys2Proof

/-- Why a command word selects no command (R95, R99). -/
inductive DecodeError where
  /-- `RSVD` [31:6] is not 0. -/
  | reservedBits
  /-- `OP` is 0x0 or 0xC to 0xF. -/
  | reservedOpcode
  /-- `DIR` is not 00 and the operation is neither CLONE nor CHECK. -/
  | directionNotAllowed
deriving DecidableEq, Repr

/-- The field `OP` [3:0] (R91). -/
def opField (c : Word) : BitVec 4 := c.extractLsb' 0 4

/-- The field `DIR` [5:4] (R91). -/
def dirBits (c : Word) : BitVec 2 := c.extractLsb' 4 2

/-- The field `RSVD` [31:6] (R91). -/
def rsvdField (c : Word) : BitVec 26 := c.extractLsb' 6 26

/-- `DIR` read as the value it names (R92). -/
def DirField.ofBits (b : BitVec 2) : DirField :=
  if b = 0 then .d00 else if b = 1 then .tx else if b = 2 then .rx else .d11

/-- A command that admits only `DIR` = 00 (R95, third line). -/
def undirected (dir : DirField) (i : Instr) : Except DecodeError Instr :=
  match dir with
  | .d00 => .ok i
  | .tx | .rx | .d11 => .error .directionNotAllowed

/-- The operation `OP` selects (R96), its direction field as R95 treats it. -/
def decodeOp (op : Nat) (dir : DirField) : Except DecodeError Instr :=
  match op with
  | 0x1 => undirected dir .create
  | 0x2 => .ok (.clone dir)
  | 0x3 => undirected dir .alloc
  | 0x4 => undirected dir .unalloc
  | 0x5 => undirected dir .submit
  | 0x6 => undirected dir .reclaimTx
  | 0x7 => undirected dir .reclaimRx
  | 0x8 => undirected dir .free
  | 0x9 => .ok (.check dir)
  | 0xA => undirected dir .start
  | 0xB => undirected dir .stop
  | _ => .error .reservedOpcode

/-- Decoding a command word, in the order of R95. -/
def decode (c : Word) : Except DecodeError Instr :=
  if rsvdField c ≠ 0 then .error .reservedBits
  else decodeOp (opField c).toNat (DirField.ofBits (dirBits c))

/-- `DIR`'s two bits (R92). -/
def DirField.toBits : DirField → BitVec 2
  | .d00 => 0
  | .tx => 1
  | .rx => 2
  | .d11 => 3

/-- `OP` of a command (R96). -/
def Instr.opcode : Instr → BitVec 4
  | .create => 0x1
  | .clone _ => 0x2
  | .alloc => 0x3
  | .unalloc => 0x4
  | .submit => 0x5
  | .reclaimTx => 0x6
  | .reclaimRx => 0x7
  | .free => 0x8
  | .check _ => 0x9
  | .start => 0xA
  | .stop => 0xB

/-- `DIR` of a command: its own for CLONE and CHECK, 00 for every other (R91). -/
def Instr.dir : Instr → DirField
  | .clone d => d
  | .check d => d
  | .create | .alloc | .unalloc | .submit | .reclaimTx | .reclaimRx | .free | .start | .stop => .d00

/-- The command word: `RSVD` = 0, `DIR`, `OP` (R91). -/
def encode (i : Instr) : Word := (0 : BitVec 26) ++ i.dir.toBits ++ i.opcode

/-- The command of the opcode-table row whose bits are `w`, as the decoder reads it: a row is one 32-bit word, written
to `CMD` whole, so there is no byte order (R90, R94; assumption log 9). -/
def decodeTableWord (nbits w : Nat) : Option Instr :=
  match decode (BitVec.ofNat 32 (w % 2 ^ nbits)) with
  | .ok i => some i
  | .error _ => none

end Sys2Proof
end

