-- ==== Sys2Proof/Machine/Params.lean ====
section
/-! DEFINITION. The default values of the parameters (00_scope.md R7; 20_memory.md R64): those of the worked examples of
95_test_vectors.md. No command and no event depends on these numbers: they stand in `State.params` at reset, and every
statement is about every value of that field (assumption log 1, 2, 18). -/

namespace Sys2Proof.Machine
open Sys2Proof.Config

/-- The default positions of R64. -/
def defaultLayout : Layout where
  txAddr := { word := 0, hi := 31, lo := 0 }
  txUsed := { word := 1, bit := 31 }
  txWrap := { word := 1, bit := 30 }
  txLast := { word := 1, bit := 15 }
  txLen := { word := 1, hi := 13, lo := 0 }
  rxAddr := { word := 0, hi := 31, lo := 2 }
  rxWrap := { word := 0, bit := 1 }
  rxNew := { word := 0, bit := 0 }
  rxEof := { word := 1, bit := 15 }
  rxSof := { word := 1, bit := 14 }
  rxLen := { word := 1, hi := 12, lo := 0 }

/-- The defaults of R7; `regBase` and `cacheLine` are OPEN there and take a value marked DESIGN CHOICE (log 2). -/
def defaultParams : Params where
  minAlign := 4
  txUsedStop := false
  coherent := true
  endian := .little
  layout := defaultLayout
  regBase := 0
  cacheLine := 32

end Sys2Proof.Machine
end

