-- ==== Sys2Proof/Machine/State.lean ====
section
/-! DEFINITION. The machine's state as plain data: every register of 10_state.md, descriptor memory (20_memory.md R60),
the host-side cache of a non-coherent platform (R46, R78), the model-level fault mark (R24), the parameters (R7), and the
schedule of the other agents' accesses and steps (R17, R18). INVENTORY.md lists each with its rule and reset value. -/

namespace Sys2Proof.Machine
open Sys2Proof.Config

/-- `S.run` (R22). -/
inductive RunState where
  | stopped
  | started
deriving DecidableEq, Repr

/-- `RES.code` (R103): the eight codes; 8 to 15 are never written. -/
inductive ResultCode where
  | success
  | failure
  | invalidParameter
  | listRangeError
  | noList
  | listStateError
  | deviceBusy
  | illegalCommand
deriving DecidableEq, Repr

/-- The kinds of `HostFault` (R241). -/
inductive HostFault where
  /-- A register access that is not an aligned 32-bit access to 0x00 to 0xFC (R43). -/
  | badRegAccess
  /-- A host write to a word of a descriptor of the hardware partition (R75). -/
  | hwOwnedWrite
  /-- CREATE on a started ring or one with a hardware partition (R129). -/
  | liveRecreate
deriving DecidableEq, Repr

/-- `S.fault` (R24): a set of `HostFault` kinds, one mark per kind. -/
structure FaultSet where
  badRegAccess : Bool
  hwOwnedWrite : Bool
  liveRecreate : Bool
deriving DecidableEq, Repr

/-- The ring state `S` (R20). -/
structure RingRegs where
  cap : Word
  stride : Word
  base : Word
  pbase : Word
  high : Word
  restart : Word
  run : RunState
  freeCnt : Word
  preCnt : Word
  hwCnt : Word
  postCnt : Word
  freeHead : Word
  preHead : Word
  hwHead : Word
  hwTail : Word
  postHead : Word
deriving DecidableEq, Repr

/-- The operand registers `ARG0` to `ARG3` (R40). -/
structure Args where
  arg0 : Word
  arg1 : Word
  arg2 : Word
  arg3 : Word
deriving DecidableEq, Repr

/-- The result registers (R41). -/
structure Result where
  code : ResultCode
  ptr : Word
  count : Word
deriving DecidableEq, Repr

/-- Descriptor memory (R60): the bytes that hold a value, by address; its canonical form is `Memory.wf`. -/
abbrev Memory := List Host.Cell

/-- One cached byte of the host-side cache (R78): its value, and whether it is yet to be written back. -/
structure CacheByte where
  addr : Nat
  byte : Byte
  dirty : Bool
deriving DecidableEq, Repr

/-- A step of an agent that acts on its own: the DMA agent (R244), and on a non-coherent platform the cache (R78). -/
inductive AgentStep where
  /-- `DmaWrite(a, v)` (R244). -/
  | dmaWrite (a v : Word)
  /-- `DmaRead(a)` (R244): "no effect on any state". -/
  | dmaRead (a : Word)
  /-- The cache takes in the word that holds byte `a`. -/
  | cacheFill (a : Word)
  /-- The cache drops the word that holds byte `a`, if none of its bytes is dirty. -/
  | cacheEvict (a : Word)
  /-- The cache writes back the line that holds byte `a`, if any of its bytes is dirty (R78 item 4). -/
  | cacheWriteBack (a : Word)
deriving DecidableEq, Repr

/-- The width of a host access of descriptor memory: a byte, a halfword or a word. The spec names no list ("at any width its
platform offers", R69); that a wider access is several of these is a DESIGN CHOICE (log 12). -/
inductive Width where
  | w8
  | w16
  | w32
deriving DecidableEq, Repr

/-- The width of a host access of the register map (R43): a byte, a halfword, a word, or any other width the platform offers.
Only a word is an access of the interface. The spec names no list of widths; that an access of another width is one access,
whatever the platform makes of it, is a DESIGN CHOICE (log 20). -/
inductive RegWidth where
  | w8
  | w16
  | w32
  | other
deriving DecidableEq, Repr

/-- What can happen next to the block, its memory and its registers (R17, R246). -/
inductive Event where
  /-- A host read of the register at a platform address (R42, R43). -/
  | regRead (addr : Word) (width : RegWidth)
  /-- A host write of the register at a platform address; to `CMD` it runs a command (R44). -/
  | regWrite (addr : Word) (width : RegWidth) (v : Word)
  /-- A host read of descriptor memory (R246). -/
  | memRead (addr : Word) (width : Width)
  /-- A host write of descriptor memory (R246, R75). -/
  | memWrite (addr : Word) (width : Width) (v : Word)
  /-- The host cleans `n` bytes of its cache (R78 item 1). -/
  | cacheClean (addr n : Word)
  /-- The host invalidates `n` bytes of its cache (R78 item 2, R272). -/
  | cacheInval (addr n : Word)
  /-- A step of the DMA agent or of the cache between two accesses of the host (R244). -/
  | agent (t : AgentStep)
  /-- Power-on reset of the block (R260). -/
  | powerOnReset
deriving DecidableEq, Repr

/-- The machine. The last five fields are the model's own (INVENTORY.md). -/
structure State where
  /-- The parameters of R7: configuration, which nothing changes. -/
  params : Params
  /-- `S` (R20). -/
  ring : RingRegs
  /-- `ARG0` to `ARG3` (R40). -/
  args : Args
  /-- `RES` (R41). -/
  res : Result
  /-- `S.fault` (R24). -/
  faults : FaultSet
  /-- Descriptor memory (R60), as the DMA agent sees it (R78). -/
  mem : Memory
  /-- The host-side cache (R46), addresses strictly rising; no part of the view when `COHERENT` is true. -/
  cache : List CacheByte
  /-- A CREATE has succeeded since power-on (R42). -/
  ringWritten : Bool
  /-- What the host's latest read returned. -/
  readData : Word
  /-- How many free draws have been made (R42, R241). -/
  draws : Nat
  /-- The agents' steps that fall before each coming memory event of a command (R74, R244). -/
  interleave : List (List AgentStep)
  /-- The accesses and steps still to come (R18). -/
  events : List Event
deriving DecidableEq, Repr

/-- No step of this block stops the machine: every error is a result code, and a `HostFault` is a mark after which the
rules go on as written (R230, R240). So there is no fault to raise: no constructor, which is safe (log 17). -/
inductive Fault where
deriving DecidableEq, Repr

/-- Why the model has no meaning for an instruction. -/
inductive Refusal where
  /-- Raised by an arm of `exec` whose command has no meaning yet (safe); no arm raises it. -/
  | notModelled (mnemonic : String)
deriving DecidableEq, Repr

/-- The ring registers after power-on (R260): no ring, STOPPED. Every other register is unspecified there; the value 0
is a DESIGN CHOICE, which no command reads and no host read returns (log 3, log 4). -/
def RingRegs.reset : RingRegs where
  cap := 0
  stride := 0
  base := 0
  pbase := 0
  high := 0
  restart := 0
  run := .stopped
  freeCnt := 0
  preCnt := 0
  hwCnt := 0
  postCnt := 0
  freeHead := 0
  preHead := 0
  hwHead := 0
  hwTail := 0
  postHead := 0

/-- `ARG0` to `ARG3` after power-on (R40, R260). -/
def Args.reset : Args where
  arg0 := 0
  arg1 := 0
  arg2 := 0
  arg3 := 0

/-- `RES` after power-on (R41, R260). -/
def Result.reset : Result where
  code := .success
  ptr := 0
  count := 0

/-- The empty `S.fault` (R24, R260). -/
def FaultSet.none : FaultSet where
  badRegAccess := false
  hwOwnedWrite := false
  liveRecreate := false

/-- The machine after power-on reset (R260): nothing is listed in memory, nothing is cached, nothing is yet to come. -/
def State.reset : State where
  params := defaultParams
  ring := RingRegs.reset
  args := Args.reset
  res := Result.reset
  faults := FaultSet.none
  mem := []
  cache := []
  ringWritten := false
  readData := 0
  draws := 0
  interleave := []
  events := []

end Sys2Proof.Machine
end

