-- ==== Sys2Proof/Machine/Operands.lean ====
section
/-! DEFINITION. The operands of each command: which of `ARG0` to `ARG3` it reads and as what (30_encoding.md R93, R97).
Every operand is a 32-bit unsigned value, read when the command starts. -/

namespace Sys2Proof.Machine

/-- CREATE: `ARG0`, the physical base. -/
def State.createPbase (s : State) : Word := s.args.arg0
/-- CREATE: `ARG1`, the virtual base. -/
def State.createVbase (s : State) : Word := s.args.arg1
/-- CREATE: `ARG2`, the alignment. -/
def State.createAlign (s : State) : Word := s.args.arg2
/-- CREATE: `ARG3`, the descriptor count. -/
def State.createCount (s : State) : Word := s.args.arg3
/-- CLONE: `ARG0`, the template's word 0. -/
def State.cloneWord0 (s : State) : Word := s.args.arg0
/-- CLONE: `ARG1`, the template's word 1. -/
def State.cloneWord1 (s : State) : Word := s.args.arg1
/-- ALLOC: `ARG0`, `n`. -/
def State.allocCount (s : State) : Word := s.args.arg0
/-- UNALLOC: `ARG0`, `n`. -/
def State.unallocCount (s : State) : Word := s.args.arg0
/-- SUBMIT: `ARG0`, `n`. -/
def State.submitCount (s : State) : Word := s.args.arg0
/-- SUBMIT: `ARG1`, the starting pointer. -/
def State.submitPtr (s : State) : Word := s.args.arg1
/-- RECLAIM_TX: `ARG0`, `limit`. -/
def State.reclaimTxLimit (s : State) : Word := s.args.arg0
/-- RECLAIM_RX: `ARG0`, `limit`. -/
def State.reclaimRxLimit (s : State) : Word := s.args.arg0
/-- FREE: `ARG0`, `n`. -/
def State.freeCount (s : State) : Word := s.args.arg0
/-- FREE: `ARG1`, the starting pointer. -/
def State.freePtr (s : State) : Word := s.args.arg1

end Sys2Proof.Machine
end

