-- ==== Sys2Proof/Machine/Flags.lean ====
section
/-! DEFINITION. Every flag the spec names: the descriptor flags and fields (20_memory.md R64, R65), the run state as
`RUNSTATE` shows it (10_state.md R42), the result codes and the CHECK details as numbers (30_encoding.md R103,
43_free_check_run.md R214), and the set of `HostFault` marks (60_exceptions.md R241). The block has no condition codes
(10_state.md R23). -/

namespace Sys2Proof.Machine
open Sys2Proof.Config

/-- `w[F.bit]` (R65). -/
def flagOf (w : Word) (f : FlagPos) : Bool := w.getLsbD f.bit.val

/-- `w | (1 << F.bit)` (R65). -/
def withFlag (w : Word) (f : FlagPos) : Word := w ||| (1#32 <<< f.bit.val)

/-- `w[hi:lo]` as an unsigned number (R10): a buffer address or a length (R64). -/
def fieldOf (w : Word) (f : FieldPos) : Nat := w.toNat / 2 ^ f.lo.val % 2 ^ (f.hi.val + 1 - f.lo.val)

/-- The direction `DIR` names, if it is one (R92). -/
def wrapFlag (l : Layout) : DirField → Option FlagPos
  | .tx => some l.txWrap
  | .rx => some l.rxWrap
  | .d00 => none
  | .d11 => none

/-- `S.run` as `RUNSTATE` reads: bit 0 is 1 when STARTED, the others 0 (R42). -/
def RunState.toWord (r : RunState) : Word := Word.ofBool (r = .started)

/-- `RES.code` as a number (R103). -/
def ResultCode.toNat : ResultCode → Nat
  | .success => 0
  | .failure => 1
  | .invalidParameter => 2
  | .listRangeError => 3
  | .noList => 4
  | .listStateError => 5
  | .deviceBusy => 6
  | .illegalCommand => 7

/-- `RES_CODE` as the host reads it: [3:0] the code, [31:4] zero (R41). -/
def ResultCode.toWord (c : ResultCode) : Word := BitVec.ofNat 32 c.toNat

/-! The detail codes of CHECK (R214). -/

def chkOk : Word := 0
def chkFreeHead : Word := 1
def chkPreHead : Word := 2
def chkHwHead : Word := 3
def chkHwTail : Word := 4
def chkPostHead : Word := 5
def chkCount : Word := 6
def chkLink : Word := 7
def chkWrap : Word := 8

/-- `S.fault` with one kind added (R241). -/
def FaultSet.add (f : FaultSet) : HostFault → FaultSet
  | .badRegAccess => { f with badRegAccess := true }
  | .hwOwnedWrite => { f with hwOwnedWrite := true }
  | .liveRecreate => { f with liveRecreate := true }

/-- A kind is in `S.fault` (R24). -/
def FaultSet.has (f : FaultSet) : HostFault → Bool
  | .badRegAccess => f.badRegAccess
  | .hwOwnedWrite => f.hwOwnedWrite
  | .liveRecreate => f.liveRecreate

end Sys2Proof.Machine
end

