-- ==== Sys2Proof/Machine/Memory.lean ====
section
/-! DEFINITION. Descriptor memory and the host-side cache as data (20_memory.md R60, R67, R70, R78). -/

namespace Sys2Proof.Machine
open Sys2Proof.Config

/-- The byte at an address, if memory holds one there. -/
def Memory.get : Memory → Nat → Option Byte
  | [], _ => none
  | (x, b) :: m, a => if x = a then some b else Memory.get m a

/-- What a byte reads as: its value, or for a byte that nothing has written since power-on a free value (R260, I23;
log 5). -/
def Memory.byte (m : Memory) (a : Nat) : Byte := (m.get a).getD (powerOnByte a)

/-- Memory with one byte written, in its place. -/
def Memory.put : Memory → Nat → Byte → Memory
  | [], a, b => [(a, b)]
  | (x, c) :: m, a, b =>
    if a < x then (a, b) :: (x, c) :: m else if a = x then (a, b) :: m else (x, c) :: Memory.put m a b

/-- The addresses rise strictly from above `lo` on and lie in the 32-bit space. -/
def Memory.rising : Nat → Memory → Bool
  | _, [] => true
  | lo, (x, _) :: m => lo ≤ x && x < 2 ^ 32 && Memory.rising (x + 1) m

/-- The canonical form: addresses strictly rising, each below 2^32. A listed byte has a value and an unlisted one has
none, so no entry equals what an unlisted address holds. -/
def Memory.wf (m : Memory) : Bool := Memory.rising 0 m

/-- Byte `k` of the four bytes that hold the word `v`, lowest address first (R67). -/
def byteOfWord (e : Endian) (v : Word) (k : Fin 4) : Byte :=
  match e with
  | .little => v.extractLsb' (8 * k.val) 8
  | .big => v.extractLsb' (8 * (3 - k.val)) 8

/-- The word whose bytes, lowest address first, are the four given (R67). -/
def wordOfBytes (e : Endian) (b0 b1 b2 b3 : Byte) : Word :=
  match e with
  | .little => b3 ++ b2 ++ b1 ++ b0
  | .big => b0 ++ b1 ++ b2 ++ b3

/-- Memory with the word at `a` written (R70); byte addresses wrap at 2^32 (R9). -/
def Memory.putWord (e : Endian) (m : Memory) (a v : Word) : Memory :=
  (((m.put a.toNat (byteOfWord e v 0)).put (a + 1).toNat (byteOfWord e v 1)).put (a + 2).toNat (byteOfWord e v 2)).put
    (a + 3).toNat (byteOfWord e v 3)

/-- The word at `a`, as an agent reads it that goes to memory itself (R70, R78). -/
def Memory.word (e : Endian) (m : Memory) (a : Word) : Word :=
  wordOfBytes e (m.byte a.toNat) (m.byte (a + 1).toNat) (m.byte (a + 2).toNat) (m.byte (a + 3).toNat)

/-! ### The host-side cache (R78) -/

/-- The cached byte at an address, if the cache holds it. -/
def cacheGet : List CacheByte → Nat → Option Byte
  | [], _ => none
  | c :: cs, a => if c.addr = a then some c.byte else cacheGet cs a

/-- The cache with one byte put in its place. -/
def cachePut : List CacheByte → CacheByte → List CacheByte
  | [], b => [b]
  | c :: cs, b =>
    if b.addr < c.addr then b :: c :: cs else if b.addr = c.addr then b :: cs else c :: cachePut cs b

/-- The cached addresses rise strictly from `lo` on and lie in the 32-bit space. -/
def cacheRising : Nat → List CacheByte → Bool
  | _, [] => true
  | lo, c :: cs => lo ≤ c.addr && c.addr < 2 ^ 32 && cacheRising (c.addr + 1) cs

/-- The cache's canonical form. -/
def cacheWf (cs : List CacheByte) : Bool := cacheRising 0 cs

/-- `x` is a byte of the aligned word that holds `a`. -/
def sameWord (a : Word) (x : Nat) : Bool := x / 4 = a.toNat / 4

/-- `x` is a byte of the cache line that holds `a` (R78 `CACHE_LINE`). -/
def sameLine (line : Nat) (a : Word) (x : Nat) : Bool := x / line = a.toNat / line

/-- `x` is a byte of an aligned word that meets `[a, a + n)`: what cache maintenance of `n` bytes at `a` acts on. R78 does not
say what a range that runs past 2^32 does; that it ends there and does not wrap is a DESIGN CHOICE (log 13), as is acting
on whole words. -/
def inRange (a n : Word) (x : Nat) : Bool :=
  n ≠ 0 && a.toNat / 4 ≤ x / 4 && x / 4 * 4 < a.toNat + n.toNat

/-- The cache takes in one byte from memory, unless it holds that byte already. -/
def cacheFillByte (m : Memory) (cs : List CacheByte) (x : Nat) : List CacheByte :=
  match cacheGet cs x with
  | some _ => cs
  | none => cachePut cs { addr := x, byte := m.byte x, dirty := false }

/-- The cache takes in the aligned word that holds `a`. -/
def cacheFillWord (m : Memory) (cs : List CacheByte) (a : Word) : List CacheByte :=
  let x := a.toNat / 4 * 4
  cacheFillByte m (cacheFillByte m (cacheFillByte m (cacheFillByte m cs x) (x + 1)) (x + 2)) (x + 3)

/-- Some cached byte that `p` picks is dirty. -/
def cacheDirty (p : Nat → Bool) (cs : List CacheByte) : Bool := cs.any fun c => p c.addr && c.dirty

/-- Memory with every cached byte that `q` picks written to it. -/
def cacheFlush (q : CacheByte → Bool) : List CacheByte → Memory → Memory
  | [], m => m
  | c :: cs, m => cacheFlush q cs (if q c then m.put c.addr c.byte else m)

/-- The cache with every byte that `p` picks marked clean. -/
def cacheMarkClean (p : Nat → Bool) (cs : List CacheByte) : List CacheByte :=
  cs.map fun c => if p c.addr then { c with dirty := false } else c

/-- The cache without the bytes that `p` picks. -/
def cacheDrop (p : Nat → Bool) (cs : List CacheByte) : List CacheByte := cs.filter fun c => !p c.addr

end Sys2Proof.Machine
end

