-- ==== Sys2Proof/Machine/Ring.lean ====
section
/-! DEFINITION. Ring pointer arithmetic (00_scope.md R12) and ownership (10_state.md R37). The spec defines these
functions for a created ring and its own pointers; on any other operand they are total by Lean's division, which no
reachable state shows (assumption log 15). -/

namespace Sys2Proof.Machine
open Sys2Proof.Config

/-- `idx(p)` (R12). -/
def RingRegs.idx (r : RingRegs) (p : Word) : Nat := (p - r.base).toNat / r.stride.toNat

/-- `ptr(i)` (R12). -/
def RingRegs.ptr (r : RingRegs) (i : Nat) : Word := r.base + BitVec.ofNat 32 (i % r.cap.toNat) * r.stride

/-- `adv(p, k)` (R12). -/
def RingRegs.adv (r : RingRegs) (p : Word) (k : Nat) : Word := r.ptr ((r.idx p + k) % r.cap.toNat)

/-- `back(p, k)` (R12). -/
def RingRegs.back (r : RingRegs) (p : Word) (k : Nat) : Word :=
  r.ptr ((r.idx p + r.cap.toNat - k % r.cap.toNat) % r.cap.toNat)

/-- `phys(p)` (R12, R61). -/
def RingRegs.phys (r : RingRegs) (p : Word) : Word := p - r.base + r.pbase

/-- `word(p, j)` (R12). -/
def wordAddr (p : Word) (j : Fin 2) : Word := p + BitVec.ofNat 32 (4 * j.val)

/-- The four partitions (R37). -/
inductive Part where
  | free
  | pre
  | hw
  | post
deriving DecidableEq, Repr

/-- `part(i)` (R37): the arcs lie, from the post head upward, post, hardware, pre, free. -/
def RingRegs.part (r : RingRegs) (i : Nat) : Part :=
  let d := (i + r.cap.toNat - r.idx r.postHead % r.cap.toNat) % r.cap.toNat
  if d < r.postCnt.toNat then .post
  else if d < r.postCnt.toNat + r.hwCnt.toNat then .hw
  else if d < r.postCnt.toNat + r.hwCnt.toNat + r.preCnt.toNat then .pre
  else .free

/-- The byte at `a` is a byte of a descriptor (not of the padding, R63) whose part is HW (R37). -/
def RingRegs.hwOwned (r : RingRegs) (a : Word) : Bool :=
  let off := (a - r.base).toNat
  r.cap ≠ 0 && off / r.stride.toNat < r.cap.toNat && off % r.stride.toNat < descSize &&
    r.part (off / r.stride.toNat) = .hw

/-- `a` is `word(p, j)` of a ring pointer `p` with part HW: where the DMA agent's steps are enabled (R244). -/
def RingRegs.dmaEnabled (r : RingRegs) (a : Word) : Bool :=
  r.hwOwned a && (a - r.base).toNat % r.stride.toNat % 4 = 0

end Sys2Proof.Machine
end

