-- ==== Sys2Proof/Machine/Ops.lean ====
section
/-! DEFINITION. The named operations every command is made of (00_scope.md R11): the view of memory the host and the
block share, the agents' steps between memory events (60_exceptions.md R244), `MemRead`, `MemWrite`, `CacheClean`,
`CacheInval`, `finish` and `raise HostFault`. The block takes no exception (60_exceptions.md R235, R236): `finish` with an
error code is what it has in its place. -/

namespace Sys2Proof.Machine
open Sys2Proof.Config

/-! ### Named updates -/

/-- `S.x <- v` (R11), for the ring registers together. -/
def State.withRing (s : State) (r : RingRegs) : State := { s with ring := r }

/-- `RES.code`, `RES.ptr`, `RES.count` written (R11). -/
def State.withRes (s : State) (c : ResultCode) (p k : Word) : State :=
  { s with res := { code := c, ptr := p, count := k } }

/-- Descriptor memory and the cache replaced. -/
def State.withMem (s : State) (m : Memory) (cs : List CacheByte) : State := { s with mem := m, cache := cs }

/-- `raise HostFault(kind)` (R11, R241): the kind joins `S.fault` and nothing else changes. -/
def State.raiseHostFault (s : State) (k : HostFault) : State := { s with faults := s.faults.add k }

/-! ### The view of memory that the host and the block share (R78) -/

/-- The byte at `a`: memory's, or on a non-coherent platform the cache's if it holds one. -/
def State.readByte (s : State) (a : Word) : Byte :=
  if s.params.coherent then s.mem.byte a.toNat
  else
    match cacheGet s.cache a.toNat with
    | some b => b
    | none => s.mem.byte a.toNat

/-- One byte written: to memory, or on a non-coherent platform to the cache, which takes the word in first. -/
def State.writeByte (s : State) (a : Word) (b : Byte) : State :=
  if s.params.coherent then s.withMem (s.mem.put a.toNat b) s.cache
  else
    s.withMem s.mem (cachePut (cacheFillWord s.mem s.cache a) { addr := a.toNat, byte := b, dirty := true })

/-- The word at `a` in that view (R70). -/
def State.readWord (s : State) (a : Word) : Word :=
  wordOfBytes s.params.endian (s.readByte a) (s.readByte (a + 1)) (s.readByte (a + 2)) (s.readByte (a + 3))

/-- The word at `a` written in that view (R70). -/
def State.writeWord (s : State) (a v : Word) : State :=
  let e := s.params.endian
  (((s.writeByte a (byteOfWord e v 0)).writeByte (a + 1) (byteOfWord e v 1)).writeByte (a + 2)
    (byteOfWord e v 2)).writeByte (a + 3) (byteOfWord e v 3)

/-! ### The other agents' steps (R244, R78) -/

/-- One step of an agent, where it is enabled; a step that is not enabled is not a step of the agent and leaves all as
it is (log 6). The cache's steps are those of a non-coherent platform (log 13). -/
def runAgentStep (t : AgentStep) (s : State) : State :=
  match t with
  | .dmaWrite a v =>
    if s.ring.dmaEnabled a then s.withMem (s.mem.putWord s.params.endian a v) s.cache else s
  | .dmaRead _ => s
  | .cacheFill a => if s.params.coherent then s else s.withMem s.mem (cacheFillWord s.mem s.cache a)
  | .cacheEvict a =>
    if s.params.coherent || cacheDirty (sameWord a) s.cache then s
    else s.withMem s.mem (cacheDrop (sameWord a) s.cache)
  | .cacheWriteBack a =>
    let p := sameLine s.params.cacheLine a
    if s.params.coherent || !cacheDirty p s.cache then s
    else s.withMem (cacheFlush (fun c => p c.addr) s.cache s.mem) (cacheMarkClean p s.cache)

/-- Agents' steps in order. -/
def runAgentSteps : List AgentStep → State → State
  | [], s => s
  | t :: ts, s => runAgentSteps ts (runAgentStep t s)

/-- The steps the schedule lets fall here, between two events of a command (R74, R244). -/
def agentTurn (s : State) : State :=
  match s.interleave with
  | [] => s
  | ts :: rest => runAgentSteps ts { s with interleave := rest }

/-! ### A command's memory events (R11) -/

/-- `MemRead(addr, 4)` (R70), after the agents' steps that fall before it. -/
def memRead (a : Word) (s : State) : Word × State :=
  let s := agentTurn s
  (s.readWord a, s)

/-- `MemWrite(addr, 4, v)` (R70), after the agents' steps that fall before it. -/
def memWrite (a v : Word) (s : State) : State := (agentTurn s).writeWord a v

/-- What `CacheClean(a, n)` does to a non-coherent cache: every dirty byte of the range goes to memory (R78 item 1). -/
def cleanRange (a n : Word) (s : State) : State :=
  s.withMem (cacheFlush (fun c => inRange a n c.addr && c.dirty) s.cache s.mem) (cacheMarkClean (inRange a n) s.cache)

/-- What `CacheInval(a, n)` does to a non-coherent cache: it no longer holds any byte of the range (R78 item 2). -/
def invalRange (a n : Word) (s : State) : State := s.withMem s.mem (cacheDrop (inRange a n) s.cache)

/-- `CacheClean(addr, n)` (R11): a no-op when `COHERENT`. -/
def cacheClean (a n : Word) (s : State) : State :=
  if s.params.coherent then s else cleanRange a n (agentTurn s)

/-- `CacheInval(addr, n)` (R11): a no-op when `COHERENT`. -/
def cacheInval (a n : Word) (s : State) : State :=
  if s.params.coherent then s else invalRange a n (agentTurn s)

/-- `setflag(p, F)` (R65): a read, then a write of the same word. -/
def setFlag (p : Word) (f : FlagPos) (s : State) : State :=
  let r := memRead (wordAddr p f.word) s
  memWrite (wordAddr p f.word) (withFlag r.1 f) r.2

/-! ### The end of a command -/

/-- `finish(c)` with the pointer and count results (R11, R41): the command ends, and nothing stops the block (R230). -/
def finishWith (c : ResultCode) (p k : Word) (s : State) : Host.Outcome State Fault Refusal :=
  .next (s.withRes c p k)

/-- `finish(c)` of a command that gives no pointer and no count: both are written 0 (R41). -/
def finish (c : ResultCode) (s : State) : Host.Outcome State Fault Refusal := finishWith c 0 0 s

/-- A command word that selects no command (R95): `ILLEGAL_COMMAND`, and "no other state or memory changes". -/
def illegalCommand (s : State) : Host.Outcome State Fault Refusal := finish .illegalCommand s

end Sys2Proof.Machine
end

