-- ==== Sys2Proof/Machine/Alloc.lean ====
section
/-! DEFINITION. The allocation and submission commands ALLOC, UNALLOC, SUBMIT (41_alloc_submit.md). None reads `S.run`. -/

namespace Sys2Proof.Machine
open Sys2Proof.Config

/-- The ring registers after a successful ALLOC of `n` (R152). -/
def RingRegs.alloc (r : RingRegs) (n : Word) : RingRegs :=
  { r with freeHead := r.adv r.freeHead n.toNat, freeCnt := r.freeCnt - n, preCnt := r.preCnt + n }

/-- ALLOC (R150): the handle is the free head before the command (R151). -/
def execAlloc (s : State) : Host.Outcome State Fault Refusal :=
  if s.ring.cap = 0 then finish .noList s
  else
    let n := s.allocCount
    if s.ring.freeCnt < n then finish .failure s
    else finishWith .success s.ring.freeHead 0 (s.withRing (s.ring.alloc n))

/-- The ring registers after a successful UNALLOC of `n` (R158). -/
def RingRegs.unalloc (r : RingRegs) (n : Word) : RingRegs :=
  { r with freeHead := r.back r.freeHead n.toNat, freeCnt := r.freeCnt + n, preCnt := r.preCnt - n }

/-- UNALLOC (R155). -/
def execUnalloc (s : State) : Host.Outcome State Fault Refusal :=
  if s.ring.cap = 0 then finish .noList s
  else
    let n := s.unallocCount
    if s.ring.preCnt < n then finish .failure s
    else finish .success (s.withRing (s.ring.unalloc n))

/-- The stride slots of `adv(p, k0)`, `adv(p, k0 + 1)`, … (`k` of them) cleaned, in ring order (R164). -/
def cleanSlots (p : Word) : Nat → Nat → State → State
  | 0, _, s => s
  | k + 1, k0, s => cleanSlots p k (k0 + 1) (cacheClean (s.ring.adv p k0) s.ring.stride s)

/-- The ring registers after a successful SUBMIT of `n > 0` at `p` (R165). -/
def RingRegs.submit (r : RingRegs) (n p : Word) : RingRegs :=
  { r with
    hwTail := r.adv p (n.toNat - 1), preHead := r.adv p n.toNat, preCnt := r.preCnt - n, hwCnt := r.hwCnt + n }

/-- SUBMIT (R160): `n = 0` succeeds without comparing the pointer (R162); the slots are cleaned before a count changes
(R164). -/
def execSubmit (s : State) : Host.Outcome State Fault Refusal :=
  if s.ring.cap = 0 then finish .noList s
  else
    let n := s.submitCount
    let p := s.submitPtr
    if n = 0 then finish .success s
    else if s.ring.preCnt < n || p ≠ s.ring.preHead then finish .listStateError s
    else
      let s := cleanSlots p n.toNat 0 s
      finish .success (s.withRing (s.ring.submit n p))

end Sys2Proof.Machine
end

