-- ==== Sys2Proof/Machine/Reclaim.lean ====
section
/-! DEFINITION. The reclaim commands RECLAIM_TX and RECLAIM_RX over their shared scan and commit (42_reclaim.md). -/

namespace Sys2Proof.Machine
open Sys2Proof.Config

/-- What the block holds during a scan (R181, 10_state.md R45): the cursor, the scanned count and the partial count. -/
structure Scan where
  cur : Word
  count : Nat
  open_ : Nat
deriving DecidableEq, Repr

/-- One descriptor as the scan reads it (R181): `none` where the stop flag `o` says it is still hardware-owned, else
whether its terminal flag `t` is set. A word that holds both flags is read once. -/
def readDesc (t : FlagPos) (o : Option FlagPos) (cur : Word) (s : State) : Option Bool × State :=
  match o with
  | none =>
    let rT := memRead (wordAddr cur t.word) s
    (some (flagOf rT.1 t), rT.2)
  | some f =>
    let rO := memRead (wordAddr cur f.word) s
    if flagOf rO.1 f then
      if t.word = f.word then (some (flagOf rO.1 t), rO.2)
      else
        let rT := memRead (wordAddr cur t.word) rO.2
        (some (flagOf rT.1 t), rT.2)
    else (none, rO.2)

/-- The counters after a descriptor that is not hardware-owned, with its terminal flag (R181). -/
def Scan.counted (c : Scan) (terminal : Bool) : Scan :=
  { c with count := c.count + 1, open_ := if terminal then 0 else c.open_ + 1 }

/-- The scan's loop (R181); the first argument is `limit − count`. -/
def scanLoop (t : FlagPos) (o : Option FlagPos) : Nat → Scan → State → Scan × State
  | 0, c, s => (c, s)
  | k + 1, c, s =>
    let s := cacheInval c.cur s.ring.stride s
    let d := readDesc t o c.cur s
    match d.1 with
    | none => (c, d.2)
    | some terminal =>
      let c' := c.counted terminal
      if c.cur = d.2.ring.hwTail then (c', d.2)
      else scanLoop t o k { c' with cur := d.2.ring.adv c.cur 1 } d.2

/-- `scan(T, O, limit)` (R181): how many descriptors it returns. Agents' steps may also fall between its last read and
the commit (R244; log 7). -/
def scan (t : FlagPos) (o : Option FlagPos) (limit : Word) (s : State) : Nat × State :=
  let r := scanLoop t o limit.toNat { cur := s.ring.hwHead, count := 0, open_ := 0 } s
  (r.1.count - r.1.open_, agentTurn r.2)

/-- The ring registers after `ret > 0` descriptors leave the hardware partition (R183). -/
def RingRegs.reclaim (r : RingRegs) (ret : Nat) : RingRegs :=
  { r with
    hwHead := r.adv r.hwHead ret, hwCnt := r.hwCnt - BitVec.ofNat 32 ret, postCnt := r.postCnt + BitVec.ofNat 32 ret }

/-- The commit (R183): the pointer is the hardware head before the command, or 0 with the count 0. -/
def commit (ret : Nat) (s : State) : Host.Outcome State Fault Refusal :=
  if 0 < ret then finishWith .success s.ring.hwHead (BitVec.ofNat 32 ret) (s.withRing (s.ring.reclaim ret))
  else finish .success s

/-- The scan and the commit, or no scan at all of an empty hardware partition (R182). -/
def reclaim (t : FlagPos) (o : Option FlagPos) (limit : Word) (s : State) : Host.Outcome State Fault Refusal :=
  if s.ring.cap = 0 then finish .noList s
  else if s.ring.hwCnt = 0 then finish .success s
  else
    let r := scan t o limit s
    commit r.1 r.2

/-- RECLAIM_TX's stop flag: `TX_USED` if `TX_USED_STOP`, else none (R186). -/
def txStopFlag (p : Params) : Option FlagPos := if p.txUsedStop then some p.layout.txUsed else none

/-- RECLAIM_TX (R185, R186). -/
def execReclaimTx (s : State) : Host.Outcome State Fault Refusal :=
  reclaim s.params.layout.txLast (txStopFlag s.params) s.reclaimTxLimit s

/-- RECLAIM_RX (R190 to R192). -/
def execReclaimRx (s : State) : Host.Outcome State Fault Refusal :=
  reclaim s.params.layout.rxEof (some s.params.layout.rxNew) s.reclaimRxLimit s

end Sys2Proof.Machine
end

