-- ==== Sys2Proof/Machine/Service.lean ====
section
/-! DEFINITION. FREE, CHECK, START and STOP (43_free_check_run.md). -/

namespace Sys2Proof.Machine
open Sys2Proof.Config

/-! ### FREE (R200) -/

/-- The ring registers after a successful FREE of `n > 0` (R202). -/
def RingRegs.release (r : RingRegs) (n : Word) : RingRegs :=
  { r with postHead := r.adv r.postHead n.toNat, postCnt := r.postCnt - n, freeCnt := r.freeCnt + n }

/-- FREE (R200): `n = 0` succeeds without comparing the pointer (R201). -/
def execFree (s : State) : Host.Outcome State Fault Refusal :=
  if s.ring.cap = 0 then finish .noList s
  else
    let n := s.freeCount
    if n = 0 then finish .success s
    else if s.ring.postCnt < n || s.freePtr ≠ s.ring.postHead then finish .listStateError s
    else finish .success (s.withRing (s.ring.release n))

/-! ### CHECK (R210) -/

/-- The pointers CHECK tests, in its order, each with its detail code (R212, R214). -/
def RingRegs.heads (r : RingRegs) : List (Word × Word) :=
  [(r.freeHead, chkFreeHead), (r.preHead, chkPreHead), (r.hwHead, chkHwHead), (r.hwTail, chkHwTail),
    (r.postHead, chkPostHead)]

/-- `p` lies outside `[S.base, S.high]` (R210 step 4). -/
def RingRegs.outside (r : RingRegs) (p : Word) : Bool := p < r.base || r.high < p

/-- The first pointer outside the ring, with its detail (R210 step 4). -/
def RingRegs.badHead (r : RingRegs) : Option (Word × Word) := r.heads.find? fun h => r.outside h.1

/-- The four counts sum to `S.cap`, in exact arithmetic (R210 step 5). -/
def RingRegs.sumOk (r : RingRegs) : Bool :=
  r.freeCnt.toNat + r.preCnt.toNat + r.hwCnt.toNat + r.postCnt.toNat = r.cap.toNat

/-- The link CREATE gives descriptor `i` (R125, R212). -/
def RingRegs.link (r : RingRegs) (i : Nat) : Word := r.pbase + BitVec.ofNat 32 (i + 1) * r.stride

/-- The walk over the links of the descriptors `i`, `i + 1`, … (`k` of them): the first that differs (R210 step 6). -/
def checkLinks : Nat → Nat → State → Option Word × State
  | 0, _, s => (none, s)
  | k + 1, i, s =>
    let r := memRead (wordAddr (s.ring.ptr i) 0) s
    if r.1 ≠ r.2.ring.link i then (some (r.2.ring.ptr i), r.2) else checkLinks k (i + 1) r.2

/-- The wrap flag of the last descriptor (R210 step 7). -/
def checkWrap (f : FlagPos) (s : State) : Host.Outcome State Fault Refusal :=
  let r := memRead (wordAddr s.ring.high f.word) s
  if flagOf r.1 f then finishWith .success 0 chkOk r.2
  else finishWith .listStateError r.2.ring.high chkWrap r.2

/-- Steps 6 and 7 of CHECK (R210). -/
def checkMemory (f : FlagPos) (s : State) : Host.Outcome State Fault Refusal :=
  let r := checkLinks (s.ring.cap.toNat - 1) 0 s
  match r.1 with
  | some p => finishWith .listStateError p chkLink r.2
  | none => checkWrap f r.2

/-- CHECK (R210), its steps in order. -/
def execCheck (dir : DirField) (s : State) : Host.Outcome State Fault Refusal :=
  if s.ring.cap = 0 then finishWith .noList 0 chkOk s
  else if s.ring.run = .started then finishWith .deviceBusy 0 chkOk s
  else
    match wrapFlag s.params.layout dir with
    | none => finishWith .invalidParameter 0 chkOk s
    | some f =>
      match s.ring.badHead with
      | some (p, d) => finishWith .listStateError p d s
      | none => if s.ring.sumOk then checkMemory f s else finishWith .listStateError 0 chkCount s

/-! ### START and STOP -/

/-- START (R216). -/
def execStart (s : State) : Host.Outcome State Fault Refusal :=
  if s.ring.cap = 0 then finish .noList s else finish .success (s.withRing { s.ring with run := .started })

/-- STOP (R219). -/
def execStop (s : State) : Host.Outcome State Fault Refusal :=
  if s.ring.cap = 0 then finish .noList s else finish .success (s.withRing { s.ring with run := .stopped })

end Sys2Proof.Machine
end

