-- ==== Sys2Proof/Machine/Setup.lean ====
section
/-! DEFINITION. The ring setup commands CREATE and CLONE (40_ring_setup.md). -/

namespace Sys2Proof.Machine
open Sys2Proof.Config

/-! ### CREATE (R120) -/

/-- A ring that CREATE must not abandon: started, or with a hardware partition (R129). -/
def RingRegs.live (r : RingRegs) : Bool := r.cap ≠ 0 && (r.run = .started || r.hwCnt ≠ 0)

/-- The checks (a) to (d) of R122: the alignment's minimum, its being a power of two, both bases' alignment, the count. -/
def createBad (minAlign pb vb al cnt : Word) : Bool :=
  al < minAlign || (al &&& (al - 1)) ≠ 0 || pb.toNat % al.toNat ≠ 0 || vb.toNat % al.toNat ≠ 0 || cnt = 0

/-- The element stride (R123), in 32 bits. -/
def createStride (al : Word) : Word := (BitVec.ofNat 32 descSize + al - 1) &&& ~~~(al - 1)

/-- The range check of R124, in exact arithmetic: `vb + st·cnt − 1 > 2^32 − 1`. -/
def createWraps (vb st cnt : Word) : Bool := 2 ^ 32 < vb.toNat + st.toNat * cnt.toNat

/-- Zero to `k` words from `a` upward (R125). -/
def zeroWords : Nat → Word → State → State
  | 0, _, s => s
  | k + 1, a, s => zeroWords k (a + 4) (memWrite a 0 s)

/-- The links of the descriptors `i`, `i + 1`, … (`k` of them, R125): each gets its successor's physical address. -/
def writeLinks (pb vb st : Word) : Nat → Nat → State → State
  | 0, _, s => s
  | k + 1, i, s =>
    writeLinks pb vb st k (i + 1)
      (memWrite (vb + BitVec.ofNat 32 i * st) (pb + BitVec.ofNat 32 (i + 1) * st) s)

/-- The region CREATE lays out (R125, R126): zeroed, linked, the last descriptor linked to the physical base. -/
def layRing (pb vb st cnt : Word) (s : State) : State :=
  let s := zeroWords (st.toNat * cnt.toNat / 4) vb s
  let s := writeLinks pb vb st (cnt.toNat - 1) 0 s
  memWrite (vb + (cnt - 1) * st) pb s

/-- Every ring register as a successful CREATE sets it (R127). -/
def createdRing (pb vb st cnt : Word) : RingRegs where
  cap := cnt
  stride := st
  base := vb
  pbase := pb
  high := vb + (cnt - 1) * st
  restart := pb
  run := .stopped
  freeCnt := cnt
  preCnt := 0
  hwCnt := 0
  postCnt := 0
  freeHead := vb
  preHead := vb
  hwHead := vb
  hwTail := vb
  postHead := vb

/-- What CREATE does before its checks: records `LIVE_RECREATE` (R129), and sets `S.cap` to 0 (R128). -/
def createBegin (s : State) : State :=
  let s := if s.ring.live then s.raiseHostFault .liveRecreate else s
  s.withRing { s.ring with cap := 0 }

/-- CREATE (R120). -/
def execCreate (s : State) : Host.Outcome State Fault Refusal :=
  let pb := s.createPbase
  let vb := s.createVbase
  let al := s.createAlign
  let cnt := s.createCount
  let s := createBegin s
  if createBad s.params.minAlign pb vb al cnt then finish .invalidParameter s
  else
    let st := createStride al
    if createWraps vb st cnt then finish .listRangeError s
    else
      finish .success { (layRing pb vb st cnt s).withRing (createdRing pb vb st cnt) with ringWritten := true }

/-! ### CLONE (R130) -/

/-- The template to the descriptors `i`, `i + 1`, … (`k` of them): word 0, then word 1 (R130, R131). -/
def cloneDescs (t0 t1 : Word) : Nat → Nat → State → State
  | 0, _, s => s
  | k + 1, i, s =>
    let p := s.ring.ptr i
    cloneDescs t0 t1 k (i + 1) (memWrite (wordAddr p 1) t1 (memWrite (wordAddr p 0) t0 s))

/-- CLONE (R130), its tests in the order of R133. -/
def execClone (dir : DirField) (s : State) : Host.Outcome State Fault Refusal :=
  if s.ring.cap = 0 then finish .noList s
  else if s.ring.run = .started then finish .deviceBusy s
  else if s.ring.freeCnt ≠ s.ring.cap then finish .listStateError s
  else
    match wrapFlag s.params.layout dir with
    | none => finish .invalidParameter s
    | some f =>
      let s := cloneDescs s.cloneWord0 s.cloneWord1 s.ring.cap.toNat 0 s
      finish .success (setFlag s.ring.high f s)

end Sys2Proof.Machine
end

