-- ==== Sys2Proof/Machine/Dispatch.lean ====
section
/-! DEFINITION. One arm per command, each the one call of its meaning. -/

namespace Sys2Proof.Machine

def exec (i : Instr) (s : State) : Host.Outcome State Fault Refusal :=
  match i with
  | .create => Sys2Proof.Machine.execCreate s
  | .clone dir => Sys2Proof.Machine.execClone dir s
  | .alloc => Sys2Proof.Machine.execAlloc s
  | .unalloc => Sys2Proof.Machine.execUnalloc s
  | .submit => Sys2Proof.Machine.execSubmit s
  | .reclaimTx => Sys2Proof.Machine.execReclaimTx s
  | .reclaimRx => Sys2Proof.Machine.execReclaimRx s
  | .free => Sys2Proof.Machine.execFree s
  | .check dir => Sys2Proof.Machine.execCheck dir s
  | .start => Sys2Proof.Machine.execStart s
  | .stop => Sys2Proof.Machine.execStop s

end Sys2Proof.Machine
end

