-- ==== Sys2Proof/Machine/HostAccess.lean ====
section
/-! DEFINITION. The host's accesses to the register map (10_state.md R42 to R44) and to descriptor memory
(20_memory.md R67, R75), the events between them, and power-on reset (70_reset_and_hazards.md R260). -/

namespace Sys2Proof.Machine
open Sys2Proof.Config

/-- The bytes a host access of a width touches (R67). -/
def Width.bytes : Width → Nat
  | .w8 => 1
  | .w16 => 2
  | .w32 => 4

/-! ### The register map (R42) -/

/-- The offset of a platform address in the register map, if the access is one of the interface: aligned, 32 bits wide,
to 0x00 to 0xFC (R43). -/
def regOffset (p : Params) (addr : Word) (w : RegWidth) : Option Nat :=
  let off := (addr - p.regBase).toNat
  if w = .w32 && off < 0x100 && off % 4 = 0 then some off else none

/-- A ring register that R42 leaves "unspecified" until the first successful CREATE. -/
def unspecified (off : Nat) : Bool := 0x24 ≤ off && off < 0x60 && off ≠ 0x38

/-- What the register at an offset holds (R42): `CMD` and the reserved offsets read 0. -/
def readReg (s : State) (off : Nat) : Word :=
  match off with
  | 0x04 => s.args.arg0
  | 0x08 => s.args.arg1
  | 0x0C => s.args.arg2
  | 0x10 => s.args.arg3
  | 0x14 => s.res.code.toWord
  | 0x18 => s.res.ptr
  | 0x1C => s.res.count
  | 0x20 => s.ring.cap
  | 0x24 => s.ring.stride
  | 0x28 => s.ring.base
  | 0x2C => s.ring.pbase
  | 0x30 => s.ring.high
  | 0x34 => s.ring.restart
  | 0x38 => s.ring.run.toWord
  | 0x3C => s.ring.freeCnt
  | 0x40 => s.ring.preCnt
  | 0x44 => s.ring.hwCnt
  | 0x48 => s.ring.postCnt
  | 0x4C => s.ring.freeHead
  | 0x50 => s.ring.preHead
  | 0x54 => s.ring.hwHead
  | 0x58 => s.ring.hwTail
  | 0x5C => s.ring.postHead
  | _ => 0

/-- A read whose value no rule fixes: a free draw, a new one each time (R42, D31; log 4). -/
def State.drawRead (s : State) : State := { s with readData := freeRead s.draws, draws := s.draws + 1 }

/-- A host read of the register map (R42, R43). -/
def hostRegRead (addr : Word) (w : RegWidth) (s : State) : State :=
  match regOffset s.params addr w with
  | none => (s.raiseHostFault .badRegAccess).drawRead
  | some off => if unspecified off && !s.ringWritten then s.drawRead else { s with readData := readReg s off }

/-- A host write of a register other than `CMD` (R42): `ARG0` to `ARG3` take the value, the others ignore it. -/
def writeReg (s : State) (off : Nat) (v : Word) : State :=
  match off with
  | 0x04 => { s with args := { s.args with arg0 := v } }
  | 0x08 => { s with args := { s.args with arg1 := v } }
  | 0x0C => { s with args := { s.args with arg2 := v } }
  | 0x10 => { s with args := { s.args with arg3 := v } }
  | _ => s

/-- A command word written to `CMD` (R44, R95): the command runs to its end, or the word is ILLEGAL. -/
def runCommand (c : Word) (s : State) : Host.Outcome State Fault Refusal :=
  match decode c with
  | .ok i => exec i s
  | .error _ => illegalCommand s

/-- A host write of the register map (R42 to R44). -/
def hostRegWrite (addr : Word) (w : RegWidth) (v : Word) (s : State) : Host.Outcome State Fault Refusal :=
  match regOffset s.params addr w with
  | none => .next (s.raiseHostFault .badRegAccess)
  | some 0 => runCommand v s
  | some off => .next (writeReg s off v)

/-! ### Descriptor memory (R67, R75) -/

/-- What a host read of a width returns, zero-extended; the bytes lie in the order `ENDIAN` gives (R67). A misaligned read
takes the bytes from `a` upward, and addresses wrap (DESIGN CHOICE, log 12). -/
def hostValue (s : State) (a : Word) : Width → Word
  | .w8 => (s.readByte a).setWidth 32
  | .w16 =>
    match s.params.endian with
    | .little => (s.readByte (a + 1) ++ s.readByte a).setWidth 32
    | .big => (s.readByte a ++ s.readByte (a + 1)).setWidth 32
  | .w32 => s.readWord a

/-- The low bytes of `v` written from `a` upward, in the order `ENDIAN` gives (R67); misaligned and wrapping writes as for
`hostValue` (DESIGN CHOICE, log 12). -/
def hostStore (s : State) (a v : Word) : Width → State
  | .w8 => s.writeByte a (v.extractLsb' 0 8)
  | .w16 =>
    match s.params.endian with
    | .little => (s.writeByte a (v.extractLsb' 0 8)).writeByte (a + 1) (v.extractLsb' 8 8)
    | .big => (s.writeByte a (v.extractLsb' 8 8)).writeByte (a + 1) (v.extractLsb' 0 8)
  | .w32 => s.writeWord a v

/-- A host write of a width at `a` touches a word of a descriptor whose part is HW (R75). -/
def touchesHw (r : RingRegs) (a : Word) (w : Width) : Bool :=
  (List.range w.bytes).any fun k => r.hwOwned (a + BitVec.ofNat 32 k)

/-- A host read of descriptor memory (R246, R71). -/
def hostMemRead (a : Word) (w : Width) (s : State) : State := { s with readData := hostValue s a w }

/-- A host write of descriptor memory (R75): a write to a hardware-owned descriptor is marked and takes effect (R241). -/
def hostMemWrite (a : Word) (w : Width) (v : Word) (s : State) : State :=
  let s := if touchesHw s.ring a w then s.raiseHostFault .hwOwnedWrite else s
  hostStore s a v w

/-! ### The host's cache maintenance (R78, R272) -/

/-- The host cleans a range of its cache; nothing where memory is coherent. -/
def hostCacheClean (a n : Word) (s : State) : State := if s.params.coherent then s else cleanRange a n s

/-- The host invalidates a range of its cache; nothing where memory is coherent. -/
def hostCacheInval (a n : Word) (s : State) : State := if s.params.coherent then s else invalRange a n s

/-! ### Power-on reset (R260) -/

/-- The block's registers and `S.fault` at their reset values (R260, R241). Memory, the host's cache and what is still
to come are not the block's and stay; so does the count of draws (log 16). -/
def powerOnReset (s : State) : State :=
  { s with
    ring := RingRegs.reset, args := Args.reset, res := Result.reset, faults := FaultSet.none, ringWritten := false }

/-! ### One event -/

/-- What one event does. -/
def runEvent (e : Event) (s : State) : Host.Outcome State Fault Refusal :=
  match e with
  | .regRead addr w => .next (hostRegRead addr w s)
  | .regWrite addr w v => hostRegWrite addr w v s
  | .memRead a w => .next (hostMemRead a w s)
  | .memWrite a w v => .next (hostMemWrite a w v s)
  | .cacheClean a n => .next (hostCacheClean a n s)
  | .cacheInval a n => .next (hostCacheInval a n s)
  | .agent t => .next (runAgentStep t s)
  | .powerOnReset => .next (powerOnReset s)

/-- The host's write of a command word to `CMD`. -/
def cmdWrite (p : Params) (c : Word) : Event := .regWrite p.regBase .w32 c

end Sys2Proof.Machine
end

