-- ==== Sys2Proof/Machine/Step.lean ====
section
/-! DEFINITION. One step: the next access or step of an agent (00_scope.md R17, R18). The block fetches nothing from
memory (10_state.md R23, 20_memory.md R79); a command runs when the host writes `CMD` (R44). -/

namespace Sys2Proof.Machine

/-- The next event happens; with none to come, nothing does (the block never acts on its own, R230, R248; log 8). -/
def step (s : State) : Host.Outcome State Fault Refusal :=
  match s.events with
  | [] => .next s
  | e :: rest => runEvent e { s with events := rest }

/-- `s` with the command word `w` as the very next thing the host writes to `CMD` (log 8, log 9). -/
def State.withFetchWord (s : State) (nbits w : Nat) : State :=
  { s with events := cmdWrite s.params (BitVec.ofNat 32 (w % 2 ^ nbits)) :: s.events }

end Sys2Proof.Machine
end

