-- ==== Sys2Proof/Safety.lean ====
section
/-! DEFINITION. What the claims are stated in: the invariants of a created ring (10_state.md R30 to R36), the invariant of
the whole machine, and the words that describe a ring's descriptors and a reclaim's result. -/

namespace Sys2Proof.Machine
open Sys2Proof.Config

/-! ### The invariants of a created ring -/

/-- `p` is a ring pointer: `S.base + i·S.stride` for some `0 ≤ i < S.cap` (R33), in exact arithmetic. -/
def RingRegs.IsPtr (r : RingRegs) (p : Word) : Prop :=
  ∃ i, i < r.cap.toNat ∧ p.toNat = r.base.toNat + i * r.stride.toNat

/-- The invariants R30 to R36 of a created ring. -/
structure RingRegs.Sound (r : RingRegs) : Prop where
  /-- R30. -/
  sum : r.freeCnt.toNat + r.preCnt.toNat + r.hwCnt.toNat + r.postCnt.toNat = r.cap.toNat
  /-- R35: the stride is a power of two and at least 8. -/
  stride : ∃ k, 3 ≤ k ∧ r.stride.toNat = 2 ^ k
  /-- R31: where the last descriptor is. -/
  high : r.high.toNat = r.base.toNat + (r.cap.toNat - 1) * r.stride.toNat
  /-- R31: the ring does not wrap the address space. -/
  noWrap : r.base.toNat + r.cap.toNat * r.stride.toNat ≤ 2 ^ 32
  /-- R36. -/
  baseAligned : r.base.toNat % 4 = 0
  /-- R36. -/
  pbaseAligned : r.pbase.toNat % 4 = 0
  /-- R20: the legal value of `S.restart`. -/
  restart : r.restart = r.pbase
  /-- R32. -/
  hwHead : r.hwHead = r.adv r.postHead r.postCnt.toNat
  /-- R32. -/
  preHead : r.preHead = r.adv r.hwHead r.hwCnt.toNat
  /-- R32. -/
  freeHead : r.freeHead = r.adv r.preHead r.preCnt.toNat
  /-- R32. -/
  postHead : r.postHead = r.adv r.freeHead r.freeCnt.toNat
  /-- R33. -/
  freePtr : r.IsPtr r.freeHead
  /-- R33. -/
  prePtr : r.IsPtr r.preHead
  /-- R33. -/
  hwPtr : r.IsPtr r.hwHead
  /-- R33. -/
  tailPtr : r.IsPtr r.hwTail
  /-- R33. -/
  postPtr : r.IsPtr r.postHead
  /-- R34: a tail that is not stale. -/
  tail : r.hwCnt ≠ 0 → r.hwTail = r.adv r.hwHead (r.hwCnt.toNat - 1) ∧ r.hwTail = r.back r.preHead 1

/-- The machine's invariant: legal parameters (R8, R64), and a ring that is sound if there is one (R30 to R36). -/
def State.RingInv (s : State) : Prop := s.params.wf = true ∧ (s.ring.cap ≠ 0 → s.ring.Sound)

/-- Memory and the cache are in canonical form. -/
def State.MemInv (s : State) : Prop := s.mem.wf = true ∧ cacheWf s.cache = true

/-! ### Operands -/

/-- The operands CREATE accepts (R8, R122): `al` is a power of two, at least the minimum, both bases are multiples of
it, and there is a descriptor. -/
def CreateLegal (minAlign pb vb al cnt : Word) : Prop :=
  minAlign.toNat ≤ al.toNat ∧ (∃ k, al.toNat = 2 ^ k) ∧ al.toNat ∣ pb.toNat ∧ al.toNat ∣ vb.toNat ∧ cnt.toNat ≠ 0

/-- The stride of an alignment (R35): `max(8, align)`. -/
def strideOf (al : Word) : Nat := max 8 al.toNat

/-! ### The register map (R42) -/

/-- The registers a host read returns at any time, by offset (R42): `CMD` as 0, the interface registers, `CAPACITY` and
`RUNSTATE`. -/
def State.alwaysReadable (s : State) : List (Nat × Word) :=
  [(0x00, 0), (0x04, s.args.arg0), (0x08, s.args.arg1), (0x0C, s.args.arg2), (0x10, s.args.arg3),
    (0x14, BitVec.ofNat 32 s.res.code.toNat), (0x18, s.res.ptr), (0x1C, s.res.count), (0x20, s.ring.cap),
    (0x38, if s.ring.run = .started then 1 else 0)]

/-- The registers a host read returns once a CREATE has succeeded, by offset (R42). -/
def State.readableAfterCreate (s : State) : List (Nat × Word) :=
  [(0x24, s.ring.stride), (0x28, s.ring.base), (0x2C, s.ring.pbase), (0x30, s.ring.high), (0x34, s.ring.restart),
    (0x3C, s.ring.freeCnt), (0x40, s.ring.preCnt), (0x44, s.ring.hwCnt), (0x48, s.ring.postCnt),
    (0x4C, s.ring.freeHead), (0x50, s.ring.preHead), (0x54, s.ring.hwHead), (0x58, s.ring.hwTail),
    (0x5C, s.ring.postHead)]

/-! ### The host's accesses to memory and the agents' steps -/

/-- Where byte `k` of an access of `n` bytes lies, counted from its address upward; byte 0 is the least significant (R67). -/
def byteIndex (e : Endian) (n k : Nat) : Nat :=
  match e with
  | .little => k
  | .big => n - 1 - k

/-- A step that can write memory: the DMA agent's (R244), or the cache's write-back (R78 item 4). -/
def AgentStep.writesMemory : AgentStep → Bool
  | .dmaWrite _ _ => true
  | .cacheWriteBack _ => true
  | .dmaRead _ | .cacheFill _ | .cacheEvict _ => false

/-! ### Descriptors -/

/-- Word `j` of the descriptor `k` places after the hardware head, as memory holds it: what the block reads there once it
has invalidated the descriptor's slot (R181), and what it reads at once where memory is coherent (R76, R78). -/
def State.hwWord (s : State) (k : Nat) (j : Fin 2) : Word :=
  s.mem.word s.params.endian (wordAddr (s.ring.adv s.ring.hwHead k) j)

/-- A flag of the descriptor `k` places after the hardware head. -/
def State.hwFlag (s : State) (f : FlagPos) (k : Nat) : Bool := flagOf (s.hwWord k f.word) f

/-- A byte of memory that is a byte of one of the ring's descriptors (padding is none, R63). -/
def RingRegs.inDesc (r : RingRegs) (a : Word) : Prop :=
  ∃ i, i < r.cap.toNat ∧ r.base.toNat + i * r.stride.toNat ≤ a.toNat ∧
    a.toNat < r.base.toNat + i * r.stride.toNat + descSize

/-- A byte of the ring's region (R60). -/
def RingRegs.inRegion (r : RingRegs) (a : Word) : Prop :=
  r.base.toNat ≤ a.toNat ∧ a.toNat < r.base.toNat + r.cap.toNat * r.stride.toNat

/-! ### Reclaim -/

/-- How many descriptors a scan looks at and counts (R181): at most `limit`, at most the hardware partition, and with a
stop flag only those before the first where it is clear. -/
def ScanLength (s : State) (o : Option FlagPos) (limit m : Nat) : Prop :=
  m ≤ limit ∧ m ≤ s.ring.hwCnt.toNat ∧
    (∀ k, k < m → ∀ f, o = some f → s.hwFlag f k = true) ∧
    (m < limit → m < s.ring.hwCnt.toNat → ∃ f, o = some f ∧ s.hwFlag f m = false)

/-- `ret` is the end of the last complete packet among the first `m` descriptors (R180, R184): none after it shows its
terminal flag, and unless there is none at all the last returned one does. -/
def PacketEnd (s : State) (t : FlagPos) (m ret : Nat) : Prop :=
  ret ≤ m ∧ (0 < ret → s.hwFlag t (ret - 1) = true) ∧ ∀ k, ret ≤ k → k < m → s.hwFlag t k = false

/-- The state after a reclaim that returns `ret` descriptors (R183). -/
def reclaimed (s : State) (ret : Nat) : State :=
  if ret = 0 then s.withRes .success 0 0
  else
    (s.withRing
      { s.ring with
        hwHead := s.ring.adv s.ring.hwHead ret, hwCnt := s.ring.hwCnt - BitVec.ofNat 32 ret,
        postCnt := s.ring.postCnt + BitVec.ofNat 32 ret }).withRes .success s.ring.hwHead (BitVec.ofNat 32 ret)

end Sys2Proof.Machine
end

