-- ==== Sys2Proof/Certificates/Slice0/Obligations.lean ====
section
/-! DEFINITION. The statements for the provers, each from the rules of spec/ that its docstring names. `s.events = … :: rest`
says what the host (or another agent) does next; "as the block reads it" is `State.readByte` and `State.readWord`. -/

open Sys2Proof Sys2Proof.Machine Sys2Proof.Config

/-! ### Encoding and decoding (30_encoding.md) -/

/-- R91, R96: decoding an encoded command gives it back, and a word that decodes is the encoding of what it decodes to,
so every command has exactly one word. -/
def Obligations.DecodeAndEncodeAgree : Prop :=
  (∀ i : Instr, i.wf = true → decode (encode i) = .ok i) ∧ ∀ (w : Word) (i : Instr), decode w = .ok i → encode i = w

/-- R95, in numbers: a `CMD` write of a word with `RSVD` not 0, an `OP` outside 1 to 11, or a `DIR` not 00 on an operation
other than CLONE (2) and CHECK (9), gives ILLEGAL_COMMAND and changes nothing else; of any other word it executes the
command of `OP` with `DIR`. -/
def Obligations.IllegalWordsAreExactlyThese : Prop :=
  ∀ (s : State) (w : Word) (rest : List Event), s.events = cmdWrite s.params w :: rest →
    (if w.toNat / 64 ≠ 0 ∨ ¬(1 ≤ w.toNat % 16 ∧ w.toNat % 16 ≤ 11) ∨
        (w.toNat % 16 ≠ 2 ∧ w.toNat % 16 ≠ 9 ∧ w.toNat / 16 % 4 ≠ 0) then
      step s = .next { s with events := rest, res := { code := .illegalCommand, ptr := 0, count := 0 } }
    else
      ∃ i : Instr, i.opcode.toNat = w.toNat % 16 ∧ i.dir.toBits.toNat = w.toNat / 16 % 4 ∧
        step s = exec i { s with events := rest })

/-- R96: the fixed words of the opcode map decode to their commands (a sanity statement). -/
def Obligations.FixedWordsDecode : Prop :=
  decode 0x00000001 = .ok .create ∧ decode 0x00000012 = .ok (.clone .tx) ∧ decode 0x00000022 = .ok (.clone .rx) ∧
    decode 0x00000002 = .ok (.clone .d00) ∧ decode 0x00000032 = .ok (.clone .d11) ∧
    decode 0x00000003 = .ok .alloc ∧ decode 0x00000004 = .ok .unalloc ∧ decode 0x00000005 = .ok .submit ∧
    decode 0x00000006 = .ok .reclaimTx ∧ decode 0x00000007 = .ok .reclaimRx ∧ decode 0x00000008 = .ok .free ∧
    decode 0x00000019 = .ok (.check .tx) ∧ decode 0x00000029 = .ok (.check .rx) ∧
    decode 0x00000009 = .ok (.check .d00) ∧ decode 0x00000039 = .ok (.check .d11) ∧
    decode 0x0000000A = .ok .start ∧ decode 0x0000000B = .ok .stop ∧
    decode 0x00000000 = .error .reservedOpcode ∧ decode 0x0000000C = .error .reservedOpcode ∧
    decode 0x0000000F = .error .reservedOpcode ∧ decode 0x00000013 = .error .directionNotAllowed ∧
    decode 0x80000001 = .error .reservedBits

/-! ### Steps -/

/-- R44, R95: when the host's next access is a `CMD` write of a word that decodes to a well-formed command, the step is that
command run on the rest of the schedule. -/
def Obligations.StepRunsTheDecodedCommand : Prop :=
  ∀ (s : State) (w : Word) (i : Instr) (rest : List Event), s.events = cmdWrite s.params w :: rest →
    decode w = .ok i → i.wf = true → step s = exec i { s with events := rest }

/-- R230, R236, R240: nothing stops the machine: every step answers a next state, and so does every command. (That a step
with nothing to come leaves the state is the model's choice, log 8; that nothing stops is read from those rules, log 17.) -/
def Obligations.NothingStopsTheMachine : Prop :=
  (∀ s : State, ∃ t, step s = .next t) ∧ ∀ (i : Instr) (s : State), ∃ t, exec i s = .next t

/-- R260: power-on values. What R260 leaves unspecified is not stated here; memory that nothing has written reads as the
free value of its address (the model's form, log 5), and every command but CREATE returns NO_LIST. -/
def Obligations.ResetValues : Prop :=
  State.reset.ring.cap = 0 ∧ State.reset.ring.run = .stopped ∧
    State.reset.args = { arg0 := 0, arg1 := 0, arg2 := 0, arg3 := 0 } ∧
    State.reset.res.code.toNat = 0 ∧ State.reset.res.ptr = 0 ∧ State.reset.res.count = 0 ∧
    (∀ k : HostFault, State.reset.faults.has k = false) ∧
    (∀ a : Word, State.reset.readByte a = powerOnByte a.toNat) ∧
    ∀ i : Instr, i ≠ .create → ∃ t, exec i State.reset = .next t ∧ t.res.code = .noList

/-- R260 as an event: power-on reset gives the block's registers and `S.fault` their reset values; the parameters and
descriptor memory, which are not the block's, stay. That memory, the host's cache, what is still to come and the model's
own counters stay is the model's choice (assumption log 16). -/
def Obligations.PowerOnResetEvent : Prop :=
  ∀ (s : State) (rest : List Event), s.events = .powerOnReset :: rest →
    ∃ t, step s = .next t ∧ t.ring.cap = 0 ∧ t.ring.run = .stopped ∧
      t.args = { arg0 := 0, arg1 := 0, arg2 := 0, arg3 := 0 } ∧
      t.res = { code := .success, ptr := 0, count := 0 } ∧ (∀ k : HostFault, t.faults.has k = false) ∧
      t.ringWritten = false ∧ t.params = s.params ∧ t.mem = s.mem ∧ t.cache = s.cache ∧ t.events = rest

/-! ### What holds of every command -/

/-- R232: with no ring, every command except CREATE returns NO_LIST and changes no state and no memory. -/
def Obligations.WithoutARingOnlyNoList : Prop :=
  ∀ (i : Instr) (s : State), i ≠ .create → s.ring.cap = 0 →
    exec i s = .next { s with res := { code := .noList, ptr := 0, count := 0 } }

/-- R235, D42: a command other than CREATE that ends with an error code has changed no register but `RES`; with no step of
another agent inside it, it has changed nothing else at all. -/
def Obligations.CommandsFailAtomically : Prop :=
  ∀ (i : Instr) (s t : State), i ≠ .create → exec i s = .next t → t.res.code ≠ .success →
    t.ring = s.ring ∧ t.args = s.args ∧ t.faults = s.faults ∧ t.params = s.params ∧
      (s.interleave = [] → t = { s with res := t.res })

/-- R38, R22, R31: which ring registers a command other than CREATE leaves. -/
def Obligations.RingRegisterFrames : Prop :=
  ∀ (i : Instr) (s t : State), i ≠ .create → exec i s = .next t →
    (t.ring.cap = s.ring.cap ∧ t.ring.stride = s.ring.stride ∧ t.ring.base = s.ring.base ∧
      t.ring.pbase = s.ring.pbase ∧ t.ring.high = s.ring.high ∧ t.ring.restart = s.ring.restart) ∧
    (i ≠ .start → i ≠ .stop → t.ring.run = s.ring.run) ∧
    ((i = .start ∨ i = .stop) → ∃ x, t.ring = { s.ring with run := x }) ∧
    (i.opcode = 2 ∨ i.opcode = 9 → t.ring = s.ring) ∧
    ((i = .alloc ∨ i = .unalloc) → ∃ h f p, t.ring = { s.ring with freeHead := h, freeCnt := f, preCnt := p }) ∧
    (i = .submit → ∃ e h p w, t.ring = { s.ring with hwTail := e, preHead := h, preCnt := p, hwCnt := w }) ∧
    ((i = .reclaimTx ∨ i = .reclaimRx) → ∃ h w p, t.ring = { s.ring with hwHead := h, hwCnt := w, postCnt := p }) ∧
    (i = .free → ∃ h p f, t.ring = { s.ring with postHead := h, postCnt := p, freeCnt := f })

/-- R40, R24, R18: no command writes an operand register, a parameter or the schedule of accesses; none but CREATE changes
`S.fault` or makes the ring registers specified. -/
def Obligations.OperandsAndMarksFrame : Prop :=
  ∀ (i : Instr) (s t : State), exec i s = .next t →
    t.args = s.args ∧ t.params = s.params ∧ t.events = s.events ∧ t.readData = s.readData ∧ t.draws = s.draws ∧
      (i ≠ .create → t.faults = s.faults ∧ t.ringWritten = s.ringWritten)

/-- R22: the run state gates CLONE and CHECK alone: ALLOC, UNALLOC, SUBMIT, RECLAIM_TX, RECLAIM_RX and FREE do the same
whatever the run state is, and leave it, whatever steps of other agents fall inside them. -/
def Obligations.RunStateGatesNoOtherCommand : Prop :=
  ∀ (i : Instr) (s t : State) (x : RunState),
    i = .alloc ∨ i = .unalloc ∨ i = .submit ∨ i = .reclaimTx ∨ i = .reclaimRx ∨ i = .free →
    exec i s = .next t →
    exec i { s with ring := { s.ring with run := x } } = .next { t with ring := { t.ring with run := x } }

/-- R66: ALLOC, UNALLOC, FREE, START and STOP, and on a coherent platform SUBMIT, touch no memory: every byte reads as
before, for the block and the host and for the DMA agent. -/
def Obligations.CommandsWithoutMemoryEvents : Prop :=
  ∀ (i : Instr) (s t : State),
    i = .alloc ∨ i = .unalloc ∨ i = .free ∨ i = .start ∨ i = .stop ∨ (i = .submit ∧ s.params.coherent = true) →
    exec i s = .next t →
    t.mem = s.mem ∧ t.cache = s.cache ∧ t.interleave = s.interleave ∧ ∀ a : Word, t.readByte a = s.readByte a

/-- R66, R75, R244: the commands that only read memory write none, on every platform and whatever steps of other agents
fall inside them. Memory changes by those steps alone: it stays as it is if none of them writes memory, and so if there is
none. For CHECK, and for a RECLAIM on a coherent platform, memory and cache are exactly what those steps, taken by
themselves, make of them. Outside the hardware partition every byte of memory stays, and reads as before on a coherent
platform; on a non-coherent one, unless the cache holds another value for it, which a write-back can put there. (That
RECLAIM's invalidates write nothing back is the model's choice, log 13.) -/
def Obligations.ReadingCommandsWriteNothing : Prop :=
  ∀ (i : Instr) (s t : State), i = .reclaimTx ∨ i = .reclaimRx ∨ i.opcode = 9 → s.RingInv → exec i s = .next t →
    (s.params.coherent = true → ∀ a : Word, s.ring.hwOwned a = false → t.readByte a = s.readByte a) ∧
    (s.interleave = [] → t.mem = s.mem) ∧
    (∀ a : Word, s.ring.hwOwned a = false →
      (s.params.coherent = false → ∀ c ∈ s.cache, c.addr = a.toNat → c.byte = s.mem.byte a.toNat) →
      t.mem.byte a.toNat = s.mem.byte a.toNat) ∧
    ∃ inside : List (List AgentStep), s.interleave = inside ++ t.interleave ∧
      ((∀ x ∈ inside.flatten, x.writesMemory = false) → t.mem = s.mem) ∧
      (s.params.coherent = true ∨ i.opcode = 9 →
        t.mem = (runAgentSteps inside.flatten s).mem ∧ t.cache = (runAgentSteps inside.flatten s).cache)

/-! ### CREATE (40_ring_setup.md) -/

/-- R122, R128: CREATE with an illegal operand returns INVALID_PARAMETER, leaves no ring, and changes no other ring
register and no memory. -/
def Obligations.CreateRefusesIllegalOperands : Prop :=
  ∀ s : State, s.params.wf = true →
    ¬CreateLegal s.params.minAlign s.args.arg0 s.args.arg1 s.args.arg2 s.args.arg3 →
    ∃ t, exec .create s = .next t ∧
      t = { s with
        ring := { s.ring with cap := 0 }, res := { code := .invalidParameter, ptr := 0, count := 0 }, faults := t.faults }

/-- R124, R128: CREATE whose ring would pass 2^32 - 1, in exact arithmetic, returns LIST_RANGE_ERROR if its operands pass
the checks of R122, and INVALID_PARAMETER if they do not; it leaves no ring, and changes no other ring register and no
memory. -/
def Obligations.CreateRefusesAWrappingRange : Prop :=
  ∀ s : State, s.params.wf = true →
    2 ^ 32 < s.args.arg1.toNat + strideOf s.args.arg2 * s.args.arg3.toNat →
    ∃ t c, exec .create s = .next t ∧
      t = { s with ring := { s.ring with cap := 0 }, res := { code := c, ptr := 0, count := 0 }, faults := t.faults } ∧
      (CreateLegal s.params.minAlign s.args.arg0 s.args.arg1 s.args.arg2 s.args.arg3 → c = .listRangeError) ∧
      (¬CreateLegal s.params.minAlign s.args.arg0 s.args.arg1 s.args.arg2 s.args.arg3 → c = .invalidParameter)

/-- R123: the element stride is `(DESC_SIZE + al - 1) & ~(al - 1)` in 32 bits; for a power of two from 4 to 2^31 this never
overflows and equals `max(8, al)`. -/
def Obligations.StrideIsTheRoundedDescriptorSize : Prop :=
  (∀ al : Word, createStride al = (BitVec.ofNat 32 descSize + al - 1) &&& ~~~(al - 1)) ∧
    ∀ (al : Word) (k : Nat), al.toNat = 2 ^ k → 4 ≤ al.toNat →
      descSize + al.toNat - 1 < 2 ^ 32 ∧ (createStride al).toNat = max 8 al.toNat

/-- R127: a successful CREATE sets every ring register. -/
def Obligations.CreateSetsEveryRingRegister : Prop :=
  ∀ s : State, s.params.wf = true →
    CreateLegal s.params.minAlign s.args.arg0 s.args.arg1 s.args.arg2 s.args.arg3 →
    s.args.arg1.toNat + strideOf s.args.arg2 * s.args.arg3.toNat ≤ 2 ^ 32 →
    ∃ t, exec .create s = .next t ∧ t.res = { code := .success, ptr := 0, count := 0 } ∧
      t.ring.cap = s.args.arg3 ∧ t.ring.stride.toNat = strideOf s.args.arg2 ∧ t.ring.base = s.args.arg1 ∧
      t.ring.pbase = s.args.arg0 ∧
      t.ring.high.toNat = s.args.arg1.toNat + (s.args.arg3.toNat - 1) * strideOf s.args.arg2 ∧
      t.ring.restart = s.args.arg0 ∧ t.ring.run = .stopped ∧
      t.ring.freeCnt = s.args.arg3 ∧ t.ring.preCnt = 0 ∧ t.ring.hwCnt = 0 ∧ t.ring.postCnt = 0 ∧
      t.ring.freeHead = s.args.arg1 ∧ t.ring.preHead = s.args.arg1 ∧ t.ring.hwHead = s.args.arg1 ∧
      t.ring.hwTail = s.args.arg1 ∧ t.ring.postHead = s.args.arg1 ∧ t.ringWritten = true

/-- R125, R126: what a successful CREATE leaves in memory as the block reads it, whatever steps of other agents fall inside
it on a coherent platform, and on any platform if none does: each word of the region is 0, but word 0 of each descriptor
is its successor's physical address, and the last one's the physical base; no byte outside the region changes. -/
def Obligations.CreateLaysOutTheRegion : Prop :=
  ∀ s : State, s.params.wf = true → s.params.coherent = true ∨ s.interleave = [] →
    CreateLegal s.params.minAlign s.args.arg0 s.args.arg1 s.args.arg2 s.args.arg3 →
    s.args.arg1.toNat + strideOf s.args.arg2 * s.args.arg3.toNat ≤ 2 ^ 32 →
    ∃ t, exec .create s = .next t ∧
      (∀ (i : Nat) (a : Word), i < s.args.arg3.toNat → a.toNat = s.args.arg1.toNat + i * strideOf s.args.arg2 →
        (t.readWord a).toNat =
          if i + 1 < s.args.arg3.toNat then (s.args.arg0.toNat + (i + 1) * strideOf s.args.arg2) % 2 ^ 32
          else s.args.arg0.toNat) ∧
      (∀ (i j : Nat) (a : Word), i < s.args.arg3.toNat → 0 < j → 4 * j < strideOf s.args.arg2 →
        a.toNat = s.args.arg1.toNat + i * strideOf s.args.arg2 + 4 * j → t.readWord a = 0) ∧
      ∀ a : Word, a.toNat < s.args.arg1.toNat ∨
          s.args.arg1.toNat + strideOf s.args.arg2 * s.args.arg3.toNat ≤ a.toNat →
        t.readByte a = s.readByte a

/-- R129: CREATE on a ring that is started or has a hardware partition records LIVE_RECREATE, whatever its operands, and no
other CREATE changes `S.fault`. -/
def Obligations.LiveRecreateIsMarked : Prop :=
  ∀ s : State, ∃ t, exec .create s = .next t ∧
    t.faults =
      if s.ring.cap ≠ 0 ∧ (s.ring.run = .started ∨ s.ring.hwCnt ≠ 0) then s.faults.add .liveRecreate else s.faults

/-! ### CLONE -/

/-- R130 to R132: CLONE of a sound, stopped, fully free ring writes the template's two words to every descriptor, sets the
direction's wrap flag in the last one and no other bit, and leaves every other byte (the padding among them), the ring and
everything else as it is, as the block reads it: on a coherent platform whatever steps of other agents fall inside it, on
any platform if none does. -/
def Obligations.CloneCopiesTheTemplate : Prop :=
  ∀ (s : State) (dir : DirField) (f : FlagPos),
    s.RingInv → s.params.coherent = true ∨ s.interleave = [] → s.ring.cap ≠ 0 → s.ring.run = .stopped →
    s.ring.freeCnt = s.ring.cap →
    (dir = .tx ∧ f = s.params.layout.txWrap) ∨ (dir = .rx ∧ f = s.params.layout.rxWrap) →
    ∃ t, exec (.clone dir) s = .next t ∧ t.res = { code := .success, ptr := 0, count := 0 } ∧ t.ring = s.ring ∧
      t.args = s.args ∧ t.faults = s.faults ∧
      (∀ (i : Nat) (j : Fin 2), i < s.ring.cap.toNat →
        t.readWord (wordAddr (s.ring.ptr i) j) =
          let w := if j = 0 then s.args.arg0 else s.args.arg1
          if i + 1 = s.ring.cap.toNat ∧ j = f.word then w ||| (1#32 <<< f.bit.val) else w) ∧
      ∀ a : Word, ¬s.ring.inDesc a → t.readByte a = s.readByte a

/-- R133: CLONE's preconditions and their codes, in order. A failing CLONE changes nothing but `RES`. -/
def Obligations.CloneRefusesInOrder : Prop :=
  ∀ (s : State) (dir : DirField),
    (s.ring.cap = 0 → exec (.clone dir) s = .next { s with res := { code := .noList, ptr := 0, count := 0 } }) ∧
    (s.ring.cap ≠ 0 → s.ring.run = .started →
      exec (.clone dir) s = .next { s with res := { code := .deviceBusy, ptr := 0, count := 0 } }) ∧
    (s.ring.cap ≠ 0 → s.ring.run = .stopped → s.ring.freeCnt ≠ s.ring.cap →
      exec (.clone dir) s = .next { s with res := { code := .listStateError, ptr := 0, count := 0 } }) ∧
    (s.ring.cap ≠ 0 → s.ring.run = .stopped → s.ring.freeCnt = s.ring.cap → dir = .d00 ∨ dir = .d11 →
      exec (.clone dir) s = .next { s with res := { code := .invalidParameter, ptr := 0, count := 0 } })

/-! ### ALLOC, UNALLOC, SUBMIT (41_alloc_submit.md) -/

/-- R151, R152: ALLOC of no more than the free count returns the old free head, and moves the free head and the two counts
by `n`; nothing else changes. -/
def Obligations.AllocMovesTheFreeHead : Prop :=
  ∀ s : State, s.ring.cap ≠ 0 → s.args.arg0.toNat ≤ s.ring.freeCnt.toNat →
    exec .alloc s = .next { s with
      ring := { s.ring with
        freeHead := s.ring.adv s.ring.freeHead s.args.arg0.toNat
        freeCnt := s.ring.freeCnt - s.args.arg0
        preCnt := s.ring.preCnt + s.args.arg0 }
      res := { code := .success, ptr := s.ring.freeHead, count := 0 } }

/-- R153: ALLOC of more than the free count returns FAILURE and makes no state change. -/
def Obligations.AllocBeyondFreeFails : Prop :=
  ∀ s : State, s.ring.cap ≠ 0 → s.ring.freeCnt.toNat < s.args.arg0.toNat →
    exec .alloc s = .next { s with res := { code := .failure, ptr := 0, count := 0 } }

/-- R158: UNALLOC of no more than the pre-hardware count moves the free head back by `n` and the two counts; nothing else
changes. -/
def Obligations.UnallocMovesTheFreeHeadBack : Prop :=
  ∀ s : State, s.ring.cap ≠ 0 → s.args.arg0.toNat ≤ s.ring.preCnt.toNat →
    exec .unalloc s = .next { s with
      ring := { s.ring with
        freeHead := s.ring.back s.ring.freeHead s.args.arg0.toNat
        freeCnt := s.ring.freeCnt + s.args.arg0
        preCnt := s.ring.preCnt - s.args.arg0 }
      res := { code := .success, ptr := 0, count := 0 } }

/-- R157: UNALLOC of more than the pre-hardware count returns FAILURE with no state change. -/
def Obligations.UnallocBeyondPreFails : Prop :=
  ∀ s : State, s.ring.cap ≠ 0 → s.ring.preCnt.toNat < s.args.arg0.toNat →
    exec .unalloc s = .next { s with res := { code := .failure, ptr := 0, count := 0 } }

/-- R156, vector L1-3: UNALLOC right after a successful ALLOC of the same count gives back every ring register. -/
def Obligations.UnallocUndoesAlloc : Prop :=
  ∀ s : State, s.RingInv → s.ring.cap ≠ 0 → s.args.arg0.toNat ≤ s.ring.freeCnt.toNat →
    ∃ t u, exec .alloc s = .next t ∧ exec .unalloc t = .next u ∧ u.ring = s.ring ∧ u.mem = s.mem

/-- R165: SUBMIT of `n > 0` descriptors from the pre-hardware head, no more than there are, sets the hardware tail to the
last submitted descriptor, moves the pre-hardware head and the two counts by `n`, and changes no other register, on every
platform; on a coherent one it changes nothing else at all, and on any, with no other agent stepping inside it, every byte
reads as before for the block and the host (on a non-coherent one that a clean leaves the bytes in the cache is the model's
choice, log 13). -/
def Obligations.SubmitHandsOverTheSet : Prop :=
  ∀ s : State, s.ring.cap ≠ 0 → 0 < s.args.arg0.toNat → s.args.arg0.toNat ≤ s.ring.preCnt.toNat →
    s.args.arg1 = s.ring.preHead →
    ∃ t, exec .submit s = .next t ∧
      t = { s with
        ring := { s.ring with
          hwTail := s.ring.adv s.args.arg1 (s.args.arg0.toNat - 1)
          preHead := s.ring.adv s.args.arg1 s.args.arg0.toNat
          preCnt := s.ring.preCnt - s.args.arg0
          hwCnt := s.ring.hwCnt + s.args.arg0 }
        res := { code := .success, ptr := 0, count := 0 }
        mem := t.mem, cache := t.cache, interleave := t.interleave } ∧
      (s.params.coherent = true → t.mem = s.mem ∧ t.cache = s.cache ∧ t.interleave = s.interleave) ∧
      (s.interleave = [] → ∀ a : Word, t.readByte a = s.readByte a)

/-- R162: SUBMIT of `n = 0` returns SUCCESS and changes nothing, whatever the pointer. -/
def Obligations.SubmitOfNothingSucceeds : Prop :=
  ∀ s : State, s.ring.cap ≠ 0 → s.args.arg0 = 0 →
    exec .submit s = .next { s with res := { code := .success, ptr := 0, count := 0 } }

/-- R163: SUBMIT of `n > 0` with more than the pre-hardware count, or from another pointer than its head, returns
LIST_STATE_ERROR and changes no counter and no pointer. -/
def Obligations.SubmitOutOfSequenceFails : Prop :=
  ∀ s : State, s.ring.cap ≠ 0 → 0 < s.args.arg0.toNat →
    s.ring.preCnt.toNat < s.args.arg0.toNat ∨ s.args.arg1 ≠ s.ring.preHead →
    exec .submit s = .next { s with res := { code := .listStateError, ptr := 0, count := 0 } }

/-- R164, R78 item 1: on a non-coherent platform, a successful SUBMIT inside which no other agent steps leaves, in the
stride slot of every submitted descriptor, every byte the host or the block had written to the cache in memory, where the
DMA agent reads it. The model's choice (log 13), of which R78 says nothing: no byte of the slots is left to be written
back, and no byte of memory outside them changes, where a platform may clean whole lines. -/
def Obligations.SubmitCleansTheSlots : Prop :=
  ∀ s : State, s.RingInv → s.MemInv → s.params.coherent = false → s.interleave = [] → s.ring.cap ≠ 0 →
    0 < s.args.arg0.toNat → s.args.arg0.toNat ≤ s.ring.preCnt.toNat → s.args.arg1 = s.ring.preHead →
    ∃ t, exec .submit s = .next t ∧
      (∀ (k x : Nat), k < s.args.arg0.toNat → (s.ring.adv s.ring.preHead k).toNat ≤ x →
        x < (s.ring.adv s.ring.preHead k).toNat + s.ring.stride.toNat →
        (∀ c ∈ s.cache, c.addr = x → c.dirty = true → t.mem.byte x = c.byte) ∧
          ∀ c ∈ t.cache, c.addr = x → c.dirty = false) ∧
      ∀ x : Nat, (∀ k : Nat, k < s.args.arg0.toNat → ¬((s.ring.adv s.ring.preHead k).toNat ≤ x ∧
          x < (s.ring.adv s.ring.preHead k).toNat + s.ring.stride.toNat)) → t.mem.byte x = s.mem.byte x

/-! ### RECLAIM_TX, RECLAIM_RX (42_reclaim.md) -/

/-- R180 to R186: RECLAIM_TX of a sound ring with a hardware partition, inside which no other agent steps, scans the
descriptors from the hardware head that `limit`, the hardware partition and (with TX_USED_STOP) the TX used flag allow,
and returns those up to the last whose TX_LAST is set: head, counts and results move by exactly that many, and nothing
else changes but, on a non-coherent platform, the cache. The flags are those in memory, on either platform (R78 item 2).
(That an invalidate leaves memory as it is, writing no dirty byte back, is the model's choice, log 13.) -/
def Obligations.ReclaimTxReturnsWholePackets : Prop :=
  ∀ s : State, s.RingInv → s.interleave = [] → s.ring.cap ≠ 0 → s.ring.hwCnt ≠ 0 →
    ∃ m ret t,
      ScanLength s (if s.params.txUsedStop then some s.params.layout.txUsed else none) s.args.arg0.toNat m ∧
        PacketEnd s s.params.layout.txLast m ret ∧ exec .reclaimTx s = .next t ∧
        t = { reclaimed s ret with cache := t.cache } ∧ (s.params.coherent = true → t.cache = s.cache)

/-- R180 to R184, R190 to R194: RECLAIM_RX likewise, by RX_EOF, stopping before the first descriptor whose RX_NEW is
clear (log 13 as there). -/
def Obligations.ReclaimRxReturnsWholeFrames : Prop :=
  ∀ s : State, s.RingInv → s.interleave = [] → s.ring.cap ≠ 0 → s.ring.hwCnt ≠ 0 →
    ∃ m ret t,
      ScanLength s (some s.params.layout.rxNew) s.args.arg0.toNat m ∧
        PacketEnd s s.params.layout.rxEof m ret ∧ exec .reclaimRx s = .next t ∧
        t = { reclaimed s ret with cache := t.cache } ∧ (s.params.coherent = true → t.cache = s.cache)

/-- R184 item 1, R183: whatever steps of other agents fall inside it and on every platform, a RECLAIM of a sound ring
succeeds, returns no more than `limit` and than the hardware partition holds, and moves head, counts and results by
exactly that many. -/
def Obligations.ReclaimIsBoundedUnderAnyInterleaving : Prop :=
  ∀ (i : Instr) (s : State), i = .reclaimTx ∨ i = .reclaimRx → s.RingInv → s.ring.cap ≠ 0 →
    ∃ ret t, exec i s = .next t ∧ ret ≤ s.args.arg0.toNat ∧ ret ≤ s.ring.hwCnt.toNat ∧
      t = { reclaimed s ret with mem := t.mem, cache := t.cache, interleave := t.interleave }

/-- R182: with an empty hardware partition a RECLAIM reads no memory and returns count 0 with pointer 0. -/
def Obligations.ReclaimOfNothingReturnsNothing : Prop :=
  ∀ (i : Instr) (s : State), i = .reclaimTx ∨ i = .reclaimRx → s.ring.cap ≠ 0 → s.ring.hwCnt = 0 →
    exec i s = .next { s with res := { code := .success, ptr := 0, count := 0 } }

/-! ### FREE, CHECK, START, STOP (43_free_check_run.md) -/

/-- R202: FREE of `n > 0` descriptors from the post-hardware head, no more than there are, moves the post head and the two
counts by `n`; nothing else changes. -/
def Obligations.FreeMovesThePostHead : Prop :=
  ∀ s : State, s.ring.cap ≠ 0 → 0 < s.args.arg0.toNat → s.args.arg0.toNat ≤ s.ring.postCnt.toNat →
    s.args.arg1 = s.ring.postHead →
    exec .free s = .next { s with
      ring := { s.ring with
        postHead := s.ring.adv s.ring.postHead s.args.arg0.toNat
        postCnt := s.ring.postCnt - s.args.arg0
        freeCnt := s.ring.freeCnt + s.args.arg0 }
      res := { code := .success, ptr := 0, count := 0 } }

/-- R201: FREE of `n = 0` is a success that changes nothing; FREE of `n > 0` with more than the post-hardware count, or from
another pointer than its head, returns LIST_STATE_ERROR and changes nothing. -/
def Obligations.FreeOutOfSequenceFails : Prop :=
  ∀ s : State, s.ring.cap ≠ 0 →
    (s.args.arg0 = 0 → exec .free s = .next { s with res := { code := .success, ptr := 0, count := 0 } }) ∧
    (0 < s.args.arg0.toNat → s.ring.postCnt.toNat < s.args.arg0.toNat ∨ s.args.arg1 ≠ s.ring.postHead →
      exec .free s = .next { s with res := { code := .listStateError, ptr := 0, count := 0 } })

/-- R211: CHECK's refusals in order: no ring, started, a bad direction. They change nothing but `RES`; and whatever CHECK
answers, it changes no register but `RES`, and with no other agent stepping inside it nothing else at all. -/
def Obligations.CheckRefusesInOrder : Prop :=
  ∀ (s : State) (dir : DirField),
    (s.ring.cap = 0 → exec (.check dir) s = .next { s with res := { code := .noList, ptr := 0, count := 0 } }) ∧
    (s.ring.cap ≠ 0 → s.ring.run = .started →
      exec (.check dir) s = .next { s with res := { code := .deviceBusy, ptr := 0, count := 0 } }) ∧
    (s.ring.cap ≠ 0 → s.ring.run = .stopped → dir = .d00 ∨ dir = .d11 →
      exec (.check dir) s = .next { s with res := { code := .invalidParameter, ptr := 0, count := 0 } }) ∧
    ∀ t : State, exec (.check dir) s = .next t →
      t.ring = s.ring ∧ t.args = s.args ∧ t.faults = s.faults ∧ (s.interleave = [] → t = { s with res := t.res })

/-- R210 steps 4 and 5, R214: CHECK of a created, stopped ring reports the first of the five pointers that lies outside
`[S.base, S.high]`, with its detail code 1 to 5; with all five inside, counts that do not sum to `S.cap`, with detail 6. -/
def Obligations.CheckReportsPointersAndCounts : Prop :=
  ∀ (s : State) (dir : DirField), s.ring.cap ≠ 0 → s.ring.run = .stopped → dir = .tx ∨ dir = .rx →
    (∀ k : Nat, ∀ h : k < 5,
      let ptrs := #v[s.ring.freeHead, s.ring.preHead, s.ring.hwHead, s.ring.hwTail, s.ring.postHead]
      (∀ j : Nat, ∀ hj : j < k, s.ring.base.toNat ≤ (ptrs[j]'(by omega)).toNat ∧
        (ptrs[j]'(by omega)).toNat ≤ s.ring.high.toNat) →
      ¬(s.ring.base.toNat ≤ ptrs[k].toNat ∧ ptrs[k].toNat ≤ s.ring.high.toNat) →
      exec (.check dir) s = .next { s with
        res := { code := .listStateError, ptr := ptrs[k], count := BitVec.ofNat 32 (k + 1) } }) ∧
    ((∀ p ∈ [s.ring.freeHead, s.ring.preHead, s.ring.hwHead, s.ring.hwTail, s.ring.postHead],
        s.ring.base.toNat ≤ p.toNat ∧ p.toNat ≤ s.ring.high.toNat) →
      s.ring.freeCnt.toNat + s.ring.preCnt.toNat + s.ring.hwCnt.toNat + s.ring.postCnt.toNat ≠ s.ring.cap.toNat →
      exec (.check dir) s = .next { s with res := { code := .listStateError, ptr := 0, count := 6 } })

/-- R210 steps 6 and 7, R212, R214: CHECK of a sound, stopped ring, inside which no other agent steps, reports the lowest
descriptor but the last whose word 0 is not its successor's physical address (detail 7), then a last descriptor without the
direction's wrap flag (detail 8), and otherwise SUCCESS; it changes nothing but `RES`. -/
def Obligations.CheckReportsLinksAndWrap : Prop :=
  ∀ (s : State) (dir : DirField) (f : FlagPos), s.RingInv → s.interleave = [] → s.ring.cap ≠ 0 →
    s.ring.run = .stopped →
    (dir = .tx ∧ f = s.params.layout.txWrap) ∨ (dir = .rx ∧ f = s.params.layout.rxWrap) →
    let linked := fun i : Nat => (s.readWord (s.ring.ptr i)).toNat =
      (s.ring.pbase.toNat + (i + 1) * s.ring.stride.toNat) % 2 ^ 32
    let wrapped := (s.readWord (wordAddr s.ring.high f.word)).getLsbD f.bit.val
    (∀ i : Nat, i + 1 < s.ring.cap.toNat → (∀ j, j < i → linked j) → ¬linked i →
      exec (.check dir) s = .next { s with res := { code := .listStateError, ptr := s.ring.ptr i, count := 7 } }) ∧
    ((∀ i : Nat, i + 1 < s.ring.cap.toNat → linked i) → wrapped = false →
      exec (.check dir) s = .next { s with res := { code := .listStateError, ptr := s.ring.high, count := 8 } }) ∧
    ((∀ i : Nat, i + 1 < s.ring.cap.toNat → linked i) → wrapped = true →
      exec (.check dir) s = .next { s with res := { code := .success, ptr := 0, count := 0 } })

/-- R216, R219: START and STOP set the run state of a ring in either, and nothing else; without a ring they return
NO_LIST and change nothing. -/
def Obligations.StartAndStopSetTheRunState : Prop :=
  ∀ s : State,
    (s.ring.cap ≠ 0 →
      exec .start s = .next { s with
        ring := { s.ring with run := .started }, res := { code := .success, ptr := 0, count := 0 } } ∧
      exec .stop s = .next { s with
        ring := { s.ring with run := .stopped }, res := { code := .success, ptr := 0, count := 0 } }) ∧
    (s.ring.cap = 0 →
      exec .start s = .next { s with res := { code := .noList, ptr := 0, count := 0 } } ∧
      exec .stop s = .next { s with res := { code := .noList, ptr := 0, count := 0 } })

/-! ### The host's accesses (10_state.md R40 to R44, 20_memory.md R67, R75) -/

/-- R40, R42: a host write of an operand register changes that register and nothing else, and is what the next read of it
returns, which changes nothing but what the host has read (log 10). -/
def Obligations.OperandRegistersHoldWhatIsWritten : Prop :=
  ∀ (s : State) (k : Nat) (v : Word) (rest : List Event), k < 4 →
    let a := s.params.regBase + BitVec.ofNat 32 (4 * k + 4)
    s.events = .regWrite a .w32 v :: .regRead a .w32 :: rest →
    ∃ t, step s = .next t ∧
      t = { s with
        args :=
          { arg0 := if k = 0 then v else s.args.arg0
            arg1 := if k = 1 then v else s.args.arg1
            arg2 := if k = 2 then v else s.args.arg2
            arg3 := if k = 3 then v else s.args.arg3 }
        events := .regRead a .w32 :: rest } ∧
      step t = .next { t with readData := v, events := rest }

/-- R42: a host write of a read-only or reserved register is ignored. -/
def Obligations.ReadOnlyRegistersIgnoreWrites : Prop :=
  ∀ (s : State) (off : Nat) (v : Word) (rest : List Event), 0x14 ≤ off → off < 0x100 → off % 4 = 0 →
    s.events = .regWrite (s.params.regBase + BitVec.ofNat 32 off) .w32 v :: rest →
    step s = .next { s with events := rest }

/-- R42: a host read of an offset of the register map returns that register, `CMD` and the reserved offsets 0, once a CREATE
has succeeded; the interface registers, `CAPACITY` and `RUNSTATE` always. It changes nothing. -/
def Obligations.RegisterReadsFollowTheMap : Prop :=
  ∀ (s : State) (off : Nat) (v : Word) (rest : List Event),
    s.events = .regRead (s.params.regBase + BitVec.ofNat 32 off) .w32 :: rest →
    (off, v) ∈ s.alwaysReadable ∨ (0x60 ≤ off ∧ off ≤ 0xFC ∧ off % 4 = 0 ∧ v = 0) ∨
      (s.ringWritten = true ∧ (off, v) ∈ s.readableAfterCreate) →
    step s = .next { s with readData := v, events := rest }

/-- R42, D31: before the first successful CREATE a host read of a register R42 leaves unspecified returns a free draw (the
opaque `freeRead` of the number of draws so far, log 4), a new one each time, and changes nothing else. -/
def Obligations.UnspecifiedReadsAreFreeDraws : Prop :=
  ∀ (s : State) (off : Nat) (rest : List Event), s.ringWritten = false →
    off ∈ s.readableAfterCreate.map Prod.fst →
    s.events = .regRead (s.params.regBase + BitVec.ofNat 32 off) .w32 :: rest →
    step s = .next { s with readData := freeRead s.draws, draws := s.draws + 1, events := rest }

/-- R43, R241: a host register access that is not an aligned 32-bit access to 0x00 to 0xFC records BAD_REG_ACCESS, whatever
its width (log 20): a read returns an unconstrained value (log 4), a write is ignored. -/
def Obligations.BadRegisterAccessIsMarked : Prop :=
  ∀ (s : State) (a v : Word) (w : RegWidth) (rest : List Event),
    let off := (a - s.params.regBase).toNat
    ¬(w = .w32 ∧ off % 4 = 0 ∧ off ≤ 0xFC) →
    (s.events = .regRead a w :: rest →
      step s = .next { s with
        faults := s.faults.add .badRegAccess, readData := freeRead s.draws, draws := s.draws + 1, events := rest }) ∧
    (s.events = .regWrite a w v :: rest →
      step s = .next { s with faults := s.faults.add .badRegAccess, events := rest })

/-- R67, R70, R71: a host read of 8, 16 or 32 bits returns the bytes that lie there as the block reads them, in the order
`ENDIAN` gives, zero-extended, and changes nothing; what a host write of any of these widths writes is what the next read of
that width returns. For an aligned access this is those rules; that a misaligned one, or one that wraps at 2^32, goes byte
by byte upward from its address is the model's choice (log 12), as is where the value read is kept (log 10). -/
def Obligations.HostWordsReadBack : Prop :=
  ∀ (s : State) (a v : Word) (w : Width) (rest : List Event),
    (s.events = .memRead a w :: rest → ∃ d : Word,
      step s = .next { s with readData := d, events := rest } ∧ (w = .w32 → d = s.readWord a) ∧
      d.toNat < 2 ^ (8 * w.bytes) ∧
      ∀ k : Nat, k < w.bytes →
        d.extractLsb' (8 * k) 8 = s.readByte (a + BitVec.ofNat 32 (byteIndex s.params.endian w.bytes k))) ∧
    (s.events = .memWrite a w v :: .memRead a w :: rest → ∃ t u,
      step s = .next t ∧ (w = .w32 → t.readWord a = v) ∧ step t = .next u ∧
      u.readData.toNat = v.toNat % 2 ^ (8 * w.bytes))

/-- R75, R241, R67: a host write of any width takes effect on its own bytes alone, as the block reads them: each takes the
byte of the value that `ENDIAN` puts there, and no other byte changes. It records HW_OWNED_WRITE exactly when it touches a
byte of a descriptor of the hardware partition, and no register changes. For an aligned access this is those rules; that a
misaligned one, one that straddles two words or one that wraps at 2^32 goes byte by byte upward from its address, and is
marked by any byte it touches, is the model's choice (log 12). -/
def Obligations.HostWritesTouchTheirBytesAlone : Prop :=
  ∀ (s : State) (a v : Word) (w : Width) (rest : List Event), s.events = .memWrite a w v :: rest →
    ∃ t, step s = .next t ∧ t.ring = s.ring ∧ t.args = s.args ∧ t.res = s.res ∧ t.params = s.params ∧ t.events = rest ∧
      (∀ k : Nat, k < w.bytes →
        t.readByte (a + BitVec.ofNat 32 (byteIndex s.params.endian w.bytes k)) = v.extractLsb' (8 * k) 8) ∧
      (∀ x : Word, (∀ k : Nat, k < w.bytes → x ≠ a + BitVec.ofNat 32 k) → t.readByte x = s.readByte x) ∧
      ((∃ k : Nat, k < w.bytes ∧ s.ring.hwOwned (a + BitVec.ofNat 32 k) = true) →
        t.faults = s.faults.add .hwOwnedWrite) ∧
      ((∀ k : Nat, k < w.bytes → s.ring.hwOwned (a + BitVec.ofNat 32 k) = false) → t.faults = s.faults)

/-- R67: a host byte write changes the byte of the word that ENDIAN selects and leaves the other three bytes. -/
def Obligations.HostByteWriteSelectsByEndian : Prop :=
  ∀ (s : State) (a v : Word) (k : Nat) (rest : List Event), a.toNat % 4 = 0 → k < 4 →
    s.events = .memWrite (a + BitVec.ofNat 32 k) .w8 v :: rest →
    ∃ t, step s = .next t ∧
      ∀ b : Nat, b < 32 →
        (t.readWord a).getLsbD b =
          if b / 8 = (match s.params.endian with | .little => k | .big => 3 - k) then v.getLsbD (b % 8)
          else (s.readWord a).getLsbD b

/-! ### The DMA agent and the cache (60_exceptions.md R244, 20_memory.md R78) -/

/-- R37, R244: in a sound ring the bytes the DMA agent owns are the eight bytes of each descriptor of part HW, and its steps
are enabled at exactly the two words of each. -/
def Obligations.DmaOwnsTheHardwareDescriptors : Prop :=
  ∀ (r : RingRegs) (a : Word), r.cap ≠ 0 → r.Sound →
    (r.hwOwned a = true ↔
      ∃ i, i < r.cap.toNat ∧ r.part i = .hw ∧ (r.ptr i).toNat ≤ a.toNat ∧ a.toNat < (r.ptr i).toNat + 8) ∧
    (r.dmaEnabled a = true ↔ ∃ i, i < r.cap.toNat ∧ r.part i = .hw ∧ ∃ j : Fin 2, a = wordAddr (r.ptr i) j)

/-- R37, R32: in a sound ring the descriptors from the post head upward are post-hardware, hardware, pre-hardware and free, as
many of each as its count says. -/
def Obligations.ArcsLieInRingOrder : Prop :=
  ∀ (r : RingRegs) (d : Nat), r.cap ≠ 0 → r.Sound → d < r.cap.toNat →
    r.part (r.idx (r.adv r.postHead d)) =
      if d < r.postCnt.toNat then .post
      else if d < r.postCnt.toNat + r.hwCnt.toNat then .hw
      else if d < r.postCnt.toNat + r.hwCnt.toNat + r.preCnt.toNat then .pre
      else .free

/-- R244: an enabled `DmaWrite` makes the word in memory the value and changes no other byte; one that is not enabled, and a
`DmaRead`, change nothing. (That a step which is not enabled passes without effect is the model's choice, log 6.) -/
def Obligations.DmaStepsWriteOneWord : Prop :=
  ∀ (s : State) (a v : Word) (rest : List Event),
    (s.events = .agent (.dmaWrite a v) :: rest → s.ring.dmaEnabled a = true →
      ∃ t, step s = .next t ∧ t = { s with mem := t.mem, events := rest } ∧ t.mem.word s.params.endian a = v ∧
        ∀ x : Word, x ≠ a → x ≠ a + 1 → x ≠ a + 2 → x ≠ a + 3 → t.mem.byte x.toNat = s.mem.byte x.toNat) ∧
    (s.events = .agent (.dmaWrite a v) :: rest → s.ring.dmaEnabled a = false →
      step s = .next { s with events := rest }) ∧
    (s.events = .agent (.dmaRead a) :: rest → step s = .next { s with events := rest })

/-- R76, R78 items 1 and 2, for the host's own cache maintenance: on a coherent platform it does nothing; on another, a clean
puts every dirty byte of the range in memory, and after an invalidate every byte of the range reads as memory holds it. The
model's choice (log 13), of which R78 says nothing: a clean leaves the bytes of the range marked as written back, and an
invalidate leaves memory as it is, dropping dirty bytes without a write-back; a range that runs past 2^32 ends there. -/
def Obligations.CacheMaintenance : Prop :=
  ∀ (s : State) (a n : Word) (rest : List Event), s.MemInv →
    (s.params.coherent = true → s.events = .cacheClean a n :: rest ∨ s.events = .cacheInval a n :: rest →
      step s = .next { s with events := rest }) ∧
    (s.params.coherent = false → s.events = .cacheClean a n :: rest →
      ∃ t, step s = .next t ∧ ∀ x : Nat, a.toNat ≤ x → x < a.toNat + n.toNat →
        (∀ c ∈ s.cache, c.addr = x → c.dirty = true → t.mem.byte x = c.byte) ∧
          ∀ c ∈ t.cache, c.addr = x → c.dirty = false) ∧
    (s.params.coherent = false → s.events = .cacheInval a n :: rest →
      ∃ t, step s = .next t ∧ t.mem = s.mem ∧
        ∀ x : Word, a.toNat ≤ x.toNat → x.toNat < a.toNat + n.toNat → t.readByte x = t.mem.byte x.toNat)

/-- R78 items 3 and 4, in the form of the model's cache (log 13): on a coherent platform the cache's own steps do nothing; on
another, none changes a register. A fill leaves memory and what every byte reads as, and from then on the cache holds the
word, so that a later DMA write there is not seen until an invalidate. An eviction drops a word of which no byte is dirty,
which then reads as memory holds it, and does nothing else. A write-back of a line with a dirty byte puts every byte of the
line that the cache holds in memory, clean ones too, which is how it overwrites a DMA write; no other byte of memory
changes, no byte reads otherwise, and nothing in the line is left to be written back. -/
def Obligations.TheCacheActsOnItsOwn : Prop :=
  ∀ (s : State) (a : Word) (rest : List Event), s.MemInv →
    (s.params.coherent = true →
      s.events = .agent (.cacheFill a) :: rest ∨ s.events = .agent (.cacheEvict a) :: rest ∨
        s.events = .agent (.cacheWriteBack a) :: rest →
      step s = .next { s with events := rest }) ∧
    (s.params.coherent = false → s.events = .agent (.cacheFill a) :: rest →
      ∃ t, step s = .next t ∧ t = { s with cache := t.cache, events := rest } ∧
        (∀ x : Word, t.readByte x = s.readByte x) ∧
        ∀ x : Word, cacheGet t.cache x.toNat =
          if sameWord a x.toNat then some (s.readByte x) else cacheGet s.cache x.toNat) ∧
    (s.params.coherent = false → s.events = .agent (.cacheEvict a) :: rest →
      ((∃ c ∈ s.cache, sameWord a c.addr = true ∧ c.dirty = true) → step s = .next { s with events := rest }) ∧
      ((∀ c ∈ s.cache, sameWord a c.addr = true → c.dirty = false) →
        ∃ t, step s = .next t ∧ t = { s with cache := t.cache, events := rest } ∧
          ∀ x : Word, t.readByte x = if sameWord a x.toNat then s.mem.byte x.toNat else s.readByte x)) ∧
    (s.params.coherent = false → s.events = .agent (.cacheWriteBack a) :: rest →
      let inLine := fun c : CacheByte => c.addr / s.params.cacheLine = a.toNat / s.params.cacheLine
      ((∀ c ∈ s.cache, inLine c → c.dirty = false) → step s = .next { s with events := rest }) ∧
      ((∃ c ∈ s.cache, inLine c ∧ c.dirty = true) →
        ∃ t, step s = .next t ∧ t = { s with mem := t.mem, cache := t.cache, events := rest } ∧
          (∀ c ∈ s.cache, inLine c → t.mem.byte c.addr = c.byte) ∧
          (∀ x : Nat, (∀ c ∈ s.cache, inLine c → c.addr ≠ x) → t.mem.byte x = s.mem.byte x) ∧
          (∀ x : Word, t.readByte x = s.readByte x) ∧ ∀ c ∈ t.cache, inLine c → c.dirty = false))

/-! ### Invariants of every step -/

/-- R30 to R36: the invariants of a created ring hold after every step from every state that has them, with legal parameters:
any access of the host, any command under any interleaving, any step of an agent, power-on reset. -/
def Obligations.EveryStepKeepsTheRingSound : Prop :=
  ∀ s t : State, s.RingInv → step s = .next t → t.RingInv

/-- R60: every step keeps memory and the cache in canonical form, every listed address in the 32-bit space. -/
def Obligations.EveryStepKeepsMemoryCanonical : Prop :=
  ∀ s t : State, s.MemInv → step s = .next t → t.MemInv

/-- The reset state has both invariants. -/
def Obligations.ResetMeetsTheInvariants : Prop :=
  State.reset.RingInv ∧ State.reset.MemInv

/-- R24, R241: no step but power-on reset removes a kind from `S.fault`; no step ever changes a parameter (R18). -/
def Obligations.FaultMarksStay : Prop :=
  ∀ s t : State, step s = .next t →
    t.params = s.params ∧
      (s.events.head? ≠ some .powerOnReset → ∀ k : HostFault, s.faults.has k = true → t.faults.has k = true)

/-- R20, R38: the ring registers change in no step but a `CMD` write (or power-on reset): the host can write none of them,
and neither can another agent. -/
def Obligations.OnlyCommandsWriteTheRing : Prop :=
  ∀ s t : State, step s = .next t → s.events.head? ≠ some .powerOnReset →
    (∀ (a v : Word) (w : RegWidth), s.events.head? = some (.regWrite a w v) → a ≠ s.params.regBase) →
    t.ring = s.ring

/-! ### A whole cycle -/

/-- Conflict C4, vector L1-4: on a coherent platform, on a sound, wholly free ring, ALLOC of `n`, SUBMIT of what it returned,
RECLAIM_TX with a limit of at least `n` once the set's last descriptor shows TX_LAST (and, with TX_USED_STOP, all show
TX_USED), and FREE of what that returned, with no other agent stepping inside: every command succeeds, every count is what
it was, each head has moved by `n`, the tail is the last submitted descriptor, and memory is as it was. -/
def Obligations.AFullCycleRotatesTheRing : Prop :=
  ∀ (s : State) (n limit : Word), s.RingInv → s.params.coherent = true → s.interleave = [] → s.ring.cap ≠ 0 →
    s.ring.freeCnt = s.ring.cap → 0 < n.toNat → n.toNat ≤ s.ring.cap.toNat → n.toNat ≤ limit.toNat →
    (s.readWord (wordAddr (s.ring.adv s.ring.freeHead (n.toNat - 1)) s.params.layout.txLast.word)).getLsbD
      s.params.layout.txLast.bit.val = true →
    (s.params.txUsedStop = true → ∀ k, k < n.toNat →
      (s.readWord (wordAddr (s.ring.adv s.ring.freeHead k) s.params.layout.txUsed.word)).getLsbD
        s.params.layout.txUsed.bit.val = true) →
    ∃ t1 t2 t3 t4,
      exec .alloc { s with args := { s.args with arg0 := n } } = .next t1 ∧ t1.res.code = .success ∧
      exec .submit { t1 with args := { t1.args with arg0 := n, arg1 := t1.res.ptr } } = .next t2 ∧
        t2.res.code = .success ∧
      exec .reclaimTx { t2 with args := { t2.args with arg0 := limit } } = .next t3 ∧ t3.res.code = .success ∧
        t3.res.count = n ∧
      exec .free { t3 with args := { t3.args with arg0 := t3.res.count, arg1 := t3.res.ptr } } = .next t4 ∧
        t4.res.code = .success ∧
      t4.ring = { s.ring with
        freeHead := s.ring.adv s.ring.freeHead n.toNat, preHead := s.ring.adv s.ring.preHead n.toNat
        hwHead := s.ring.adv s.ring.hwHead n.toNat, postHead := s.ring.adv s.ring.postHead n.toNat
        hwTail := s.ring.adv s.ring.freeHead (n.toNat - 1) } ∧
      t4.mem = s.mem
end

