-- ==== Sys2Proof/Laws/Memory.lean ====
section
/-! SUPPORT. Memory and the cache as data: reading after writing, and the canonical form that every operation keeps. -/

namespace Sys2Proof.Machine
open Sys2Proof.Config

@[simp] theorem Memory.get_nil (a : Nat) : Memory.get [] a = none := rfl

theorem Memory.get_put_same (m : Memory) (a : Nat) (b : Byte) : (m.put a b).get a = some b := by
  induction m with
  | nil => simp [Memory.put, Memory.get]
  | cons c m ih =>
    obtain ⟨x, y⟩ := c
    simp only [Memory.put]
    split
    · simp [Memory.get]
    · split
      · simp [Memory.get]
      · rename_i h1 h2
        simp [Memory.get, ih, show ¬ x = a by omega]

theorem Memory.get_put_other (m : Memory) {a x : Nat} (b : Byte) (h : x ≠ a) : (m.put a b).get x = m.get x := by
  induction m with
  | nil => simp [Memory.put, Memory.get, Ne.symm h]
  | cons c m ih =>
    obtain ⟨y, v⟩ := c
    simp only [Memory.put]
    split
    · simp [Memory.get, Ne.symm h]
    · split
      · subst_vars; simp [Memory.get, Ne.symm h]
      · simp [Memory.get, ih]

@[simp] theorem Memory.byte_put_same (m : Memory) (a : Nat) (b : Byte) : (m.put a b).byte a = b := by
  simp [Memory.byte, Memory.get_put_same]

theorem Memory.byte_put_other (m : Memory) {a x : Nat} (b : Byte) (h : x ≠ a) : (m.put a b).byte x = m.byte x := by
  simp [Memory.byte, Memory.get_put_other m b h]

theorem Memory.byte_put (m : Memory) (a x : Nat) (b : Byte) :
    (m.put a b).byte x = if x = a then b else m.byte x := by
  split
  · subst_vars; simp
  · exact Memory.byte_put_other m b ‹_›

/-- A write keeps the addresses rising. -/
theorem Memory.rising_put (m : Memory) (lo a : Nat) (b : Byte) (h : m.rising lo = true) (hlo : lo ≤ a)
    (ha : a < 2 ^ 32) : (m.put a b).rising lo = true := by
  induction m generalizing lo with
  | nil => simp [Memory.put, Memory.rising, hlo]; omega
  | cons c m ih =>
    obtain ⟨x, y⟩ := c
    simp only [Memory.rising, Bool.and_eq_true, decide_eq_true_eq] at h
    obtain ⟨⟨h1, h2⟩, h3⟩ := h
    simp only [Memory.put]
    split
    · simp only [Memory.rising, Bool.and_eq_true, decide_eq_true_eq]
      exact ⟨⟨hlo, ha⟩, ⟨by omega, h2⟩, h3⟩
    · split
      · subst_vars; simp only [Memory.rising, Bool.and_eq_true, decide_eq_true_eq]; exact ⟨⟨hlo, ha⟩, h3⟩
      · simp only [Memory.rising, Bool.and_eq_true, decide_eq_true_eq]
        exact ⟨⟨h1, h2⟩, ih _ h3 (by omega)⟩

/-- A write of a byte of the 32-bit space keeps the canonical form. -/
theorem Memory.wf_put (m : Memory) (a : Word) (b : Byte) (h : m.wf = true) : (m.put a.toNat b).wf = true :=
  Memory.rising_put m 0 a.toNat b h (Nat.zero_le _) a.isLt

theorem Memory.wf_put_nat (m : Memory) {a : Nat} (b : Byte) (h : m.wf = true) (ha : a < 2 ^ 32) :
    (m.put a b).wf = true :=
  Memory.rising_put m 0 a b h (Nat.zero_le _) ha

/-- A word's write keeps the canonical form. -/
theorem Memory.wf_putWord (e : Endian) (m : Memory) (a v : Word) (h : m.wf = true) :
    (m.putWord e a v).wf = true :=
  Memory.wf_put _ _ _ (Memory.wf_put _ _ _ (Memory.wf_put _ _ _ (Memory.wf_put _ _ _ h)))

/-! ### Words and their bytes (R67) -/

/-- A word is the word of its bytes, in either byte order. -/
theorem wordOfBytes_byteOfWord (e : Endian) (v : Word) :
    wordOfBytes e (byteOfWord e v 0) (byteOfWord e v 1) (byteOfWord e v 2) (byteOfWord e v 3) = v := by
  cases e
  all_goals
    simp only [wordOfBytes, byteOfWord]
    apply BitVec.eq_of_getLsbD_eq
    intro i hi
    simp only [BitVec.getLsbD_append, BitVec.getLsbD_extractLsb']
    have h0 : ((0 : Fin 4) : Nat) = 0 := rfl
    have h1 : ((1 : Fin 4) : Nat) = 1 := rfl
    have h2 : ((2 : Fin 4) : Nat) = 2 := rfl
    have h3 : ((3 : Fin 4) : Nat) = 3 := rfl
    rw [h0, h1, h2, h3]
    repeat' split
    all_goals
      rw [decide_eq_true (by omega), Bool.true_and]
      congr 1
      omega

/-! ### The cache -/

theorem cacheGet_put (cs : List CacheByte) (b : CacheByte) (x : Nat) :
    cacheGet (cachePut cs b) x = if x = b.addr then some b.byte else cacheGet cs x := by
  induction cs with
  | nil => simp [cachePut, cacheGet, eq_comm]
  | cons c cs ih =>
    simp only [cachePut]
    split
    · simp [cacheGet, eq_comm]
    · split
      · rename_i h
        simp only [cacheGet]
        by_cases hx : x = b.addr
        · simp [hx]
        · simp [hx, ← h, Ne.symm hx]
      · rename_i h1 h2
        simp only [cacheGet, ih]
        by_cases hx : x = b.addr
        · simp [hx, show ¬ c.addr = b.addr by omega]
        · simp [hx]

theorem cacheRising_mono {lo lo' : Nat} {cs : List CacheByte} (h : cacheRising lo cs = true) (hl : lo' ≤ lo) :
    cacheRising lo' cs = true := by
  cases cs with
  | nil => rfl
  | cons c cs =>
    simp only [cacheRising, Bool.and_eq_true, decide_eq_true_eq] at h ⊢
    exact ⟨⟨by omega, h.1.2⟩, h.2⟩

theorem cacheRising_put (cs : List CacheByte) (lo : Nat) (b : CacheByte) (h : cacheRising lo cs = true)
    (hlo : lo ≤ b.addr) (hb : b.addr < 2 ^ 32) : cacheRising lo (cachePut cs b) = true := by
  induction cs generalizing lo with
  | nil => simp [cachePut, cacheRising, hlo]; omega
  | cons c cs ih =>
    simp only [cacheRising, Bool.and_eq_true, decide_eq_true_eq] at h
    obtain ⟨⟨h1, h2⟩, h3⟩ := h
    simp only [cachePut]
    split
    · simp only [cacheRising, Bool.and_eq_true, decide_eq_true_eq]
      exact ⟨⟨hlo, hb⟩, ⟨by omega, h2⟩, h3⟩
    · split
      · rename_i h4
        simp only [cacheRising, Bool.and_eq_true, decide_eq_true_eq, h4]
        exact ⟨⟨h1, h2⟩, h3⟩
      · simp only [cacheRising, Bool.and_eq_true, decide_eq_true_eq]
        exact ⟨⟨h1, h2⟩, ih _ h3 (by omega)⟩

/-- A byte of the 32-bit space put into the cache keeps its canonical form. -/
theorem cacheWf_put (cs : List CacheByte) (b : CacheByte) (h : cacheWf cs = true) (hb : b.addr < 2 ^ 32) :
    cacheWf (cachePut cs b) = true :=
  cacheRising_put cs 0 b h (Nat.zero_le _) hb

theorem cacheWf_fillByte (m : Memory) (cs : List CacheByte) (x : Nat) (h : cacheWf cs = true) (hx : x < 2 ^ 32) :
    cacheWf (cacheFillByte m cs x) = true := by
  unfold cacheFillByte
  split
  · exact h
  · exact cacheWf_put _ _ h hx

/-- Taking a word in keeps the cache's canonical form. -/
theorem cacheWf_fillWord (m : Memory) (cs : List CacheByte) (a : Word) (h : cacheWf cs = true) :
    cacheWf (cacheFillWord m cs a) = true := by
  have := a.isLt
  unfold cacheFillWord
  exact cacheWf_fillByte _ _ _ (cacheWf_fillByte _ _ _ (cacheWf_fillByte _ _ _ (cacheWf_fillByte _ _ _ h
    (by omega)) (by omega)) (by omega)) (by omega)

theorem cacheRising_markClean (p : Nat → Bool) (cs : List CacheByte) (lo : Nat) :
    cacheRising lo (cacheMarkClean p cs) = cacheRising lo cs := by
  induction cs generalizing lo with
  | nil => rfl
  | cons c cs ih =>
    unfold cacheMarkClean at *
    simp only [List.map_cons, cacheRising]
    have : (if p c.addr = true then { c with dirty := false } else c : CacheByte).addr = c.addr := by split <;> rfl
    rw [this, ih]

theorem cacheWf_markClean (p : Nat → Bool) (cs : List CacheByte) (h : cacheWf cs = true) :
    cacheWf (cacheMarkClean p cs) = true := by
  unfold cacheWf; rw [cacheRising_markClean]; exact h

theorem cacheRising_drop (p : Nat → Bool) (cs : List CacheByte) (lo : Nat) (h : cacheRising lo cs = true) :
    cacheRising lo (cacheDrop p cs) = true := by
  induction cs generalizing lo with
  | nil => rfl
  | cons c cs ih =>
    simp only [cacheRising, Bool.and_eq_true, decide_eq_true_eq] at h
    have h3 := ih _ h.2
    unfold cacheDrop at *
    rw [List.filter_cons]
    split
    · simp only [cacheRising, Bool.and_eq_true, decide_eq_true_eq]; exact ⟨h.1, h3⟩
    · exact cacheRising_mono h3 (by omega)

theorem cacheWf_drop (p : Nat → Bool) (cs : List CacheByte) (h : cacheWf cs = true) :
    cacheWf (cacheDrop p cs) = true :=
  cacheRising_drop p cs 0 h

/-- Writing cached bytes back keeps memory's canonical form. -/
theorem Memory.wf_flush (q : CacheByte → Bool) (cs : List CacheByte) (lo : Nat) (m : Memory)
    (hc : cacheRising lo cs = true) (h : m.wf = true) : (cacheFlush q cs m).wf = true := by
  induction cs generalizing lo m with
  | nil => exact h
  | cons c cs ih =>
    simp only [cacheRising, Bool.and_eq_true, decide_eq_true_eq] at hc
    simp only [cacheFlush]
    apply ih _ _ hc.2
    split
    · exact Memory.wf_put_nat _ _ h hc.1.2
    · exact h

theorem cacheGet_drop (p : Nat → Bool) (cs : List CacheByte) (x : Nat) :
    cacheGet (cacheDrop p cs) x = if p x then none else cacheGet cs x := by
  induction cs with
  | nil => simp [cacheDrop, cacheGet]
  | cons c cs ih =>
    unfold cacheDrop at *
    rw [List.filter_cons]
    by_cases hx : c.addr = x
    · subst hx
      by_cases hp : p c.addr = true
      · simp [hp, ih]
      · simp [hp, cacheGet]
    · split
      · simp [cacheGet, hx, ih]
      · simp [cacheGet, hx, ih]

theorem cacheGet_markClean (p : Nat → Bool) (cs : List CacheByte) (x : Nat) :
    cacheGet (cacheMarkClean p cs) x = cacheGet cs x := by
  induction cs with
  | nil => rfl
  | cons c cs ih =>
    unfold cacheMarkClean at *
    simp only [List.map_cons, cacheGet]
    have h1 : (if p c.addr = true then { c with dirty := false } else c : CacheByte).addr = c.addr := by
      split <;> rfl
    have h2 : (if p c.addr = true then { c with dirty := false } else c : CacheByte).byte = c.byte := by
      split <;> rfl
    rw [h1, h2, ih]

/-- The cache after it has taken in a byte: that byte as the block reads it, the others as before. -/
theorem cacheGet_fillByte_eq (m : Memory) (cs : List CacheByte) (x y : Nat) :
    cacheGet (cacheFillByte m cs x) y =
      if y = x then some ((cacheGet cs y).getD (m.byte y)) else cacheGet cs y := by
  unfold cacheFillByte
  split
  · split
    · rename_i h e
      subst e
      rw [h]
      rfl
    · rfl
  · rename_i h
    rw [cacheGet_put]
    split
    · rename_i e
      subst e
      rw [h]
      rfl
    · rfl

/-- The cache after it has taken in a word: its bytes as the block reads them, the others as before. -/
theorem cacheGet_fillWord_eq (m : Memory) (cs : List CacheByte) (a : Word) (y : Nat) :
    cacheGet (cacheFillWord m cs a) y =
      if sameWord a y then some ((cacheGet cs y).getD (m.byte y)) else cacheGet cs y := by
  simp only [cacheFillWord, sameWord, decide_eq_true_eq]
  generalize a.toNat / 4 = q
  have h : y / 4 = q ↔ y = q * 4 ∨ y = q * 4 + 1 ∨ y = q * 4 + 2 ∨ y = q * 4 + 3 := by omega
  by_cases hy : y / 4 = q
  · rw [if_pos hy]
    rcases h.1 hy with rfl | rfl | rfl | rfl <;> simp [cacheGet_fillByte_eq]
  · have hn := mt h.2 hy
    simp only [not_or] at hn
    simp [cacheGet_fillByte_eq, hn, hy]

/-- Taking in a word changes no byte that is read. -/
theorem cacheGet_fillWord (m : Memory) (cs : List CacheByte) (a : Word) (y : Nat) :
    (cacheGet (cacheFillWord m cs a) y).getD (m.byte y) = (cacheGet cs y).getD (m.byte y) := by
  rw [cacheGet_fillWord_eq]
  split <;> rfl

/-- What writing cached bytes back leaves in memory where no picked byte is. -/
theorem Memory.byte_flush_other (q : CacheByte → Bool) (cs : List CacheByte) (m : Memory) (x : Nat)
    (h : ∀ c ∈ cs, q c = true → c.addr ≠ x) : (cacheFlush q cs m).byte x = m.byte x := by
  induction cs generalizing m with
  | nil => rfl
  | cons c cs ih =>
    simp only [cacheFlush]
    rw [ih _ (fun d hd => h d (List.mem_cons_of_mem _ hd))]
    split
    · rw [Memory.byte_put_other _ _ (Ne.symm (h c List.mem_cons_self ‹_›))]
    · rfl

theorem cacheRising_addr {lo : Nat} {cs : List CacheByte} (h : cacheRising lo cs = true) (c : CacheByte)
    (hc : c ∈ cs) : lo ≤ c.addr := by
  induction cs generalizing lo with
  | nil => cases hc
  | cons d cs ih =>
    simp only [cacheRising, Bool.and_eq_true, decide_eq_true_eq] at h
    cases hc with
    | head => exact h.1.1
    | tail _ hc => have := ih h.2 hc; omega

/-- A picked byte of a canonical cache is in memory after it is written back. -/
theorem Memory.byte_flush (q : CacheByte → Bool) (cs : List CacheByte) (lo : Nat) (m : Memory)
    (hc : cacheRising lo cs = true) (c : CacheByte) (hm : c ∈ cs) (hq : q c = true) :
    (cacheFlush q cs m).byte c.addr = c.byte := by
  induction cs generalizing lo m with
  | nil => cases hm
  | cons d cs ih =>
    simp only [cacheRising, Bool.and_eq_true, decide_eq_true_eq] at hc
    simp only [cacheFlush]
    cases hm with
    | head =>
      rw [Memory.byte_flush_other, if_pos hq, Memory.byte_put_same]
      intro e he _
      have := cacheRising_addr hc.2 e he
      omega
    | tail _ hm => exact ih _ _ hc.2 hm

end Sys2Proof.Machine
end

