-- ==== Sys2Proof/Laws/State.lean ====
section
/-! SUPPORT. One lemma per field of `State` for each named update, and the relation "differs in memory only". -/

namespace Sys2Proof.Machine

@[simp] theorem State.withRing_params (s : State) (r : RingRegs) :
    (s.withRing r).params = s.params := rfl
@[simp] theorem State.withRing_ring (s : State) (r : RingRegs) :
    (s.withRing r).ring = r := rfl
@[simp] theorem State.withRing_args (s : State) (r : RingRegs) :
    (s.withRing r).args = s.args := rfl
@[simp] theorem State.withRing_res (s : State) (r : RingRegs) :
    (s.withRing r).res = s.res := rfl
@[simp] theorem State.withRing_faults (s : State) (r : RingRegs) :
    (s.withRing r).faults = s.faults := rfl
@[simp] theorem State.withRing_mem (s : State) (r : RingRegs) :
    (s.withRing r).mem = s.mem := rfl
@[simp] theorem State.withRing_cache (s : State) (r : RingRegs) :
    (s.withRing r).cache = s.cache := rfl
@[simp] theorem State.withRing_ringWritten (s : State) (r : RingRegs) :
    (s.withRing r).ringWritten = s.ringWritten := rfl
@[simp] theorem State.withRing_readData (s : State) (r : RingRegs) :
    (s.withRing r).readData = s.readData := rfl
@[simp] theorem State.withRing_draws (s : State) (r : RingRegs) :
    (s.withRing r).draws = s.draws := rfl
@[simp] theorem State.withRing_interleave (s : State) (r : RingRegs) :
    (s.withRing r).interleave = s.interleave := rfl
@[simp] theorem State.withRing_events (s : State) (r : RingRegs) :
    (s.withRing r).events = s.events := rfl

@[simp] theorem State.withRes_params (s : State) (c : ResultCode) (p k : Word) :
    (s.withRes c p k).params = s.params := rfl
@[simp] theorem State.withRes_ring (s : State) (c : ResultCode) (p k : Word) :
    (s.withRes c p k).ring = s.ring := rfl
@[simp] theorem State.withRes_args (s : State) (c : ResultCode) (p k : Word) :
    (s.withRes c p k).args = s.args := rfl
@[simp] theorem State.withRes_res (s : State) (c : ResultCode) (p k : Word) :
    (s.withRes c p k).res = { code := c, ptr := p, count := k } := rfl
@[simp] theorem State.withRes_faults (s : State) (c : ResultCode) (p k : Word) :
    (s.withRes c p k).faults = s.faults := rfl
@[simp] theorem State.withRes_mem (s : State) (c : ResultCode) (p k : Word) :
    (s.withRes c p k).mem = s.mem := rfl
@[simp] theorem State.withRes_cache (s : State) (c : ResultCode) (p k : Word) :
    (s.withRes c p k).cache = s.cache := rfl
@[simp] theorem State.withRes_ringWritten (s : State) (c : ResultCode) (p k : Word) :
    (s.withRes c p k).ringWritten = s.ringWritten := rfl
@[simp] theorem State.withRes_readData (s : State) (c : ResultCode) (p k : Word) :
    (s.withRes c p k).readData = s.readData := rfl
@[simp] theorem State.withRes_draws (s : State) (c : ResultCode) (p k : Word) :
    (s.withRes c p k).draws = s.draws := rfl
@[simp] theorem State.withRes_interleave (s : State) (c : ResultCode) (p k : Word) :
    (s.withRes c p k).interleave = s.interleave := rfl
@[simp] theorem State.withRes_events (s : State) (c : ResultCode) (p k : Word) :
    (s.withRes c p k).events = s.events := rfl

@[simp] theorem State.withMem_params (s : State) (m : Memory) (cs : List CacheByte) :
    (s.withMem m cs).params = s.params := rfl
@[simp] theorem State.withMem_ring (s : State) (m : Memory) (cs : List CacheByte) :
    (s.withMem m cs).ring = s.ring := rfl
@[simp] theorem State.withMem_args (s : State) (m : Memory) (cs : List CacheByte) :
    (s.withMem m cs).args = s.args := rfl
@[simp] theorem State.withMem_res (s : State) (m : Memory) (cs : List CacheByte) :
    (s.withMem m cs).res = s.res := rfl
@[simp] theorem State.withMem_faults (s : State) (m : Memory) (cs : List CacheByte) :
    (s.withMem m cs).faults = s.faults := rfl
@[simp] theorem State.withMem_mem (s : State) (m : Memory) (cs : List CacheByte) :
    (s.withMem m cs).mem = m := rfl
@[simp] theorem State.withMem_cache (s : State) (m : Memory) (cs : List CacheByte) :
    (s.withMem m cs).cache = cs := rfl
@[simp] theorem State.withMem_ringWritten (s : State) (m : Memory) (cs : List CacheByte) :
    (s.withMem m cs).ringWritten = s.ringWritten := rfl
@[simp] theorem State.withMem_readData (s : State) (m : Memory) (cs : List CacheByte) :
    (s.withMem m cs).readData = s.readData := rfl
@[simp] theorem State.withMem_draws (s : State) (m : Memory) (cs : List CacheByte) :
    (s.withMem m cs).draws = s.draws := rfl
@[simp] theorem State.withMem_interleave (s : State) (m : Memory) (cs : List CacheByte) :
    (s.withMem m cs).interleave = s.interleave := rfl
@[simp] theorem State.withMem_events (s : State) (m : Memory) (cs : List CacheByte) :
    (s.withMem m cs).events = s.events := rfl

@[simp] theorem State.raiseHostFault_params (s : State) (k : HostFault) :
    (s.raiseHostFault k).params = s.params := rfl
@[simp] theorem State.raiseHostFault_ring (s : State) (k : HostFault) :
    (s.raiseHostFault k).ring = s.ring := rfl
@[simp] theorem State.raiseHostFault_args (s : State) (k : HostFault) :
    (s.raiseHostFault k).args = s.args := rfl
@[simp] theorem State.raiseHostFault_res (s : State) (k : HostFault) :
    (s.raiseHostFault k).res = s.res := rfl
@[simp] theorem State.raiseHostFault_faults (s : State) (k : HostFault) :
    (s.raiseHostFault k).faults = s.faults.add k := rfl
@[simp] theorem State.raiseHostFault_mem (s : State) (k : HostFault) :
    (s.raiseHostFault k).mem = s.mem := rfl
@[simp] theorem State.raiseHostFault_cache (s : State) (k : HostFault) :
    (s.raiseHostFault k).cache = s.cache := rfl
@[simp] theorem State.raiseHostFault_ringWritten (s : State) (k : HostFault) :
    (s.raiseHostFault k).ringWritten = s.ringWritten := rfl
@[simp] theorem State.raiseHostFault_readData (s : State) (k : HostFault) :
    (s.raiseHostFault k).readData = s.readData := rfl
@[simp] theorem State.raiseHostFault_draws (s : State) (k : HostFault) :
    (s.raiseHostFault k).draws = s.draws := rfl
@[simp] theorem State.raiseHostFault_interleave (s : State) (k : HostFault) :
    (s.raiseHostFault k).interleave = s.interleave := rfl
@[simp] theorem State.raiseHostFault_events (s : State) (k : HostFault) :
    (s.raiseHostFault k).events = s.events := rfl

/-- `t` differs from `s` in no more than memory, the cache, and what is still to come of the agents' script: what the
memory events of a command can do to the machine. -/
structure State.MemOnly (s t : State) : Prop where
  params : t.params = s.params
  ring : t.ring = s.ring
  args : t.args = s.args
  res : t.res = s.res
  faults : t.faults = s.faults
  ringWritten : t.ringWritten = s.ringWritten
  readData : t.readData = s.readData
  draws : t.draws = s.draws
  events : t.events = s.events

theorem State.MemOnly.refl (s : State) : s.MemOnly s := ⟨rfl, rfl, rfl, rfl, rfl, rfl, rfl, rfl, rfl⟩

theorem State.MemOnly.trans {s t u : State} (h : s.MemOnly t) (h' : t.MemOnly u) : s.MemOnly u :=
  ⟨h'.1.trans h.1, h'.2.trans h.2, h'.3.trans h.3, h'.4.trans h.4, h'.5.trans h.5, h'.6.trans h.6, h'.7.trans h.7,
    h'.8.trans h.8, h'.9.trans h.9⟩

theorem State.MemOnly.eq {s t : State} (h : s.MemOnly t) :
    t = { s with mem := t.mem, cache := t.cache, interleave := t.interleave } := by
  obtain ⟨h1, h2, h3, h4, h5, h6, h7, h8, h9⟩ := h
  cases s; cases t; simp_all

theorem State.memOnly_withMem (s : State) (m : Memory) (cs : List CacheByte) : s.MemOnly (s.withMem m cs) :=
  ⟨rfl, rfl, rfl, rfl, rfl, rfl, rfl, rfl, rfl⟩

end Sys2Proof.Machine
end

