-- ==== Sys2Proof/Laws/Ops.lean ====
section
/-! SUPPORT. What each shared operation can do, said once: which fields it touches, that it keeps the canonical forms, and
what a read returns after it. -/

namespace Sys2Proof.Machine
open Sys2Proof.Config

/-! ### The view (R78) -/

/-- The view of a byte in one expression. -/
theorem State.readByte_eq (s : State) (a : Word) :
    s.readByte a = if s.params.coherent then s.mem.byte a.toNat
      else (cacheGet s.cache a.toNat).getD (s.mem.byte a.toNat) := by
  unfold State.readByte
  split
  · rfl
  · cases cacheGet s.cache a.toNat <;> rfl

/-- A read after a write of one byte, in either configuration. -/
theorem State.readByte_writeByte (s : State) (a x : Word) (b : Byte) :
    (s.writeByte a b).readByte x = if x = a then b else s.readByte x := by
  have hx : x.toNat = a.toNat ↔ x = a := BitVec.toNat_inj
  rw [State.readByte_eq, State.readByte_eq]
  unfold State.writeByte
  cases hco : s.params.coherent
  · simp only [Bool.false_eq_true, if_false, State.withMem_params, State.withMem_cache, State.withMem_mem, hco,
      cacheGet_put]
    by_cases h : x = a
    · simp [h]
    · simp [h, mt hx.1 h, cacheGet_fillWord]
  · simp only [if_true, State.withMem_params, State.withMem_mem, hco, Memory.byte_put, hx]

theorem State.memOnly_writeByte (s : State) (a : Word) (b : Byte) : s.MemOnly (s.writeByte a b) := by
  unfold State.writeByte
  split <;> exact State.memOnly_withMem _ _ _

@[simp] theorem State.writeByte_interleave (s : State) (a : Word) (b : Byte) :
    (s.writeByte a b).interleave = s.interleave := by
  unfold State.writeByte
  split <;> rfl

theorem State.memInv_writeByte (s : State) (a : Word) (b : Byte) (h : s.mem.wf = true ∧ cacheWf s.cache = true) :
    (s.writeByte a b).mem.wf = true ∧ cacheWf (s.writeByte a b).cache = true := by
  unfold State.writeByte
  split
  · exact ⟨Memory.wf_put _ _ _ h.1, h.2⟩
  · exact ⟨h.1, cacheWf_put _ _ (cacheWf_fillWord _ _ _ h.2) a.isLt⟩

theorem State.memOnly_writeWord (s : State) (a v : Word) : s.MemOnly (s.writeWord a v) :=
  (((State.memOnly_writeByte _ _ _).trans (State.memOnly_writeByte _ _ _)).trans
    (State.memOnly_writeByte _ _ _)).trans (State.memOnly_writeByte _ _ _)

@[simp] theorem State.writeWord_interleave (s : State) (a v : Word) : (s.writeWord a v).interleave = s.interleave := by
  simp [State.writeWord]

theorem State.memInv_writeWord (s : State) (a v : Word) (h : s.mem.wf = true ∧ cacheWf s.cache = true) :
    (s.writeWord a v).mem.wf = true ∧ cacheWf (s.writeWord a v).cache = true :=
  State.memInv_writeByte _ _ _ (State.memInv_writeByte _ _ _ (State.memInv_writeByte _ _ _
    (State.memInv_writeByte _ _ _ h)))

/-- A byte read after a word's write. -/
theorem State.readByte_writeWord (s : State) (a v x : Word) :
    (s.writeWord a v).readByte x =
      if x = a + 3 then byteOfWord s.params.endian v 3 else
      if x = a + 2 then byteOfWord s.params.endian v 2 else
      if x = a + 1 then byteOfWord s.params.endian v 1 else
      if x = a then byteOfWord s.params.endian v 0 else s.readByte x := by
  simp only [State.writeWord, State.readByte_writeByte]

/-- A word read after it was written, in either configuration and byte order (R70). -/
@[simp] theorem State.readWord_writeWord (s : State) (a v : Word) : (s.writeWord a v).readWord a = v := by
  have hp : (s.writeWord a v).params = s.params := (s.memOnly_writeWord a v).params
  unfold State.readWord
  rw [hp]
  simp only [State.readByte_writeWord]
  have e1 : a ≠ a + 3 := by bv_omega
  have e2 : a ≠ a + 2 := by bv_omega
  have e3 : a ≠ a + 1 := by bv_omega
  have e4 : a + 1 ≠ a + 3 := by bv_omega
  have e5 : a + 1 ≠ a + 2 := by bv_omega
  have e6 : a + 2 ≠ a + 3 := by bv_omega
  simp only [e1, e2, e3, e4, e5, e6, if_true, if_false, wordOfBytes_byteOfWord]

/-- A byte outside the aligned word written is read as before. -/
theorem State.readByte_writeWord_other (s : State) (a v x : Word) (ha : a.toNat % 4 = 0)
    (hx : x.toNat / 4 ≠ a.toNat / 4) : (s.writeWord a v).readByte x = s.readByte x := by
  rw [State.readByte_writeWord]
  have e1 : x ≠ a + 3 := by rintro rfl; bv_omega
  have e2 : x ≠ a + 2 := by rintro rfl; bv_omega
  have e3 : x ≠ a + 1 := by rintro rfl; bv_omega
  have e4 : x ≠ a := by rintro rfl; omega
  simp only [e1, e2, e3, e4, if_false]

/-- A word other than the aligned word written is read as before. -/
theorem State.readWord_congr {s t : State} (hp : t.params = s.params) (b : Word) (hb : b.toNat % 4 = 0)
    (h : ∀ x : Word, x.toNat / 4 = b.toNat / 4 → t.readByte x = s.readByte x) : t.readWord b = s.readWord b := by
  unfold State.readWord
  rw [hp, h b rfl, h (b + 1) (by bv_omega), h (b + 2) (by bv_omega), h (b + 3) (by bv_omega)]

/-! ### Agents -/

theorem memOnly_runAgentStep (t : AgentStep) (s : State) : s.MemOnly (runAgentStep t s) := by
  cases t
  all_goals
    simp only [runAgentStep]
    repeat' split
    all_goals exact ⟨rfl, rfl, rfl, rfl, rfl, rfl, rfl, rfl, rfl⟩

@[simp] theorem runAgentStep_interleave (t : AgentStep) (s : State) :
    (runAgentStep t s).interleave = s.interleave := by
  cases t
  all_goals
    simp only [runAgentStep]
    repeat' split
    all_goals rfl

theorem memInv_runAgentStep (t : AgentStep) (s : State) (h : s.mem.wf = true ∧ cacheWf s.cache = true) :
    (runAgentStep t s).mem.wf = true ∧ cacheWf (runAgentStep t s).cache = true := by
  cases t
  all_goals
    simp only [runAgentStep]
    repeat' split
    all_goals first
      | exact h
      | exact ⟨Memory.wf_putWord _ _ _ _ h.1, h.2⟩
      | exact ⟨h.1, cacheWf_fillWord _ _ _ h.2⟩
      | exact ⟨h.1, cacheWf_drop _ _ h.2⟩
      | exact ⟨Memory.wf_flush _ _ 0 _ h.2 h.1, cacheWf_markClean _ _ h.2⟩

theorem memOnly_runAgentSteps (ts : List AgentStep) (s : State) : s.MemOnly (runAgentSteps ts s) := by
  induction ts generalizing s with
  | nil => exact State.MemOnly.refl s
  | cons t ts ih => exact (memOnly_runAgentStep t s).trans (ih _)

theorem memInv_runAgentSteps (ts : List AgentStep) (s : State) (h : s.mem.wf = true ∧ cacheWf s.cache = true) :
    (runAgentSteps ts s).mem.wf = true ∧ cacheWf (runAgentSteps ts s).cache = true := by
  induction ts generalizing s with
  | nil => exact h
  | cons t ts ih => exact ih _ (memInv_runAgentStep t s h)

@[simp] theorem runAgentSteps_interleave (ts : List AgentStep) (s : State) :
    (runAgentSteps ts s).interleave = s.interleave := by
  induction ts generalizing s with
  | nil => rfl
  | cons t ts ih => simp [runAgentSteps, ih]

theorem memOnly_agentTurn (s : State) : s.MemOnly (agentTurn s) := by
  unfold agentTurn
  split
  · exact State.MemOnly.refl s
  · rename_i ts rest _
    have h : s.MemOnly { s with interleave := rest } := ⟨rfl, rfl, rfl, rfl, rfl, rfl, rfl, rfl, rfl⟩
    exact h.trans (memOnly_runAgentSteps _ _)

theorem memInv_agentTurn (s : State) (h : s.mem.wf = true ∧ cacheWf s.cache = true) :
    (agentTurn s).mem.wf = true ∧ cacheWf (agentTurn s).cache = true := by
  unfold agentTurn
  split
  · exact h
  · exact memInv_runAgentSteps _ _ h

/-- With nothing in the script, no step falls between two events. -/
@[simp] theorem agentTurn_of_empty {s : State} (h : s.interleave = []) : agentTurn s = s := by
  unfold agentTurn
  rw [h]

end Sys2Proof.Machine
end

