-- ==== Sys2Proof/Laws/Ring.lean ====
section
/-! SUPPORT. Ring pointer arithmetic (R12) on the pointers of a ring that does not wrap: what `ptr`, `idx`, `adv` and
`back` are to each other. -/

namespace Sys2Proof.Machine
open Sys2Proof.Config

/-- What pointer arithmetic needs of a ring: descriptors, a stride, and a region inside the address space. -/
structure RingRegs.Geo (r : RingRegs) : Prop where
  cap : 0 < r.cap.toNat
  stride : 0 < r.stride.toNat
  noWrap : r.base.toNat + r.cap.toNat * r.stride.toNat ≤ 2 ^ 32

theorem RingRegs.cap_pos {r : RingRegs} (h : r.cap ≠ 0) : 0 < r.cap.toNat := by
  rcases Nat.eq_zero_or_pos r.cap.toNat with h0 | h0
  · exact absurd (BitVec.eq_of_toNat_eq (by simpa using h0)) h
  · exact h0

theorem RingRegs.Sound.stride_ge {r : RingRegs} (h : r.Sound) : 8 ≤ r.stride.toNat := by
  obtain ⟨k, hk, he⟩ := h.stride
  rw [he]
  exact Nat.pow_le_pow_right (n := 2) (by omega) hk

theorem RingRegs.Sound.stride_mod {r : RingRegs} (h : r.Sound) : r.stride.toNat % 8 = 0 := by
  obtain ⟨k, hk, he⟩ := h.stride
  rw [he]
  exact Nat.mod_eq_zero_of_dvd (Nat.pow_dvd_pow 2 hk)

theorem RingRegs.Sound.geo {r : RingRegs} (h : r.Sound) (hc : r.cap ≠ 0) : r.Geo :=
  ⟨RingRegs.cap_pos hc, by have := h.stride_ge; omega, h.noWrap⟩

theorem RingRegs.slot_le (r : RingRegs) {i : Nat} (hi : i < r.cap.toNat) :
    i * r.stride.toNat + r.stride.toNat ≤ r.cap.toNat * r.stride.toNat := by
  have := Nat.mul_le_mul_right r.stride.toNat (show i + 1 ≤ r.cap.toNat from hi)
  rwa [Nat.add_mul, Nat.one_mul] at this

theorem RingRegs.Geo.ptr_toNat {r : RingRegs} (g : r.Geo) {i : Nat} (hi : i < r.cap.toNat) :
    (r.ptr i).toNat = r.base.toNat + i * r.stride.toNat := by
  have h1 := r.slot_le hi
  have h2 := g.noWrap
  have h3 := g.stride
  have h4 := r.cap.isLt
  unfold RingRegs.ptr
  rw [Nat.mod_eq_of_lt hi, BitVec.toNat_add, BitVec.toNat_mul, BitVec.toNat_ofNat, Nat.mod_eq_of_lt (by omega : i < 2 ^ 32),
    Nat.mod_eq_of_lt (by omega : i * r.stride.toNat < 2 ^ 32), Nat.mod_eq_of_lt (by omega)]

theorem RingRegs.Geo.idx_ptr {r : RingRegs} (g : r.Geo) {i : Nat} (hi : i < r.cap.toNat) : r.idx (r.ptr i) = i := by
  have h1 := r.slot_le hi
  have h2 := g.noWrap
  have h3 := g.stride
  have h5 : (r.ptr i - r.base).toNat = i * r.stride.toNat := by
    have := g.ptr_toNat hi
    rw [BitVec.toNat_sub, this]
    have := r.base.isLt
    omega
  unfold RingRegs.idx
  rw [h5, Nat.mul_div_cancel _ g.stride]

@[simp] theorem RingRegs.ptr_mod (r : RingRegs) (i : Nat) : r.ptr (i % r.cap.toNat) = r.ptr i := by
  simp [RingRegs.ptr]

theorem RingRegs.Geo.isPtr_iff {r : RingRegs} (g : r.Geo) (p : Word) :
    r.IsPtr p ↔ ∃ i, i < r.cap.toNat ∧ p = r.ptr i := by
  constructor
  · rintro ⟨i, hi, h⟩
    exact ⟨i, hi, BitVec.eq_of_toNat_eq (by rw [h, g.ptr_toNat hi])⟩
  · rintro ⟨i, hi, rfl⟩
    exact ⟨i, hi, g.ptr_toNat hi⟩

theorem RingRegs.Geo.isPtr_ptr {r : RingRegs} (g : r.Geo) (i : Nat) : r.IsPtr (r.ptr i) :=
  (g.isPtr_iff _).2 ⟨i % r.cap.toNat, Nat.mod_lt _ g.cap, (r.ptr_mod i).symm⟩

theorem RingRegs.Geo.isPtr_adv {r : RingRegs} (g : r.Geo) (p : Word) (k : Nat) : r.IsPtr (r.adv p k) := g.isPtr_ptr _

theorem RingRegs.Geo.isPtr_back {r : RingRegs} (g : r.Geo) (p : Word) (k : Nat) : r.IsPtr (r.back p k) :=
  g.isPtr_ptr _

theorem RingRegs.Geo.adv_ptr {r : RingRegs} (g : r.Geo) (i k : Nat) : r.adv (r.ptr i) k = r.ptr (i + k) := by
  unfold RingRegs.adv
  rw [← r.ptr_mod i, g.idx_ptr (Nat.mod_lt _ g.cap), ← r.ptr_mod (i + k), Nat.mod_add_mod]

theorem RingRegs.Geo.adv_adv {r : RingRegs} (g : r.Geo) {p : Word} (hp : r.IsPtr p) (j k : Nat) :
    r.adv (r.adv p j) k = r.adv p (j + k) := by
  obtain ⟨i, _, rfl⟩ := (g.isPtr_iff p).1 hp
  rw [g.adv_ptr, g.adv_ptr, g.adv_ptr, Nat.add_assoc]

theorem RingRegs.Geo.adv_zero {r : RingRegs} (g : r.Geo) {p : Word} (hp : r.IsPtr p) : r.adv p 0 = p := by
  obtain ⟨i, _, rfl⟩ := (g.isPtr_iff p).1 hp
  rw [g.adv_ptr, Nat.add_zero]

theorem RingRegs.Geo.adv_cap {r : RingRegs} (g : r.Geo) {p : Word} (hp : r.IsPtr p) : r.adv p r.cap.toNat = p := by
  obtain ⟨i, _, rfl⟩ := (g.isPtr_iff p).1 hp
  rw [g.adv_ptr, ← r.ptr_mod (i + _), Nat.add_mod_right, r.ptr_mod]

theorem RingRegs.Geo.back_eq {r : RingRegs} (g : r.Geo) (p : Word) (k : Nat) :
    r.back p k = r.adv p (r.cap.toNat - k % r.cap.toNat) := by
  unfold RingRegs.back RingRegs.adv
  rw [Nat.add_sub_assoc (Nat.le_of_lt (Nat.mod_lt k g.cap))]

/-- Going back undoes going forward, for no more than once round the ring. -/
theorem RingRegs.Geo.back_adv {r : RingRegs} (g : r.Geo) {p : Word} (hp : r.IsPtr p) (k : Nat) (hk : k ≤ r.cap.toNat) :
    r.back (r.adv p k) k = p := by
  rw [g.back_eq, g.adv_adv hp]
  rcases Nat.lt_or_ge k r.cap.toNat with h | h
  · rw [Nat.mod_eq_of_lt h, show k + (r.cap.toNat - k) = r.cap.toNat by omega, g.adv_cap hp]
  · have : k = r.cap.toNat := by omega
    subst this
    rw [Nat.mod_self, Nat.sub_zero, ← g.adv_adv hp, g.adv_cap hp, g.adv_cap hp]

/-- Going forward undoes going back. -/
theorem RingRegs.Geo.adv_back {r : RingRegs} (g : r.Geo) {p : Word} (hp : r.IsPtr p) (k : Nat) (hk : k ≤ r.cap.toNat) :
    r.adv (r.back p k) k = p := by
  rw [g.back_eq, g.adv_adv hp]
  rcases Nat.lt_or_ge k r.cap.toNat with h | h
  · rw [Nat.mod_eq_of_lt h, show (r.cap.toNat - k) + k = r.cap.toNat by omega, g.adv_cap hp]
  · have : k = r.cap.toNat := by omega
    subst this
    rw [Nat.mod_self, Nat.sub_zero, ← g.adv_adv hp, g.adv_cap hp, g.adv_cap hp]

/-- Two pointers the same way round from one are equal only at the same distance. -/
theorem RingRegs.Geo.adv_inj {r : RingRegs} (g : r.Geo) {p : Word} (hp : r.IsPtr p) {j k : Nat} (hj : j < r.cap.toNat)
    (hk : k < r.cap.toNat) (h : r.adv p j = r.adv p k) : j = k := by
  obtain ⟨i, hi, rfl⟩ := (g.isPtr_iff p).1 hp
  rw [g.adv_ptr, g.adv_ptr, ← r.ptr_mod, ← r.ptr_mod (i + k)] at h
  have h' := congrArg r.idx h
  rw [g.idx_ptr (Nat.mod_lt _ g.cap), g.idx_ptr (Nat.mod_lt _ g.cap)] at h'
  rcases Nat.lt_or_ge (i + j) r.cap.toNat with h1 | h1 <;> rcases Nat.lt_or_ge (i + k) r.cap.toNat with h2 | h2
  · rw [Nat.mod_eq_of_lt h1, Nat.mod_eq_of_lt h2] at h'; omega
  · rw [Nat.mod_eq_of_lt h1, Nat.mod_eq_sub_mod h2, Nat.mod_eq_of_lt (by omega)] at h'; omega
  · rw [Nat.mod_eq_of_lt h2, Nat.mod_eq_sub_mod h1, Nat.mod_eq_of_lt (by omega)] at h'; omega
  · rw [Nat.mod_eq_sub_mod h1, Nat.mod_eq_of_lt (by omega), Nat.mod_eq_sub_mod h2, Nat.mod_eq_of_lt (by omega)] at h'
    omega

/-! ### Ownership (R37) -/

/-- The partition of the descriptor `d` places after the post head. -/
theorem RingRegs.Geo.part_adv {r : RingRegs} (g : r.Geo) (hp : r.IsPtr r.postHead) {d : Nat} (hd : d < r.cap.toNat) :
    r.part (r.idx (r.adv r.postHead d)) =
      if d < r.postCnt.toNat then .post
      else if d < r.postCnt.toNat + r.hwCnt.toNat then .hw
      else if d < r.postCnt.toNat + r.hwCnt.toNat + r.preCnt.toNat then .pre
      else .free := by
  obtain ⟨i, hi, he⟩ := (g.isPtr_iff _).1 hp
  have hx : (r.idx (r.adv r.postHead d) + r.cap.toNat - r.idx r.postHead % r.cap.toNat) % r.cap.toNat = d := by
    rw [he, g.adv_ptr, ← r.ptr_mod (i + d), g.idx_ptr (Nat.mod_lt _ g.cap), g.idx_ptr hi, Nat.mod_eq_of_lt hi]
    rcases Nat.lt_or_ge (i + d) r.cap.toNat with h1 | h1
    · rw [Nat.mod_eq_of_lt h1, show i + d + r.cap.toNat - i = d + r.cap.toNat by omega, Nat.add_mod_right,
        Nat.mod_eq_of_lt hd]
    · rw [Nat.mod_eq_sub_mod h1, Nat.mod_eq_of_lt (show i + d - r.cap.toNat < r.cap.toNat by omega),
        show i + d - r.cap.toNat + r.cap.toNat - i = d by omega, Nat.mod_eq_of_lt hd]
  unfold RingRegs.part
  rw [hx]

/-- Where the DMA agent's steps are enabled, all four bytes of the word are owned (R244). -/
theorem RingRegs.Geo.hwOwned_of_dmaEnabled {r : RingRegs} (g : r.Geo) (h8 : 8 ≤ r.stride.toNat)
    (hm : r.stride.toNat % 4 = 0) {a : Word} (h : r.dmaEnabled a = true) (k : Word) (hk : k.toNat < 4) :
    r.hwOwned (a + k) = true := by
  have h2 := g.noWrap
  have hd : descSize = 8 := rfl
  simp only [RingRegs.dmaEnabled, RingRegs.hwOwned] at h ⊢
  simp only [Bool.and_eq_true, decide_eq_true_eq] at h ⊢
  obtain ⟨⟨⟨⟨hc, h3⟩, h4⟩, h5⟩, h6⟩ := h
  have h7 := r.slot_le h3
  generalize hoff : (a - r.base).toNat = off at *
  have hs : off = r.stride.toNat * (off / r.stride.toNat) + off % r.stride.toNat :=
    (Nat.div_add_mod off r.stride.toNat).symm
  generalize off / r.stride.toNat = q at *
  generalize off % r.stride.toNat = m at *
  have hmk : m + k.toNat < r.stride.toNat := by omega
  rw [Nat.mul_comm q] at h7
  have hadd : (a + k - r.base).toNat = r.stride.toNat * q + (m + k.toNat) := by
    have : a + k - r.base = (a - r.base) + k := by ring
    rw [this, BitVec.toNat_add, hoff, hs, Nat.add_assoc, Nat.mod_eq_of_lt (by omega)]
  rw [hadd, Nat.mul_add_div g.stride, Nat.div_eq_of_lt hmk, Nat.add_zero, Nat.mul_add_mod, Nat.mod_eq_of_lt hmk]
  exact ⟨⟨⟨hc, h3⟩, by omega⟩, h5⟩

/-- The DMA agent's words lie inside what it owns: no ring has none, and a sound ring's slots hold them (R244). -/
theorem RingRegs.dmaInside {r : RingRegs} (h : r.cap = 0 ∨ r.Sound) {a : Word} (ha : r.dmaEnabled a = true) (k : Word)
    (hk : k.toNat < 4) : r.hwOwned (a + k) = true := by
  by_cases hc : r.cap = 0
  · simp [RingRegs.dmaEnabled, RingRegs.hwOwned, hc] at ha
  · have hs := h.resolve_left hc
    have := hs.stride_mod
    exact (hs.geo hc).hwOwned_of_dmaEnabled hs.stride_ge (by omega) ha k hk

/-- With no ring the DMA agent owns nothing. -/
theorem RingRegs.hwOwned_noRing {r : RingRegs} (h : r.cap = 0) (x : Word) : r.hwOwned x = false := by
  simp [RingRegs.hwOwned, h]

/-- With an empty hardware partition the DMA agent owns nothing. -/
theorem RingRegs.hwOwned_noHw {r : RingRegs} (h : r.hwCnt = 0) (x : Word) : r.hwOwned x = false := by
  have : ∀ i, r.part i ≠ .hw := by
    intro i
    have h0 : r.hwCnt.toNat = 0 := by rw [h]; rfl
    unfold RingRegs.part
    simp only [h0, Nat.add_zero]
    repeat' split
    all_goals first | omega | simp
  simp [RingRegs.hwOwned, this]

/-! ### The words of a sound ring's descriptors -/

theorem RingRegs.Sound.wordAddr_toNat {r : RingRegs} (h : r.Sound) (hc : r.cap ≠ 0) {i : Nat} (hi : i < r.cap.toNat)
    (j : Fin 2) : (wordAddr (r.ptr i) j).toNat = r.base.toNat + i * r.stride.toNat + 4 * j.val := by
  have g := h.geo hc
  have := r.slot_le hi
  have := g.noWrap
  have := h.stride_ge
  unfold wordAddr
  rw [BitVec.toNat_add, g.ptr_toNat hi, BitVec.toNat_ofNat]
  omega

/-- R35, R36: every descriptor word is aligned. -/
theorem RingRegs.Sound.wordAddr_mod {r : RingRegs} (h : r.Sound) (hc : r.cap ≠ 0) {i : Nat} (hi : i < r.cap.toNat)
    (j : Fin 2) : (wordAddr (r.ptr i) j).toNat % 4 = 0 := by
  rw [h.wordAddr_toNat hc hi]
  have h1 := h.stride_mod
  have h2 := h.baseAligned
  have : i * r.stride.toNat % 4 = 0 := by
    rw [Nat.mul_mod, show r.stride.toNat % 4 = 0 by omega, Nat.mul_zero, Nat.zero_mod]
  omega

/-- No two descriptor words share an address. -/
theorem RingRegs.Sound.wordAddr_inj {r : RingRegs} (h : r.Sound) (hc : r.cap ≠ 0) {i i' : Nat} (hi : i < r.cap.toNat)
    (hi' : i' < r.cap.toNat) {j j' : Fin 2} (e : wordAddr (r.ptr i) j = wordAddr (r.ptr i') j') : i = i' ∧ j = j' := by
  have h1 := congrArg BitVec.toNat e
  rw [h.wordAddr_toNat hc hi, h.wordAddr_toNat hc hi'] at h1
  have := h.stride_ge
  rcases Nat.lt_trichotomy i i' with h2 | rfl | h2
  · have := Nat.mul_le_mul_right r.stride.toNat (show i + 1 ≤ i' from h2)
    rw [Nat.succ_mul] at this
    omega
  · exact ⟨rfl, Fin.ext (by omega)⟩
  · have := Nat.mul_le_mul_right r.stride.toNat (show i' + 1 ≤ i from h2)
    rw [Nat.succ_mul] at this
    omega

/-- R31: `S.high` is the last descriptor. -/
theorem RingRegs.Sound.high_eq {r : RingRegs} (h : r.Sound) (hc : r.cap ≠ 0) : r.high = r.ptr (r.cap.toNat - 1) := by
  have g := h.geo hc
  have := g.cap
  exact BitVec.eq_of_toNat_eq (by rw [h.high, g.ptr_toNat (by omega)])

/-! ### Moves that keep a ring sound (R30 to R38) -/

theorem Word.toNat_pos {w : Word} (h : w ≠ 0) : 0 < w.toNat :=
  Nat.pos_of_ne_zero fun h0 => h (BitVec.eq_of_toNat_eq h0)

theorem Word.sub_toNat {a b : Word} (h : b.toNat ≤ a.toNat) : (a - b).toNat = a.toNat - b.toNat :=
  BitVec.toNat_sub_of_le h

theorem Word.add_toNat {a b : Word} (h : a.toNat + b.toNat < 2 ^ 32) : (a + b).toNat = a.toNat + b.toNat := by
  rw [BitVec.toNat_add, Nat.mod_eq_of_lt h]

/-- A ring of a sound ring's shape is sound if its counts sum to the capacity, its heads lie one arc after the other
from the post head, and its tail is the last hardware descriptor if there is one. -/
theorem RingRegs.Sound.of_arcs {r r' : RingRegs} (h : r.Sound) (hc : r.cap ≠ 0)
    (shape : r'.cap = r.cap ∧ r'.stride = r.stride ∧ r'.base = r.base ∧ r'.pbase = r.pbase ∧ r'.high = r.high ∧
      r'.restart = r.restart)
    (sum : r'.freeCnt.toNat + r'.preCnt.toNat + r'.hwCnt.toNat + r'.postCnt.toNat = r.cap.toNat)
    (post : r.IsPtr r'.postHead) (tail : r.IsPtr r'.hwTail) (hw : r'.hwHead = r.adv r'.postHead r'.postCnt.toNat)
    (pre : r'.preHead = r.adv r'.hwHead r'.hwCnt.toNat) (free : r'.freeHead = r.adv r'.preHead r'.preCnt.toNat)
    (last : r'.hwCnt ≠ 0 → r'.hwTail = r.adv r'.hwHead (r'.hwCnt.toNat - 1)) : r'.Sound := by
  obtain ⟨g1, g2, g3, g4, g5, g6⟩ := shape
  have g := h.geo hc
  have eadv : ∀ p k, r'.adv p k = r.adv p k := by
    intro p k; unfold RingRegs.adv RingRegs.ptr RingRegs.idx; rw [g1, g2, g3]
  have eback : ∀ p k, r'.back p k = r.back p k := by
    intro p k; unfold RingRegs.back RingRegs.ptr RingRegs.idx; rw [g1, g2, g3]
  have eptr : ∀ p, r'.IsPtr p ↔ r.IsPtr p := by intro p; unfold RingRegs.IsPtr; rw [g1, g2, g3]
  have i1 : r.IsPtr r'.hwHead := by rw [hw]; exact g.isPtr_adv _ _
  have i2 : r.IsPtr r'.preHead := by rw [pre]; exact g.isPtr_adv _ _
  have i3 : r.IsPtr r'.freeHead := by rw [free]; exact g.isPtr_adv _ _
  exact {
    sum := by rw [g1]; exact sum
    stride := by rw [g2]; exact h.stride
    high := by rw [g5, g3, g1, g2]; exact h.high
    noWrap := by rw [g3, g1, g2]; exact h.noWrap
    baseAligned := by rw [g3]; exact h.baseAligned
    pbaseAligned := by rw [g4]; exact h.pbaseAligned
    restart := by rw [g6, g4]; exact h.restart
    hwHead := by rw [eadv]; exact hw
    preHead := by rw [eadv]; exact pre
    freeHead := by rw [eadv]; exact free
    postHead := by
      rw [eadv, free, pre, hw, g.adv_adv post, g.adv_adv post, g.adv_adv post,
        show r'.postCnt.toNat + r'.hwCnt.toNat + r'.preCnt.toNat + r'.freeCnt.toNat = r.cap.toNat by omega,
        g.adv_cap post]
    freePtr := (eptr _).2 i3
    prePtr := (eptr _).2 i2
    hwPtr := (eptr _).2 i1
    tailPtr := (eptr _).2 tail
    postPtr := (eptr _).2 post
    tail := fun hne => by
      have := Word.toNat_pos hne
      refine ⟨by rw [eadv]; exact last hne, ?_⟩
      rw [eback, pre, show r'.hwCnt.toNat = (r'.hwCnt.toNat - 1) + 1 by omega, ← g.adv_adv i1,
        g.back_adv (g.isPtr_adv _ _) 1 (by have := g.cap; omega)]
      exact last hne }

theorem RingRegs.Sound.alloc {r : RingRegs} (h : r.Sound) (hc : r.cap ≠ 0) {n : Word}
    (hn : n.toNat ≤ r.freeCnt.toNat) : (r.alloc n).Sound := by
  have hlt := r.cap.isLt
  have hsum := h.sum
  apply h.of_arcs (r' := r.alloc n) hc ⟨rfl, rfl, rfl, rfl, rfl, rfl⟩ _ h.postPtr h.tailPtr h.hwHead h.preHead _
    (fun hw => (h.tail hw).1)
  · simp only [RingRegs.alloc]
    rw [Word.sub_toNat hn, Word.add_toNat (by omega)]
    omega
  · simp only [RingRegs.alloc]
    rw [Word.add_toNat (by omega), h.freeHead, (h.geo hc).adv_adv h.prePtr]

theorem RingRegs.Sound.unalloc {r : RingRegs} (h : r.Sound) (hc : r.cap ≠ 0) {n : Word}
    (hn : n.toNat ≤ r.preCnt.toNat) : (r.unalloc n).Sound := by
  have hlt := r.cap.isLt
  have hsum := h.sum
  have g := h.geo hc
  apply h.of_arcs (r' := r.unalloc n) hc ⟨rfl, rfl, rfl, rfl, rfl, rfl⟩ _ h.postPtr h.tailPtr h.hwHead h.preHead _
    (fun hw => (h.tail hw).1)
  · simp only [RingRegs.unalloc]
    rw [Word.sub_toNat hn, Word.add_toNat (by omega)]
    omega
  · simp only [RingRegs.unalloc]
    rw [Word.sub_toNat hn, h.freeHead]
    conv_lhs => rw [show r.preCnt.toNat = (r.preCnt.toNat - n.toNat) + n.toNat by omega, ← g.adv_adv h.prePtr]
    rw [g.back_adv (g.isPtr_adv _ _) _ (by omega)]

theorem RingRegs.Sound.submit {r : RingRegs} (h : r.Sound) (hc : r.cap ≠ 0) {n : Word} (h0 : 0 < n.toNat)
    (hn : n.toNat ≤ r.preCnt.toNat) : (r.submit n r.preHead).Sound := by
  have hlt := r.cap.isLt
  have hsum := h.sum
  have g := h.geo hc
  apply h.of_arcs (r' := r.submit n r.preHead) hc ⟨rfl, rfl, rfl, rfl, rfl, rfl⟩ _ h.postPtr (g.isPtr_adv _ _) h.hwHead
  · simp only [RingRegs.submit]
    rw [Word.add_toNat (by omega), h.preHead, g.adv_adv h.hwPtr]
  · simp only [RingRegs.submit]
    rw [Word.sub_toNat hn, h.freeHead, g.adv_adv h.prePtr]
    congr 1
    omega
  · intro _
    simp only [RingRegs.submit]
    rw [Word.add_toNat (by omega), h.preHead, g.adv_adv h.hwPtr]
    congr 1
    omega
  · simp only [RingRegs.submit]
    rw [Word.sub_toNat hn, Word.add_toNat (by omega)]
    omega

theorem RingRegs.Sound.release {r : RingRegs} (h : r.Sound) (hc : r.cap ≠ 0) {n : Word}
    (hn : n.toNat ≤ r.postCnt.toNat) : (r.release n).Sound := by
  have hlt := r.cap.isLt
  have hsum := h.sum
  have g := h.geo hc
  apply h.of_arcs (r' := r.release n) hc ⟨rfl, rfl, rfl, rfl, rfl, rfl⟩ _ (g.isPtr_adv _ _) h.tailPtr _ h.preHead
    h.freeHead (fun hw => (h.tail hw).1)
  · simp only [RingRegs.release]
    rw [Word.sub_toNat hn, Word.add_toNat (by omega)]
    omega
  · simp only [RingRegs.release]
    rw [Word.sub_toNat hn, h.hwHead, g.adv_adv h.postPtr]
    congr 1
    omega

theorem RingRegs.Sound.reclaim {r : RingRegs} (h : r.Sound) (hc : r.cap ≠ 0) {n : Nat} (hn : n ≤ r.hwCnt.toNat) :
    (r.reclaim n).Sound := by
  have hlt := r.cap.isLt
  have hsum := h.sum
  have g := h.geo hc
  have en : (BitVec.ofNat 32 n).toNat = n := by rw [BitVec.toNat_ofNat, Nat.mod_eq_of_lt (by omega)]
  apply h.of_arcs (r' := r.reclaim n) hc ⟨rfl, rfl, rfl, rfl, rfl, rfl⟩ _ h.postPtr h.tailPtr _ _ h.freeHead
  · intro hw
    simp only [RingRegs.reclaim] at hw ⊢
    have h1 := Word.toNat_pos hw
    rw [Word.sub_toNat (by omega), en] at h1
    have h2 : r.hwCnt ≠ 0 := by
      intro e
      rw [e, show (0 : Word).toNat = 0 from rfl, Nat.zero_sub] at h1
      exact Nat.lt_irrefl _ h1
    rw [Word.sub_toNat (by omega), en, g.adv_adv h.hwPtr, (h.tail h2).1]
    congr 1
    omega
  · simp only [RingRegs.reclaim]
    rw [Word.sub_toNat (by omega), Word.add_toNat (by omega), en]
    omega
  · simp only [RingRegs.reclaim]
    rw [Word.add_toNat (by omega), en, h.hwHead, g.adv_adv h.postPtr]
  · simp only [RingRegs.reclaim]
    rw [Word.sub_toNat (by omega), en, h.preHead, g.adv_adv h.hwPtr]
    congr 1
    omega

theorem RingRegs.Sound.withRun {r : RingRegs} (h : r.Sound) (hc : r.cap ≠ 0) (x : RunState) :
    ({ r with run := x } : RingRegs).Sound :=
  h.of_arcs hc ⟨rfl, rfl, rfl, rfl, rfl, rfl⟩ h.sum h.postPtr h.tailPtr h.hwHead h.preHead h.freeHead
    (fun hw => (h.tail hw).1)

end Sys2Proof.Machine
end

