-- ==== Sys2Proof/Laws/Events.lean ====
section
/-! SUPPORT. What a command's memory events can do (R11, R74, R244): which fields they leave, that they keep the canonical
forms, and what the block reads after them where memory is quiet. -/

namespace Sys2Proof.Machine
open Sys2Proof.Config

theorem memOnly_memRead (a : Word) (s : State) : s.MemOnly (memRead a s).2 := memOnly_agentTurn s

theorem memOnly_memWrite (a v : Word) (s : State) : s.MemOnly (memWrite a v s) :=
  (memOnly_agentTurn s).trans (State.memOnly_writeWord _ _ _)

theorem memOnly_cleanRange (a n : Word) (s : State) : s.MemOnly (cleanRange a n s) := State.memOnly_withMem _ _ _

theorem memOnly_invalRange (a n : Word) (s : State) : s.MemOnly (invalRange a n s) := State.memOnly_withMem _ _ _

theorem memOnly_cacheClean (a n : Word) (s : State) : s.MemOnly (cacheClean a n s) := by
  unfold cacheClean
  split
  · exact State.MemOnly.refl s
  · exact (memOnly_agentTurn s).trans (memOnly_cleanRange _ _ _)

theorem memOnly_cacheInval (a n : Word) (s : State) : s.MemOnly (cacheInval a n s) := by
  unfold cacheInval
  split
  · exact State.MemOnly.refl s
  · exact (memOnly_agentTurn s).trans (memOnly_invalRange _ _ _)

theorem memOnly_setFlag (p : Word) (f : FlagPos) (s : State) : s.MemOnly (setFlag p f s) :=
  (memOnly_memRead _ s).trans (memOnly_memWrite _ _ _)

/-! ### The canonical forms (`State.MemInv`) -/

theorem memInv_memRead (a : Word) (s : State) (h : s.MemInv) : (memRead a s).2.MemInv := memInv_agentTurn s h

theorem memInv_memWrite (a v : Word) (s : State) (h : s.MemInv) : (memWrite a v s).MemInv :=
  State.memInv_writeWord _ _ _ (memInv_agentTurn s h)

theorem memInv_cleanRange (a n : Word) (s : State) (h : s.MemInv) : (cleanRange a n s).MemInv :=
  ⟨Memory.wf_flush _ _ 0 _ h.2 h.1, cacheWf_markClean _ _ h.2⟩

theorem memInv_invalRange (a n : Word) (s : State) (h : s.MemInv) : (invalRange a n s).MemInv :=
  ⟨h.1, cacheWf_drop _ _ h.2⟩

theorem memInv_cacheClean (a n : Word) (s : State) (h : s.MemInv) : (cacheClean a n s).MemInv := by
  unfold cacheClean
  split
  · exact h
  · exact memInv_cleanRange _ _ _ (memInv_agentTurn s h)

theorem memInv_cacheInval (a n : Word) (s : State) (h : s.MemInv) : (cacheInval a n s).MemInv := by
  unfold cacheInval
  split
  · exact h
  · exact memInv_invalRange _ _ _ (memInv_agentTurn s h)

theorem memInv_setFlag (p : Word) (f : FlagPos) (s : State) (h : s.MemInv) : (setFlag p f s).MemInv :=
  memInv_memWrite _ _ _ (memInv_memRead _ _ h)

/-! ### Quiet memory: coherent, or nothing in the script -/

/-- No agent changes what the block reads outside the hardware partition: memory is coherent, or the script is empty. -/
def State.Quiet (s : State) : Prop := s.params.coherent = true ∨ s.interleave = []

theorem readByte_runAgentStep {t : AgentStep} {s : State} (hr : s.ring.cap = 0 ∨ s.ring.Sound)
    (hc : s.params.coherent = true) {x : Word} (hx : s.ring.hwOwned x = false) :
    (runAgentStep t s).readByte x = s.readByte x := by
  cases t <;> simp only [runAgentStep, hc, if_true, Bool.true_or]
  rename_i a v
  split
  · rename_i ha
    have hne : ∀ k : Word, k.toNat < 4 → x ≠ a + k := by
      rintro k hk rfl
      rw [RingRegs.dmaInside hr ha k hk] at hx
      cases hx
    have hn : ∀ k : Word, k.toNat < 4 → x.toNat ≠ (a + k).toNat := fun k hk h => hne k hk (BitVec.eq_of_toNat_eq h)
    have h0 : x.toNat ≠ a.toNat := by simpa using hn 0 (by decide)
    simp only [State.readByte_eq, State.withMem_params, State.withMem_mem, hc, if_true, Memory.putWord]
    rw [Memory.byte_put_other _ _ (hn 3 (by decide)), Memory.byte_put_other _ _ (hn 2 (by decide)),
      Memory.byte_put_other _ _ (hn 1 (by decide)), Memory.byte_put_other _ _ h0]
  · rfl

theorem readByte_runAgentSteps {ts : List AgentStep} {s : State} (hr : s.ring.cap = 0 ∨ s.ring.Sound)
    (hc : s.params.coherent = true) {x : Word} (hx : s.ring.hwOwned x = false) :
    (runAgentSteps ts s).readByte x = s.readByte x := by
  induction ts generalizing s with
  | nil => rfl
  | cons t ts ih =>
    have hm := memOnly_runAgentStep t s
    rw [runAgentSteps, ih (by rw [hm.ring]; exact hr) (by rw [hm.params]; exact hc) (by rw [hm.ring]; exact hx),
      readByte_runAgentStep hr hc hx]

/-- Between two events of a command nothing the block reads outside the hardware partition changes. -/
theorem readByte_agentTurn {s : State} (hr : s.ring.cap = 0 ∨ s.ring.Sound) (hq : s.Quiet) {x : Word}
    (hx : s.ring.hwOwned x = false) : (agentTurn s).readByte x = s.readByte x := by
  rcases hq with hc | he
  · unfold agentTurn
    split
    · rfl
    · rename_i ts rest _
      rw [readByte_runAgentSteps (s := { s with interleave := rest }) hr hc hx]
      rfl
  · rw [agentTurn_of_empty he]

theorem quiet_agentTurn {s : State} (hq : s.Quiet) : (agentTurn s).Quiet := by
  rcases hq with hc | he
  · exact .inl (by rw [(memOnly_agentTurn s).params]; exact hc)
  · rw [agentTurn_of_empty he]; exact .inr he

theorem quiet_memRead {s : State} (hq : s.Quiet) (a : Word) : (memRead a s).2.Quiet := quiet_agentTurn hq

theorem quiet_memWrite {s : State} (hq : s.Quiet) (a v : Word) : (memWrite a v s).Quiet := by
  rcases quiet_agentTurn hq with hc | he
  · exact .inl (by rw [memWrite, (State.memOnly_writeWord _ _ _).params]; exact hc)
  · exact .inr (by rw [memWrite, State.writeWord_interleave]; exact he)

/-- A word reads as what a `MemWrite` put there. -/
@[simp] theorem readWord_memWrite (a v : Word) (s : State) : (memWrite a v s).readWord a = v :=
  State.readWord_writeWord _ _ _

/-- A `MemWrite` of an aligned word leaves every byte outside it, and outside the hardware partition, as it reads. -/
theorem readByte_memWrite_other {s : State} (hr : s.ring.cap = 0 ∨ s.ring.Sound) (hq : s.Quiet) {a v x : Word}
    (ha : a.toNat % 4 = 0) (hx : x.toNat / 4 ≠ a.toNat / 4) (ho : s.ring.hwOwned x = false) :
    (memWrite a v s).readByte x = s.readByte x := by
  rw [memWrite, State.readByte_writeWord_other _ _ _ _ ha hx, readByte_agentTurn hr hq ho]

/-- Another aligned word reads as before, where the DMA agent owns nothing. -/
theorem readWord_memWrite_other {s : State} (hr : s.ring.cap = 0 ∨ s.ring.Sound) (hq : s.Quiet) {a v b : Word}
    (ha : a.toNat % 4 = 0) (hb : b.toNat % 4 = 0) (hne : b ≠ a) (ho : ∀ x, s.ring.hwOwned x = false) :
    (memWrite a v s).readWord b = s.readWord b := by
  apply State.readWord_congr (memOnly_memWrite _ _ _).params b hb
  intro x hx
  apply readByte_memWrite_other hr hq ha _ (ho x)
  intro h
  exact hne (BitVec.eq_of_toNat_eq (by omega))

/-- With no agent in between, a `MemRead` returns what the block reads and changes nothing. -/
theorem memRead_of_empty {s : State} (h : s.interleave = []) (a : Word) : memRead a s = (s.readWord a, s) := by
  simp [memRead, h]

/-- Any aligned word after a `MemWrite`, where the DMA agent owns nothing. -/
theorem readWord_memWrite_eq {s : State} (hr : s.ring.cap = 0 ∨ s.ring.Sound) (hq : s.Quiet)
    (ho : ∀ x, s.ring.hwOwned x = false) {a v b : Word} (ha : a.toNat % 4 = 0) (hb : b.toNat % 4 = 0) :
    (memWrite a v s).readWord b = if b = a then v else s.readWord b := by
  split
  · rename_i h
    rw [h, readWord_memWrite]
  · exact readWord_memWrite_other hr hq ha hb ‹_› ho

/-- Where the DMA agent owns nothing, no agent changes a word the block reads. -/
theorem readWord_agentTurn {s : State} (hr : s.ring.cap = 0 ∨ s.ring.Sound) (hq : s.Quiet)
    (ho : ∀ x, s.ring.hwOwned x = false) (a : Word) : (agentTurn s).readWord a = s.readWord a := by
  unfold State.readWord
  rw [(memOnly_agentTurn s).params]
  simp only [readByte_agentTurn hr hq (ho _)]

/-! ### Reading only -/

/-- `u` comes after `s` by events that read: the block's view outside the hardware partition stays on a coherent
platform, and with no agent in between memory itself stays. -/
structure State.Reading (s u : State) : Prop where
  only : s.MemOnly u
  outside : s.ring.cap = 0 ∨ s.ring.Sound → s.params.coherent = true →
    ∀ a, s.ring.hwOwned a = false → u.readByte a = s.readByte a
  alone : s.interleave = [] → u.mem = s.mem ∧ u.interleave = []

theorem State.Reading.refl (s : State) : s.Reading s := ⟨.refl s, fun _ _ _ _ => rfl, fun h => ⟨rfl, h⟩⟩

theorem State.Reading.trans {s u v : State} (h : s.Reading u) (h' : u.Reading v) : s.Reading v where
  only := h.only.trans h'.only
  outside := fun hr hc a ha => by
    rw [h'.outside (by rw [h.only.ring]; exact hr) (by rw [h.only.params]; exact hc) a (by rw [h.only.ring]; exact ha),
      h.outside hr hc a ha]
  alone := fun he =>
    have h1 := h.alone he
    have h2 := h'.alone h1.2
    ⟨h2.1.trans h1.1, h2.2⟩

theorem reading_agentTurn (s : State) : s.Reading (agentTurn s) where
  only := memOnly_agentTurn s
  outside := fun hr hc _ ha => readByte_agentTurn hr (.inl hc) ha
  alone := fun he => by rw [agentTurn_of_empty he]; exact ⟨rfl, he⟩

theorem reading_cacheInval (a n : Word) (s : State) : s.Reading (cacheInval a n s) where
  only := memOnly_cacheInval a n s
  outside := fun _ hc _ _ => by simp [cacheInval, hc]
  alone := fun he => by
    unfold cacheInval
    split
    · exact ⟨rfl, he⟩
    · rw [agentTurn_of_empty he]
      exact ⟨rfl, he⟩

/-- With no agent in between, an invalidation changes the cache alone, and that on a non-coherent platform only. -/
theorem cacheInval_of_empty {s : State} (h : s.interleave = []) (a n : Word) :
    ∃ cs, cacheInval a n s = { s with cache := cs } ∧ (s.params.coherent = true → cs = s.cache) := by
  unfold cacheInval
  split
  · exact ⟨s.cache, rfl, fun _ => rfl⟩
  · rename_i hc
    rw [agentTurn_of_empty h]
    exact ⟨_, rfl, fun h => absurd h hc⟩

/-- What the block reads of a slot it has just invalidated is what memory holds (R78 item 2, R181). -/
theorem readWord_cacheInval {s : State} (h : s.interleave = []) (p n : Word) (j : Fin 2) (hp : p.toNat + 8 ≤ 2 ^ 32)
    (hn : 8 ≤ n.toNat) :
    (cacheInval p n s).readWord (wordAddr p j) = s.mem.word s.params.endian (wordAddr p j) := by
  have hb : ∀ x : Word, p.toNat ≤ x.toNat → x.toNat < p.toNat + 8 →
      (cacheInval p n s).readByte x = s.mem.byte x.toNat := by
    intro x h1 h2
    rw [State.readByte_eq]
    unfold cacheInval
    split
    · simp
    · rename_i hc
      rw [agentTurn_of_empty h]
      have hne : n ≠ 0 := by rintro rfl; simp at hn
      have : inRange p n x.toNat = true := by
        simp only [inRange, Bool.and_eq_true, decide_eq_true_eq]
        refine ⟨⟨hne, ?_⟩, ?_⟩ <;> omega
      simp only [invalRange, State.withMem_params, hc, State.withMem_cache, State.withMem_mem, cacheGet_drop, this,
        if_true, Option.getD_none]
      rfl
  have hp : (cacheInval p n s).params = s.params := (memOnly_cacheInval _ _ _).params
  have e : (wordAddr p j).toNat = p.toNat + 4 * j.val := by
    unfold wordAddr
    rw [BitVec.toNat_add, BitVec.toNat_ofNat]
    omega
  have e1 : (wordAddr p j + 1).toNat = p.toNat + 4 * j.val + 1 := by rw [BitVec.toNat_add, e]; simp; omega
  have e2 : (wordAddr p j + 2).toNat = p.toNat + 4 * j.val + 2 := by rw [BitVec.toNat_add, e]; simp; omega
  have e3 : (wordAddr p j + 3).toNat = p.toNat + 4 * j.val + 3 := by rw [BitVec.toNat_add, e]; simp; omega
  unfold State.readWord Memory.word
  rw [hp, hb _ (by omega) (by omega), hb _ (by omega) (by omega), hb _ (by omega) (by omega), hb _ (by omega) (by omega)]

end Sys2Proof.Machine
end

