-- ==== Sys2Proof/Laws/Loops.lean ====
section
/-! SUPPORT. The commands' loops over descriptors: each differs from where it began in memory only, keeps the canonical
forms, and leaves quiet memory quiet. -/

namespace Sys2Proof.Machine
open Sys2Proof.Config

/-! ### CREATE -/

theorem memOnly_zeroWords (k : Nat) (a : Word) (s : State) : s.MemOnly (zeroWords k a s) := by
  induction k generalizing a s with
  | zero => exact State.MemOnly.refl s
  | succ k ih => exact (memOnly_memWrite a 0 s).trans (ih _ _)

theorem memInv_zeroWords (k : Nat) (a : Word) (s : State) (h : s.MemInv) : (zeroWords k a s).MemInv := by
  induction k generalizing a s with
  | zero => exact h
  | succ k ih => exact ih _ _ (memInv_memWrite a 0 s h)

theorem quiet_zeroWords (k : Nat) (a : Word) (s : State) (h : s.Quiet) : (zeroWords k a s).Quiet := by
  induction k generalizing a s with
  | zero => exact h
  | succ k ih => exact ih _ _ (quiet_memWrite h a 0)

theorem memOnly_writeLinks (pb vb st : Word) (k i : Nat) (s : State) : s.MemOnly (writeLinks pb vb st k i s) := by
  induction k generalizing i s with
  | zero => exact State.MemOnly.refl s
  | succ k ih => exact (memOnly_memWrite _ _ s).trans (ih _ _)

theorem memInv_writeLinks (pb vb st : Word) (k i : Nat) (s : State) (h : s.MemInv) :
    (writeLinks pb vb st k i s).MemInv := by
  induction k generalizing i s with
  | zero => exact h
  | succ k ih => exact ih _ _ (memInv_memWrite _ _ s h)

theorem quiet_writeLinks (pb vb st : Word) (k i : Nat) (s : State) (h : s.Quiet) :
    (writeLinks pb vb st k i s).Quiet := by
  induction k generalizing i s with
  | zero => exact h
  | succ k ih => exact ih _ _ (quiet_memWrite h _ _)

theorem memOnly_layRing (pb vb st cnt : Word) (s : State) : s.MemOnly (layRing pb vb st cnt s) :=
  ((memOnly_zeroWords _ _ _).trans (memOnly_writeLinks _ _ _ _ _ _)).trans (memOnly_memWrite _ _ _)

theorem memInv_layRing (pb vb st cnt : Word) (s : State) (h : s.MemInv) : (layRing pb vb st cnt s).MemInv :=
  memInv_memWrite _ _ _ (memInv_writeLinks _ _ _ _ _ _ (memInv_zeroWords _ _ _ h))

/-! ### CLONE -/

theorem memOnly_cloneDescs (t0 t1 : Word) (k i : Nat) (s : State) : s.MemOnly (cloneDescs t0 t1 k i s) := by
  induction k generalizing i s with
  | zero => exact State.MemOnly.refl s
  | succ k ih => exact ((memOnly_memWrite _ _ s).trans (memOnly_memWrite _ _ _)).trans (ih _ _)

theorem memInv_cloneDescs (t0 t1 : Word) (k i : Nat) (s : State) (h : s.MemInv) :
    (cloneDescs t0 t1 k i s).MemInv := by
  induction k generalizing i s with
  | zero => exact h
  | succ k ih => exact ih _ _ (memInv_memWrite _ _ _ (memInv_memWrite _ _ s h))

theorem quiet_cloneDescs (t0 t1 : Word) (k i : Nat) (s : State) (h : s.Quiet) : (cloneDescs t0 t1 k i s).Quiet := by
  induction k generalizing i s with
  | zero => exact h
  | succ k ih => exact ih _ _ (quiet_memWrite (quiet_memWrite h _ _) _ _)

/-! ### SUBMIT -/

theorem memOnly_cleanSlots (p : Word) (k i : Nat) (s : State) : s.MemOnly (cleanSlots p k i s) := by
  induction k generalizing i s with
  | zero => exact State.MemOnly.refl s
  | succ k ih => exact (memOnly_cacheClean _ _ s).trans (ih _ _)

theorem memInv_cleanSlots (p : Word) (k i : Nat) (s : State) (h : s.MemInv) : (cleanSlots p k i s).MemInv := by
  induction k generalizing i s with
  | zero => exact h
  | succ k ih => exact ih _ _ (memInv_cacheClean _ _ s h)

/-- On a coherent platform SUBMIT's cleans are no-ops (R76). -/
theorem cleanSlots_coherent (p : Word) (k i : Nat) (s : State) (h : s.params.coherent = true) :
    cleanSlots p k i s = s := by
  induction k generalizing i with
  | zero => rfl
  | succ k ih => simp only [cleanSlots, cacheClean, h, if_true]; exact ih _

/-! ### RECLAIM -/

theorem memOnly_readDesc (t : FlagPos) (o : Option FlagPos) (cur : Word) (s : State) :
    s.MemOnly (readDesc t o cur s).2 := by
  unfold readDesc
  split
  · exact memOnly_agentTurn _
  · dsimp only
    split
    · split
      · exact memOnly_agentTurn _
      · exact (memOnly_agentTurn _).trans (memOnly_agentTurn _)
    · exact memOnly_agentTurn _

theorem memInv_readDesc (t : FlagPos) (o : Option FlagPos) (cur : Word) (s : State) (h : s.MemInv) :
    (readDesc t o cur s).2.MemInv := by
  unfold readDesc
  split
  · exact memInv_agentTurn _ h
  · dsimp only
    split
    · split
      · exact memInv_agentTurn _ h
      · exact memInv_agentTurn _ (memInv_agentTurn _ h)
    · exact memInv_agentTurn _ h

theorem memOnly_scanLoop (t : FlagPos) (o : Option FlagPos) (k : Nat) (c : Scan) (s : State) :
    s.MemOnly (scanLoop t o k c s).2 := by
  induction k generalizing c s with
  | zero => exact State.MemOnly.refl s
  | succ k ih =>
    have h : s.MemOnly (readDesc t o c.cur (cacheInval c.cur s.ring.stride s)).2 :=
      (memOnly_cacheInval _ _ _).trans (memOnly_readDesc _ _ _ _)
    simp only [scanLoop]
    split
    · exact h
    · split
      · exact h
      · exact h.trans (ih _ _)

theorem memInv_scanLoop (t : FlagPos) (o : Option FlagPos) (k : Nat) (c : Scan) (s : State) (h : s.MemInv) :
    (scanLoop t o k c s).2.MemInv := by
  induction k generalizing c s with
  | zero => exact h
  | succ k ih =>
    have h : (readDesc t o c.cur (cacheInval c.cur s.ring.stride s)).2.MemInv :=
      memInv_readDesc _ _ _ _ (memInv_cacheInval _ _ _ h)
    simp only [scanLoop]
    split
    · exact h
    · split
      · exact h
      · exact ih _ _ h

theorem memOnly_scan (t : FlagPos) (o : Option FlagPos) (limit : Word) (s : State) : s.MemOnly (scan t o limit s).2 :=
  (memOnly_scanLoop _ _ _ _ _).trans (memOnly_agentTurn _)

theorem memInv_scan (t : FlagPos) (o : Option FlagPos) (limit : Word) (s : State) (h : s.MemInv) :
    (scan t o limit s).2.MemInv :=
  memInv_agentTurn _ (memInv_scanLoop _ _ _ _ _ h)

/-! ### CHECK -/

theorem memOnly_checkLinks (k i : Nat) (s : State) : s.MemOnly (checkLinks k i s).2 := by
  induction k generalizing i s with
  | zero => exact State.MemOnly.refl s
  | succ k ih =>
    simp only [checkLinks]
    split
    · exact memOnly_agentTurn _
    · exact (memOnly_agentTurn _).trans (ih _ _)

theorem memInv_checkLinks (k i : Nat) (s : State) (h : s.MemInv) : (checkLinks k i s).2.MemInv := by
  induction k generalizing i s with
  | zero => exact h
  | succ k ih =>
    simp only [checkLinks]
    split
    · exact memInv_agentTurn _ h
    · exact ih _ _ (memInv_agentTurn _ h)

/-! ### How a command ends -/

/-- Every command ends in a next state (R230). -/
@[simp] theorem finishWith_eq (c : ResultCode) (p k : Word) (s : State) :
    finishWith c p k s = .next (s.withRes c p k) := rfl

@[simp] theorem finish_eq (c : ResultCode) (s : State) : finish c s = .next (s.withRes c 0 0) := rfl

/-- A reclaim's end (R183). -/
theorem commit_eq (ret : Nat) (s : State) :
    commit ret s = .next (if ret = 0 then s.withRes .success 0 0
      else (s.withRing (s.ring.reclaim ret)).withRes .success s.ring.hwHead (BitVec.ofNat 32 ret)) := by
  unfold commit
  rcases Nat.eq_zero_or_pos ret with h | h
  · simp [h]
  · simp [h, Nat.pos_iff_ne_zero.1 h]

end Sys2Proof.Machine
end

