-- ==== Sys2Proof/Laws/Cache.lean ====
section
/-! SUPPORT. What cleaning a range, or SUBMIT's slots, does to one byte of a non-coherent platform (R78 item 1, R164). -/

namespace Sys2Proof.Machine
open Sys2Proof.Config

theorem mem_cacheMarkClean {p : Nat → Bool} {cs : List CacheByte} {c : CacheByte} (h : c ∈ cacheMarkClean p cs)
    (hd : c.dirty = true) : c ∈ cs ∧ p c.addr = false := by
  unfold cacheMarkClean at h
  obtain ⟨d, h1, h2⟩ := List.mem_map.1 h
  by_cases hp : p d.addr = true
  · rw [if_pos hp] at h2
    subst h2
    cases hd
  · rw [if_neg hp] at h2
    subst h2
    exact ⟨h1, by simpa using hp⟩

/-- A byte of the range: memory holds what was dirty, and nothing is dirty there. -/
theorem cleanRange_inside {s : State} (hm : s.MemInv) {a n : Word} {x : Nat} (hx : inRange a n x = true) :
    (∀ c ∈ s.cache, c.addr = x → c.dirty = true → (cleanRange a n s).mem.byte x = c.byte) ∧
      ∀ c ∈ (cleanRange a n s).cache, c.addr = x → c.dirty = false := by
  constructor
  · rintro c hc rfl hd
    exact Memory.byte_flush _ _ 0 _ hm.2 c hc (by simp [hx, hd])
  · rintro c hc rfl
    by_contra hd
    have := (mem_cacheMarkClean hc (by simpa using hd)).2
    rw [hx] at this
    cases this

/-- A byte that is not dirty stays as it is. -/
theorem cleanRange_clean {s : State} (a n : Word) {x : Nat} (h : ∀ c ∈ s.cache, c.addr = x → c.dirty = false) :
    (cleanRange a n s).mem.byte x = s.mem.byte x ∧ ∀ c ∈ (cleanRange a n s).cache, c.addr = x → c.dirty = false := by
  constructor
  · apply Memory.byte_flush_other
    intro c hc hq e
    simp only [Bool.and_eq_true] at hq
    rw [h c hc e] at hq
    cases hq.2
  · intro c hc e
    by_contra hd
    have := (mem_cacheMarkClean hc (by simpa using hd)).1
    rw [h c this e] at hd
    exact hd rfl

/-- A cached byte outside the range stays cached as it is. -/
theorem cleanRange_outside {s : State} {a n : Word} {x : Nat} (hx : inRange a n x = false) {c : CacheByte}
    (hc : c ∈ s.cache) (e : c.addr = x) : c ∈ (cleanRange a n s).cache :=
  List.mem_map.2 ⟨c, hc, by rw [e, hx]; rfl⟩

/-- SUBMIT's cleans, with no agent in between (R164): a byte that is not dirty stays, and a dirty byte of one of the slots
is in memory and no longer dirty. -/
theorem cleanSlots_bytes (p : Word) (x k i : Nat) (s : State) (hm : s.MemInv) (hco : s.params.coherent = false)
    (he : s.interleave = []) :
    ((∀ c ∈ s.cache, c.addr = x → c.dirty = false) → (cleanSlots p k i s).mem.byte x = s.mem.byte x ∧
      ∀ c ∈ (cleanSlots p k i s).cache, c.addr = x → c.dirty = false) ∧
    ∀ j, i ≤ j → j < i + k → inRange (s.ring.adv p j) s.ring.stride x = true →
      (∀ c ∈ s.cache, c.addr = x → c.dirty = true → (cleanSlots p k i s).mem.byte x = c.byte) ∧
        ∀ c ∈ (cleanSlots p k i s).cache, c.addr = x → c.dirty = false := by
  induction k generalizing i s with
  | zero => exact ⟨fun h => ⟨rfl, h⟩, fun j h1 h2 => by omega⟩
  | succ k ih =>
    have e : cacheClean (s.ring.adv p i) s.ring.stride s = cleanRange (s.ring.adv p i) s.ring.stride s := by
      simp [cacheClean, hco, he]
    have mo := memOnly_cleanRange (s.ring.adv p i) s.ring.stride s
    obtain ⟨i1, i2⟩ := ih (i + 1) (cleanRange (s.ring.adv p i) s.ring.stride s) (memInv_cleanRange _ _ _ hm)
      (by rw [mo.params]; exact hco) he
    rw [mo.ring] at i2
    simp only [cleanSlots, e]
    constructor
    · intro h
      have := cleanRange_clean (s.ring.adv p i) s.ring.stride h
      obtain ⟨a1, a2⟩ := i1 this.2
      exact ⟨a1.trans this.1, a2⟩
    · intro j h1 h2 h3
      by_cases hin : inRange (s.ring.adv p i) s.ring.stride x = true
      · have := cleanRange_inside hm hin
        obtain ⟨a1, a2⟩ := i1 this.2
        exact ⟨fun c hc e d => a1.trans (this.1 c hc e d), a2⟩
      · rcases Nat.eq_or_lt_of_le h1 with rfl | h1
        · exact absurd h3 hin
        · obtain ⟨a1, a2⟩ := i2 j (by omega) (by omega) h3
          exact ⟨fun c hc e d => a1 c (cleanRange_outside (by simpa using hin) hc e) e d, a2⟩

end Sys2Proof.Machine
end

