-- ==== Sys2Proof/Laws/Layout.lean ====
section
/-! SUPPORT. What CREATE and CLONE leave in memory, loop by loop (R125, R126, R130), as the block reads it where no agent
interferes; and CREATE's operand checks in numbers (R122). -/

namespace Sys2Proof.Machine
open Sys2Proof.Config

/-- The bit trick of R122 (b): a word that is not 0 is a power of two exactly if it has no bit in common with its
predecessor. -/
theorem Word.and_pred_eq_zero_iff {al : Word} (h : al ≠ 0) : al &&& (al - 1) = 0 ↔ ∃ k, al.toNat = 2 ^ k := by
  have h0 : al.toNat ≠ 0 := fun e => h (BitVec.eq_of_toNat_eq (by simpa using e))
  have e1 : (al - 1).toNat = al.toNat - 1 := by
    rw [BitVec.toNat_sub_of_le (by simp [BitVec.le_def]; omega)]
    rfl
  rw [← BitVec.toNat_inj, BitVec.toNat_and, e1]
  exact Nat.and_sub_one_eq_zero_iff_isPowerOfTwo h0

/-- CREATE's checks let exactly the legal operands pass (R122). -/
theorem createBad_eq_false_iff {p : Params} (hp : p.wf = true) (pb vb al cnt : Word) :
    createBad p.minAlign pb vb al cnt = false ↔ CreateLegal p.minAlign pb vb al cnt := by
  have h4 : 4 ≤ p.minAlign.toNat := by
    simp only [Params.wf, Bool.and_eq_true, decide_eq_true_eq] at hp
    exact hp.1.1.1
  unfold createBad CreateLegal
  simp only [Bool.or_eq_false_iff, decide_eq_false_iff_not, BitVec.lt_def, not_lt, ne_eq, not_not]
  constructor
  · rintro ⟨⟨⟨⟨h1, h2⟩, h3⟩, h5⟩, h6⟩
    refine ⟨h1, (Word.and_pred_eq_zero_iff ?_).1 h2, Nat.dvd_of_mod_eq_zero h3, Nat.dvd_of_mod_eq_zero h5, ?_⟩
    · rintro rfl
      simp at h1
      omega
    · exact fun e => h6 (BitVec.eq_of_toNat_eq e)
  · rintro ⟨h1, h2, h3, h5, h6⟩
    refine ⟨⟨⟨⟨h1, (Word.and_pred_eq_zero_iff ?_).2 h2⟩, Nat.mod_eq_zero_of_dvd h3⟩, Nat.mod_eq_zero_of_dvd h5⟩, ?_⟩
    · rintro rfl
      simp at h1
      omega
    · rintro rfl
      exact h6 rfl

@[simp] theorem createBegin_params (s : State) : (createBegin s).params = s.params := by
  unfold createBegin
  split <;> rfl

@[simp] theorem createBegin_cap (s : State) : (createBegin s).ring.cap = 0 := by
  unfold createBegin
  split <;> rfl

@[simp] theorem createBegin_readByte (s : State) (a : Word) : (createBegin s).readByte a = s.readByte a := by
  unfold createBegin
  split <;> rfl

/-- The zeroed region (R125, R126): each of its words is 0, any other aligned word and any byte outside is as before. -/
theorem zeroWords_reads (k : Nat) (a : Word) (s : State) (hr : s.ring.cap = 0) (hq : s.Quiet) (ha : a.toNat % 4 = 0)
    (hk : a.toNat + 4 * k ≤ 2 ^ 32) :
    (∀ b : Word, b.toNat % 4 = 0 → (zeroWords k a s).readWord b =
      if a.toNat ≤ b.toNat ∧ b.toNat < a.toNat + 4 * k then 0 else s.readWord b) ∧
    ∀ x : Word, x.toNat < a.toNat ∨ a.toNat + 4 * k ≤ x.toNat → (zeroWords k a s).readByte x = s.readByte x := by
  have noHw : ∀ x, s.ring.hwOwned x = false := RingRegs.hwOwned_noRing hr
  induction k generalizing a s with
  | zero =>
    refine ⟨fun b _ => ?_, fun x _ => rfl⟩
    rw [if_neg (by omega)]
    rfl
  | succ k ih =>
    have hm := memOnly_memWrite a 0 s
    rcases Nat.eq_zero_or_pos k with rfl | hpos
    · simp only [zeroWords]
      refine ⟨fun b hb => ?_, fun x hx => readByte_memWrite_other (.inl hr) hq ha (by omega) (noHw x)⟩
      rw [readWord_memWrite_eq (.inl hr) hq noHw ha hb]
      by_cases h : b = a
      · subst h
        simp
      · rw [if_neg h, if_neg]
        exact fun hh => h (BitVec.eq_of_toNat_eq (by omega))
    · have e : (a + 4).toNat = a.toNat + 4 := by
        rw [BitVec.toNat_add]
        simp
        omega
      obtain ⟨i1, i2⟩ := ih (a + 4) (memWrite a 0 s) (by rw [hm.ring]; exact hr) (quiet_memWrite hq _ _) (by omega)
        (by omega) (by rw [hm.ring]; exact noHw)
      rw [e] at i1 i2
      simp only [zeroWords]
      constructor
      · intro b hb
        rw [i1 b hb, readWord_memWrite_eq (.inl hr) hq noHw ha hb]
        by_cases h : b = a
        · subst h
          simp
        · have : b.toNat ≠ a.toNat := fun e => h (BitVec.eq_of_toNat_eq e)
          simp only [h, if_false]
          by_cases h2 : a.toNat + 4 ≤ b.toNat ∧ b.toNat < a.toNat + 4 + 4 * k
          · rw [if_pos h2, if_pos (by omega)]
          · rw [if_neg h2, if_neg (by omega)]
      · intro x hx
        rw [i2 x (by omega)]
        exact readByte_memWrite_other (.inl hr) hq ha (by omega) (noHw x)

/-- The address of descriptor `j` in a region that does not wrap. -/
theorem slot_toNat {vb st : Word} {j n : Nat} (h0 : 0 < st.toNat) (hj : j ≤ n)
    (hk : vb.toNat + n * st.toNat < 2 ^ 32) : (vb + BitVec.ofNat 32 j * st).toNat = vb.toNat + j * st.toNat := by
  have h1 : j * st.toNat ≤ n * st.toNat := Nat.mul_le_mul_right _ hj
  have h2 : j ≤ j * st.toNat := Nat.le_mul_of_pos_right _ h0
  rw [BitVec.toNat_add, BitVec.toNat_mul, BitVec.toNat_ofNat, Nat.mod_eq_of_lt (by omega : j < 2 ^ 32),
    Nat.mod_eq_of_lt (by omega : _ * _ < 2 ^ 32), Nat.mod_eq_of_lt (by omega)]

theorem slot_mod {vb st : Word} {j n : Nat} (h0 : 0 < st.toNat) (hj : j ≤ n)
    (hk : vb.toNat + n * st.toNat < 2 ^ 32) (hv : vb.toNat % 4 = 0) (hst : st.toNat % 4 = 0) :
    (vb + BitVec.ofNat 32 j * st).toNat % 4 = 0 := by
  rw [slot_toNat h0 hj hk, Nat.add_mod, hv, Nat.mul_mod, hst, Nat.mul_zero]

/-- The links (R125): descriptor `j` of those linked reads its successor's physical address, every other aligned word and
every byte of another word is as before. -/
theorem writeLinks_reads (pb vb st : Word) (k i : Nat) (s : State) (hr : s.ring.cap = 0) (hq : s.Quiet)
    (hv : vb.toNat % 4 = 0) (hst : st.toNat % 4 = 0) (h0 : 0 < st.toNat)
    (hk : vb.toNat + (i + k) * st.toNat < 2 ^ 32) :
    (∀ j, i ≤ j → j < i + k → (writeLinks pb vb st k i s).readWord (vb + BitVec.ofNat 32 j * st) =
      pb + BitVec.ofNat 32 (j + 1) * st) ∧
    (∀ b : Word, b.toNat % 4 = 0 → (∀ j, i ≤ j → j < i + k → b ≠ vb + BitVec.ofNat 32 j * st) →
      (writeLinks pb vb st k i s).readWord b = s.readWord b) ∧
    ∀ x : Word, (∀ j, i ≤ j → j < i + k → x.toNat / 4 ≠ (vb + BitVec.ofNat 32 j * st).toNat / 4) →
      (writeLinks pb vb st k i s).readByte x = s.readByte x := by
  have noHw : ∀ x, s.ring.hwOwned x = false := RingRegs.hwOwned_noRing hr
  induction k generalizing i s with
  | zero => exact ⟨fun j h1 h2 => by omega, fun b _ _ => rfl, fun x _ => rfl⟩
  | succ k ih =>
    have ei := slot_mod h0 (show i ≤ i + (k + 1) by omega) hk hv hst
    have hm := memOnly_memWrite (vb + BitVec.ofNat 32 i * st) (pb + BitVec.ofNat 32 (i + 1) * st) s
    obtain ⟨i1, i2, i3⟩ := ih (i + 1) (memWrite (vb + BitVec.ofNat 32 i * st) (pb + BitVec.ofNat 32 (i + 1) * st) s)
      (by rw [hm.ring]; exact hr) (quiet_memWrite hq _ _)
      (by rw [show i + 1 + k = i + (k + 1) by omega]; exact hk) (by rw [hm.ring]; exact noHw)
    simp only [writeLinks]
    refine ⟨fun j h1 h2 => ?_, fun b hb hne => ?_, fun x hx => ?_⟩
    · rcases Nat.eq_or_lt_of_le h1 with rfl | h1
      · rw [i2 _ ei, readWord_memWrite]
        intro j h3 h4 h5
        have := congrArg BitVec.toNat h5
        rw [slot_toNat h0 (show i ≤ i + (k + 1) by omega) hk, slot_toNat h0 (show j ≤ i + (k + 1) by omega) hk] at this
        have h6 := Nat.mul_lt_mul_of_pos_right (show i < j by omega) h0
        omega
      · exact i1 j (by omega) (by omega)
    · rw [i2 b hb (fun j h1 h2 => hne j (by omega) (by omega))]
      exact readWord_memWrite_other (.inl hr) hq ei hb (hne i (by omega) (by omega)) noHw
    · rw [i3 x (fun j h1 h2 => hx j (by omega) (by omega))]
      exact readByte_memWrite_other (.inl hr) hq ei (hx i (by omega) (by omega)) (noHw x)

/-- The template in the descriptors `i` to `i + k - 1` of a sound ring without a hardware partition (R130, R131); every
other descriptor word, and every byte of no descriptor, is as before. -/
theorem cloneDescs_reads (t0 t1 : Word) (k i : Nat) (s : State) (hr : s.ring.Sound) (hc : s.ring.cap ≠ 0)
    (hw : s.ring.hwCnt = 0) (hq : s.Quiet) (hk : i + k ≤ s.ring.cap.toNat) :
    (∀ m (j : Fin 2), m < s.ring.cap.toNat → (cloneDescs t0 t1 k i s).readWord (wordAddr (s.ring.ptr m) j) =
      if i ≤ m ∧ m < i + k then (if j = 0 then t0 else t1) else s.readWord (wordAddr (s.ring.ptr m) j)) ∧
    ∀ x : Word, ¬s.ring.inDesc x → (cloneDescs t0 t1 k i s).readByte x = s.readByte x := by
  have noHw : ∀ x, s.ring.hwOwned x = false := RingRegs.hwOwned_noHw hw
  induction k generalizing i s with
  | zero =>
    refine ⟨fun m j _ => ?_, fun x _ => rfl⟩
    rw [if_neg (by omega)]
    rfl
  | succ k ih =>
    have m0 := memOnly_memWrite (wordAddr (s.ring.ptr i) 0) t0 s
    have q0 := quiet_memWrite hq (wordAddr (s.ring.ptr i) 0) t0
    have m1 := m0.trans (memOnly_memWrite (wordAddr (s.ring.ptr i) 1) t1 _)
    have r0 : (memWrite (wordAddr (s.ring.ptr i) 0) t0 s).ring.cap = 0 ∨
        (memWrite (wordAddr (s.ring.ptr i) 0) t0 s).ring.Sound := by rw [m0.ring]; exact .inr hr
    have o0 : ∀ x, (memWrite (wordAddr (s.ring.ptr i) 0) t0 s).ring.hwOwned x = false := by rw [m0.ring]; exact noHw
    obtain ⟨i1, i2⟩ := ih (i + 1) (memWrite (wordAddr (s.ring.ptr i) 1) t1 (memWrite (wordAddr (s.ring.ptr i) 0) t0 s))
      (by rw [m1.ring]; exact hr) (by rw [m1.ring]; exact hc) (by rw [m1.ring]; exact hw)
      (quiet_memWrite q0 (wordAddr (s.ring.ptr i) 1) t1) (by rw [m1.ring]; omega) (by rw [m1.ring]; exact noHw)
    rw [m1.ring] at i1 i2
    have hi : i < s.ring.cap.toNat := by omega
    simp only [cloneDescs]
    constructor
    · intro m j hm
      rw [i1 m j hm, readWord_memWrite_eq r0 q0 o0 (hr.wordAddr_mod hc hi 1) (hr.wordAddr_mod hc hm j),
        readWord_memWrite_eq (.inr hr) hq noHw (hr.wordAddr_mod hc hi 0) (hr.wordAddr_mod hc hm j)]
      by_cases hmi : m = i
      · subst hmi
        rw [if_neg (by omega), if_pos (show m ≤ m ∧ m < m + (k + 1) by omega)]
        by_cases hj : j = 0
        · subst hj
          rw [if_neg, if_pos rfl, if_pos rfl]
          exact fun e => absurd (hr.wordAddr_inj hc hi hi e).2 (by decide)
        · have : j = 1 := by omega
          subst this
          rw [if_pos rfl, if_neg (by decide)]
      · have hne : ∀ j', wordAddr (s.ring.ptr m) j ≠ wordAddr (s.ring.ptr i) j' :=
          fun j' e => hmi (hr.wordAddr_inj hc hm hi e).1
        rw [if_neg (hne 1), if_neg (hne 0)]
        by_cases h2 : i + 1 ≤ m ∧ m < i + 1 + k
        · rw [if_pos h2, if_pos (show i ≤ m ∧ m < i + (k + 1) by omega)]
        · rw [if_neg h2, if_neg (show ¬(i ≤ m ∧ m < i + (k + 1)) by omega)]
    · intro x hx
      have hxn : ∀ j : Fin 2, x.toNat / 4 ≠ (wordAddr (s.ring.ptr i) j).toNat / 4 := by
        intro j e
        have a1 := hr.wordAddr_toNat hc hi j
        have a2 := hr.wordAddr_mod hc hi j
        refine hx ⟨i, hi, by omega, ?_⟩
        show _ < _ + 8
        omega
      rw [i2 x hx, readByte_memWrite_other r0 q0 (hr.wordAddr_mod hc hi 1) (hxn 1) (o0 x),
        readByte_memWrite_other (.inr hr) hq (hr.wordAddr_mod hc hi 0) (hxn 0) (noHw x)]

/-- A ring as CREATE leaves it is sound (R30 to R36, R127), whatever its legal bases, stride and count. -/
theorem createdRing_sound {pb vb st cnt : Word} (hst : ∃ k, 3 ≤ k ∧ st.toNat = 2 ^ k) (hv : vb.toNat % 4 = 0)
    (hp : pb.toNat % 4 = 0) (hc : cnt ≠ 0) (hw : vb.toNat + cnt.toNat * st.toNat ≤ 2 ^ 32) :
    (createdRing pb vb st cnt).Sound := by
  have h8 : 8 ≤ st.toNat := by
    obtain ⟨k, hk, he⟩ := hst
    rw [he]
    exact Nat.pow_le_pow_right (n := 2) (by omega) hk
  have hpos := Word.toNat_pos hc
  have g : (createdRing pb vb st cnt).Geo := ⟨hpos, show 0 < st.toNat by omega, hw⟩
  have hb : (createdRing pb vb st cnt).IsPtr vb := ⟨0, hpos, by simp [createdRing]⟩
  have hmul : (cnt.toNat - 1) * st.toNat + st.toNat = cnt.toNat * st.toNat := by
    rw [← Nat.succ_mul]
    congr
    omega
  have e1 : cnt - 1 = BitVec.ofNat 32 (cnt.toNat - 1) := by
    apply BitVec.eq_of_toNat_eq
    rw [BitVec.toNat_sub_of_le (by simp [BitVec.le_def]; omega), BitVec.toNat_ofNat,
      Nat.mod_eq_of_lt (by have := cnt.isLt; omega)]
    rfl
  exact {
    sum := by simp [createdRing]
    stride := hst
    high := by
      show (vb + (cnt - 1) * st).toNat = _
      rw [e1, slot_toNat (n := cnt.toNat - 1) (by omega) (by omega) (by omega)]
      rfl
    noWrap := hw
    baseAligned := hv
    pbaseAligned := hp
    restart := rfl
    hwHead := (g.adv_zero hb).symm
    preHead := (g.adv_zero hb).symm
    freeHead := (g.adv_zero hb).symm
    postHead := (g.adv_cap hb).symm
    freePtr := hb
    prePtr := hb
    hwPtr := hb
    tailPtr := hb
    postPtr := hb
    tail := fun h => absurd rfl h }

end Sys2Proof.Machine
end

