-- ==== Sys2Proof/Laws/Scan.lean ====
section
/-! SUPPORT. The scan of a reclaim (R181) and CHECK's link walk (R210), said once: how far they go under any interleaving,
and exactly what they find where no agent interferes. -/

namespace Sys2Proof.Machine
open Sys2Proof.Config

/-! ### The scan -/

theorem reading_readDesc (t : FlagPos) (o : Option FlagPos) (cur : Word) (s : State) :
    s.Reading (readDesc t o cur s).2 := by
  unfold readDesc
  split
  · exact reading_agentTurn _
  · dsimp only
    split
    · split
      · exact reading_agentTurn _
      · exact (reading_agentTurn _).trans (reading_agentTurn _)
    · exact reading_agentTurn _

theorem reading_scanLoop (t : FlagPos) (o : Option FlagPos) (k : Nat) (c : Scan) (s : State) :
    s.Reading (scanLoop t o k c s).2 := by
  induction k generalizing c s with
  | zero => exact .refl s
  | succ k ih =>
    have h := (reading_cacheInval c.cur s.ring.stride s).trans (reading_readDesc t o c.cur _)
    simp only [scanLoop]
    split
    · exact h
    · split
      · exact h
      · exact h.trans (ih _ _)

theorem reading_scan (t : FlagPos) (o : Option FlagPos) (limit : Word) (s : State) : s.Reading (scan t o limit s).2 :=
  (reading_scanLoop _ _ _ _ _).trans (reading_agentTurn _)

/-- Under any interleaving a scan of a sound ring counts no more than its limit and than the hardware partition holds. -/
theorem scanLoop_count_le (t : FlagPos) (o : Option FlagPos) {r : RingRegs} (hs : r.Sound) (hc : r.cap ≠ 0)
    (hw : r.hwCnt ≠ 0) (k : Nat) (c : Scan) (s : State) (hr : s.ring = r) (h1 : c.count < r.hwCnt.toNat)
    (h2 : c.cur = r.adv r.hwHead c.count) :
    (scanLoop t o k c s).1.count ≤ c.count + k ∧ (scanLoop t o k c s).1.count ≤ r.hwCnt.toNat := by
  have g := hs.geo hc
  induction k generalizing c s with
  | zero => exact ⟨by simp [scanLoop], by simp [scanLoop]; omega⟩
  | succ k ih =>
    have hm : s.MemOnly (readDesc t o c.cur (cacheInval c.cur s.ring.stride s)).2 :=
      (memOnly_cacheInval _ _ _).trans (memOnly_readDesc _ _ _ _)
    simp only [scanLoop, hm.ring]
    split
    · dsimp only
      exact ⟨by omega, by omega⟩
    · split
      · simp only [Scan.counted]
        exact ⟨by omega, by omega⟩
      · rename_i ter _ hne
        have hlt : c.count + 1 < r.hwCnt.toNat := by
          by_contra hcon
          apply hne
          rw [h2, hr, (hs.tail hw).1, show r.hwCnt.toNat - 1 = c.count by omega]
        have := ih { (c.counted ter) with cur := s.ring.adv c.cur 1 }
          (readDesc t o c.cur (cacheInval c.cur s.ring.stride s)).2 (by rw [hm.ring]; exact hr)
          (by simpa [Scan.counted] using hlt) (by simp only [Scan.counted]; rw [hr, h2, g.adv_adv hs.hwPtr])
        simp only [Scan.counted] at this ⊢
        exact ⟨by omega, this.2⟩

/-- With no agent in between, what the scan reads of one descriptor. -/
theorem readDesc_of_empty (t : FlagPos) (o : Option FlagPos) {s : State} (h : s.interleave = []) (p : Word) :
    readDesc t o p s =
      ((match o with
        | none => some (flagOf (s.readWord (wordAddr p t.word)) t)
        | some f =>
          if flagOf (s.readWord (wordAddr p f.word)) f then some (flagOf (s.readWord (wordAddr p t.word)) t)
          else none), s) := by
  unfold readDesc
  cases o with
  | none => simp only [memRead_of_empty h]
  | some f =>
    simp only [memRead_of_empty h]
    split
    · split
      · rename_i e
        rw [e]
      · rfl
    · rfl

/-- With no agent in between, a scan of a sound ring from a cursor that has counted `c.count` descriptors reads as far as
R181 says and ends with the last complete packet's end; it changes the cache alone. -/
theorem scanLoop_of_empty (t : FlagPos) (o : Option FlagPos) (s : State) (hs : s.ring.Sound) (hc : s.ring.cap ≠ 0)
    (hw : s.ring.hwCnt ≠ 0) (he : s.interleave = []) (k : Nat) (c : Scan) (cs : List CacheByte)
    (hcs : s.params.coherent = true → cs = s.cache) (h1 : c.count < s.ring.hwCnt.toNat)
    (h2 : c.cur = s.ring.adv s.ring.hwHead c.count) (h3 : c.open_ ≤ c.count)
    (h4 : PacketEnd s t c.count (c.count - c.open_))
    (h5 : ∀ q, q < c.count → ∀ f, o = some f → s.hwFlag f q = true) :
    ∃ d cs', scanLoop t o k c { s with cache := cs } = (d, { s with cache := cs' }) ∧
      (s.params.coherent = true → cs' = s.cache) ∧ d.open_ ≤ d.count ∧ ScanLength s o (c.count + k) d.count ∧
      PacketEnd s t d.count (d.count - d.open_) := by
  have g := hs.geo hc
  induction k generalizing c cs with
  | zero => exact ⟨c, cs, rfl, hcs, h3, ⟨by omega, by omega, h5, fun h => by omega⟩, h4⟩
  | succ k ih =>
    obtain ⟨cs1, e1, e2⟩ := cacheInval_of_empty (s := { s with cache := cs }) he c.cur s.ring.stride
    have hcs1 : s.params.coherent = true → cs1 = s.cache := fun h => (e2 h).trans (hcs h)
    have hptr : s.ring.IsPtr c.cur := by rw [h2]; exact g.isPtr_adv _ _
    have hread : ∀ j, State.readWord { s with cache := cs1 } (wordAddr c.cur j) = s.hwWord c.count j := by
      intro j
      obtain ⟨i, hi, e⟩ := hptr
      have b1 := s.ring.slot_le hi
      have b2 := g.noWrap
      have b3 := hs.stride_ge
      have := readWord_cacheInval (s := { s with cache := cs }) he c.cur s.ring.stride j (by omega) hs.stride_ge
      rw [e1] at this
      rw [this, State.hwWord, h2]
    have hd := readDesc_of_empty t o (s := { s with cache := cs1 }) he c.cur
    simp only [hread] at hd
    have hfl : ∀ f : FlagPos, flagOf (s.hwWord c.count f.word) f = s.hwFlag f c.count := fun _ => rfl
    simp only [hfl] at hd
    simp only [scanLoop]
    rw [show ({ s with cache := cs } : State).ring = s.ring from rfl, e1, hd]
    have go : (∀ f, o = some f → s.hwFlag f c.count = true) →
        ∃ d cs', (if c.cur = s.ring.hwTail then (c.counted (s.hwFlag t c.count), ({ s with cache := cs1 } : State))
          else scanLoop t o k { (c.counted (s.hwFlag t c.count)) with cur := s.ring.adv c.cur 1 }
            { s with cache := cs1 }) = (d, { s with cache := cs' }) ∧
          (s.params.coherent = true → cs' = s.cache) ∧ d.open_ ≤ d.count ∧
          ScanLength s o (c.count + (k + 1)) d.count ∧ PacketEnd s t d.count (d.count - d.open_) := by
      intro hof
      have n3 : (c.counted (s.hwFlag t c.count)).open_ ≤ (c.counted (s.hwFlag t c.count)).count := by
        simp only [Scan.counted]
        split <;> omega
      have n4 : PacketEnd s t (c.counted (s.hwFlag t c.count)).count
          ((c.counted (s.hwFlag t c.count)).count - (c.counted (s.hwFlag t c.count)).open_) := by
        obtain ⟨p1, p2, p3⟩ := h4
        simp only [Scan.counted]
        by_cases hT : s.hwFlag t c.count = true
        · rw [if_pos hT]
          exact ⟨by omega, fun _ => by simpa using hT, fun q _ _ => by omega⟩
        · rw [if_neg hT, show c.count + 1 - (c.open_ + 1) = c.count - c.open_ by omega]
          refine ⟨by omega, p2, fun q hq1 hq2 => ?_⟩
          rcases Nat.lt_or_ge q c.count with h | h
          · exact p3 q hq1 h
          · rw [show q = c.count by omega]
            simpa using hT
      have n5 : ∀ q, q < (c.counted (s.hwFlag t c.count)).count → ∀ f, o = some f → s.hwFlag f q = true := by
        intro q hq f hf
        simp only [Scan.counted] at hq
        rcases Nat.lt_or_ge q c.count with h | h
        · exact h5 q h f hf
        · rw [show q = c.count by omega]
          exact hof f hf
      split
      · rename_i htail
        have hlast : c.count = s.ring.hwCnt.toNat - 1 := by
          have hsum := hs.sum
          apply g.adv_inj hs.hwPtr (by omega) (by omega)
          rw [← h2, ← (hs.tail hw).1, htail]
        exact ⟨_, cs1, rfl, hcs1, n3, ⟨by simp only [Scan.counted]; omega, by simp only [Scan.counted]; omega, n5,
          fun _ h => by simp only [Scan.counted] at h; omega⟩, n4⟩
      · rename_i hne
        have hlt : c.count + 1 < s.ring.hwCnt.toNat := by
          by_contra hcon
          apply hne
          rw [h2, (hs.tail hw).1, show s.ring.hwCnt.toNat - 1 = c.count by omega]
        obtain ⟨d, cs', a1, a2, a3, a4, a5⟩ := ih { (c.counted (s.hwFlag t c.count)) with cur := s.ring.adv c.cur 1 }
          cs1 hcs1 hlt (by simp only [Scan.counted]; rw [h2, g.adv_adv hs.hwPtr]) n3 n4 n5
        refine ⟨d, cs', a1, a2, a3, ?_, a5⟩
        simp only [Scan.counted] at a4
        rwa [show c.count + 1 + k = c.count + (k + 1) by omega] at a4
    cases o with
    | none => exact go (by rintro f ⟨⟩)
    | some f =>
      dsimp only
      by_cases hff : s.hwFlag f c.count = true
      · rw [if_pos hff]
        exact go (by rintro f' ⟨⟩; exact hff)
      · rw [if_neg hff]
        exact ⟨c, cs1, rfl, hcs1, h3, ⟨by omega, by omega, h5, fun _ _ => ⟨f, rfl, by simpa using hff⟩⟩, h4⟩

/-! ### The link walk -/

theorem reading_checkLinks (k i : Nat) (s : State) : s.Reading (checkLinks k i s).2 := by
  induction k generalizing i s with
  | zero => exact .refl s
  | succ k ih =>
    simp only [checkLinks]
    split
    · exact reading_agentTurn _
    · exact (reading_agentTurn _).trans (ih _ _)

/-- With no agent in between, the walk stops at the first link that differs, or finds none, and changes nothing. -/
theorem checkLinks_of_empty {s : State} (h : s.interleave = []) (k i : Nat) :
    (∀ m, i ≤ m → m < i + k → (∀ j, i ≤ j → j < m → s.readWord (wordAddr (s.ring.ptr j) 0) = s.ring.link j) →
      s.readWord (wordAddr (s.ring.ptr m) 0) ≠ s.ring.link m → checkLinks k i s = (some (s.ring.ptr m), s)) ∧
    ((∀ j, i ≤ j → j < i + k → s.readWord (wordAddr (s.ring.ptr j) 0) = s.ring.link j) →
      checkLinks k i s = (none, s)) := by
  induction k generalizing i with
  | zero => exact ⟨fun m h1 h2 => by omega, fun _ => rfl⟩
  | succ k ih =>
    simp only [checkLinks, memRead_of_empty h]
    constructor
    · intro m h1 h2 h3 h4
      rcases Nat.eq_or_lt_of_le h1 with rfl | h5
      · rw [if_pos h4]
      · rw [if_neg (not_not.2 (h3 i (by omega) h5))]
        exact (ih (i + 1)).1 m (by omega) (by omega) (fun j a b => h3 j (by omega) b) h4
    · intro h3
      rw [if_neg (not_not.2 (h3 i (by omega) (by omega)))]
      exact (ih (i + 1)).2 (fun j a b => h3 j (by omega) (by omega))

/-- With no agent in between, the walk changes nothing. -/
theorem checkLinks_state_of_empty {s : State} (h : s.interleave = []) (k i : Nat) : (checkLinks k i s).2 = s := by
  induction k generalizing i with
  | zero => rfl
  | succ k ih =>
    simp only [checkLinks, memRead_of_empty h]
    split
    · rfl
    · exact ih _

end Sys2Proof.Machine
end

