-- ==== Sys2Proof/Laws/Commands.lean ====
section
/-! SUPPORT. Everything a command can do, said once for each of those that touch memory; and what a step does first. -/

namespace Sys2Proof.Machine
open Sys2Proof.Config

/-- A step takes the first event off the schedule and runs it (log 8). -/
theorem step_of_cons {s : State} {e : Event} {rest : List Event} (h : s.events = e :: rest) :
    step s = runEvent e { s with events := rest } := by
  unfold step
  rw [h]

/-- The offset of a register at its own place in the map. -/
theorem regOffset_at (p : Params) {off : Nat} (h : off < 256) (h4 : off % 4 = 0) :
    regOffset p (p.regBase + BitVec.ofNat 32 off) .w32 = some off := by
  have : (p.regBase + BitVec.ofNat 32 off - p.regBase).toNat = off := by
    rw [show p.regBase + BitVec.ofNat 32 off - p.regBase = BitVec.ofNat 32 off by ring, BitVec.toNat_ofNat]
    omega
  simp only [regOffset, this, h, h4]
  rfl

/-- CREATE (R120, R128): refused with no ring left, or the region laid out and every ring register set. -/
theorem execCreate_cases (s t : State) (h : execCreate s = .next t) :
    (∃ c, c ≠ .success ∧ t = (createBegin s).withRes c 0 0) ∨
    ∃ st, t = State.withRes
        { (layRing s.args.arg0 s.args.arg1 st s.args.arg3 (createBegin s)).withRing
            (createdRing s.args.arg0 s.args.arg1 st s.args.arg3) with ringWritten := true } .success 0 0 ∧
      st = createStride s.args.arg2 ∧
      createBad s.params.minAlign s.args.arg0 s.args.arg1 s.args.arg2 s.args.arg3 = false ∧
      createWraps s.args.arg1 st s.args.arg3 = false := by
  simp only [execCreate, finish_eq, createBegin_params] at h
  split at h
  · cases h
    exact .inl ⟨_, by decide, rfl⟩
  · split at h
    · cases h
      exact .inl ⟨_, by decide, rfl⟩
    · cases h
      rename_i h1 h2
      exact .inr ⟨_, rfl, rfl, Bool.not_eq_true _ ▸ h1, Bool.not_eq_true _ ▸ h2⟩

/-- CLONE changes memory and `RES` only, and keeps the canonical forms. -/
theorem execClone_cases (d : DirField) (s t : State) (h : execClone d s = .next t) :
    ∃ u, s.MemOnly u ∧ (∃ c p k, t = u.withRes c p k) ∧ (s.MemInv → u.MemInv) := by
  unfold execClone at h
  repeat' split at h
  all_goals cases h
  · exact ⟨s, .refl s, ⟨_, _, _, rfl⟩, id⟩
  · exact ⟨s, .refl s, ⟨_, _, _, rfl⟩, id⟩
  · exact ⟨s, .refl s, ⟨_, _, _, rfl⟩, id⟩
  · exact ⟨s, .refl s, ⟨_, _, _, rfl⟩, id⟩
  · exact ⟨_, (memOnly_cloneDescs _ _ _ _ _).trans (memOnly_setFlag _ _ _), ⟨_, _, _, rfl⟩,
      fun h => memInv_setFlag _ _ _ (memInv_cloneDescs _ _ _ _ _ h)⟩

/-- CHECK reads and writes `RES`; with no agent in between it changes nothing else. -/
theorem execCheck_cases (d : DirField) (s t : State) (h : execCheck d s = .next t) :
    ∃ u, s.Reading u ∧ (s.interleave = [] → u = s) ∧ (∃ c p k, t = u.withRes c p k) ∧ (s.MemInv → u.MemInv) := by
  have e1 := fun he => checkLinks_state_of_empty (s := s) he (s.ring.cap.toNat - 1) 0
  have e2 := memInv_checkLinks (s.ring.cap.toNat - 1) 0 s
  have e3 := reading_checkLinks (s.ring.cap.toNat - 1) 0 s
  have e4 : s.interleave = [] → agentTurn (checkLinks (s.ring.cap.toNat - 1) 0 s).2 = s := by
    intro he
    rw [e1 he, agentTurn_of_empty he]
  simp only [execCheck, checkMemory, checkWrap, finishWith_eq] at h
  repeat' split at h
  all_goals cases h
  · exact ⟨s, .refl s, fun _ => rfl, ⟨_, _, _, rfl⟩, id⟩
  · exact ⟨s, .refl s, fun _ => rfl, ⟨_, _, _, rfl⟩, id⟩
  · exact ⟨s, .refl s, fun _ => rfl, ⟨_, _, _, rfl⟩, id⟩
  · exact ⟨s, .refl s, fun _ => rfl, ⟨_, _, _, rfl⟩, id⟩
  · exact ⟨_, e3, e1, ⟨_, _, _, rfl⟩, e2⟩
  · exact ⟨_, e3.trans (reading_agentTurn _), e4, ⟨_, _, _, rfl⟩, fun h => memInv_agentTurn _ (e2 h)⟩
  · exact ⟨_, e3.trans (reading_agentTurn _), e4, ⟨_, _, _, rfl⟩, fun h => memInv_agentTurn _ (e2 h)⟩
  · exact ⟨s, .refl s, fun _ => rfl, ⟨_, _, _, rfl⟩, id⟩

/-- A reclaim ends at once, or scans and commits (R182, R183). -/
theorem reclaim_cases (t : FlagPos) (o : Option FlagPos) (l : Word) (s v : State) (h : reclaim t o l s = .next v) :
    (∃ c, v = s.withRes c 0 0 ∧ (c ≠ .success → c = .noList ∧ s.ring.cap = 0)) ∨
    (s.ring.cap ≠ 0 ∧ s.ring.hwCnt ≠ 0 ∧ commit (scan t o l s).1 (scan t o l s).2 = .next v) := by
  unfold reclaim at h
  split at h
  · cases h
    exact .inl ⟨_, rfl, fun _ => ⟨rfl, ‹_›⟩⟩
  · split at h
    · cases h
      exact .inl ⟨_, rfl, fun h => absurd rfl h⟩
    · exact .inr ⟨‹_›, ‹_›, h⟩

/-- A reclaim reads, writes `RES`, and moves the ring registers by R183 or not at all. -/
theorem reclaim_reading (t : FlagPos) (o : Option FlagPos) (l : Word) (s v : State) (h : reclaim t o l s = .next v) :
    ∃ u, s.Reading u ∧ (s.MemInv → u.MemInv) ∧
      ∃ r c p k, v = (u.withRing r).withRes c p k ∧ (r = s.ring ∨ ∃ n, r = s.ring.reclaim n) := by
  rcases reclaim_cases t o l s v h with ⟨c, rfl, -⟩ | ⟨-, -, h3⟩
  · exact ⟨s, .refl s, id, s.ring, c, 0, 0, rfl, .inl rfl⟩
  · rw [commit_eq] at h3
    cases h3
    have hm := reading_scan t o l s
    refine ⟨(scan t o l s).2, hm, memInv_scan t o l s, ?_⟩
    split
    · exact ⟨(scan t o l s).2.ring, _, _, _, rfl, .inl hm.only.ring⟩
    · exact ⟨_, _, _, _, rfl, .inr ⟨_, by rw [hm.only.ring]⟩⟩

end Sys2Proof.Machine
end

