-- ==== Sys2Proof/Laws/HostAccess.lean ====
section
/-! SUPPORT. What the host's accesses to descriptor memory return and leave, byte by byte (20_memory.md R67, R75). -/

namespace Sys2Proof.Machine
open Sys2Proof.Config

/-- A read is zero-extended. -/
theorem hostValue_lt (s : State) (a : Word) (w : Width) : (hostValue s a w).toNat < 2 ^ (8 * w.bytes) := by
  cases w
  · simp only [hostValue, Width.bytes, BitVec.toNat_setWidth]
    exact Nat.lt_of_le_of_lt (Nat.mod_le _ _) (BitVec.isLt _)
  · simp only [hostValue, Width.bytes]
    split <;> simp only [BitVec.toNat_setWidth] <;> exact Nat.lt_of_le_of_lt (Nat.mod_le _ _) (BitVec.isLt _)
  · exact BitVec.isLt _

/-- Byte `k` of a read is the byte that lies where `ENDIAN` puts it. -/
theorem hostValue_byte (s : State) (a : Word) {w : Width} {k : Nat} (hk : k < w.bytes) :
    (hostValue s a w).extractLsb' (8 * k) 8 =
      s.readByte (a + BitVec.ofNat 32 (byteIndex s.params.endian w.bytes k)) := by
  cases w <;> simp only [Width.bytes] at hk ⊢ <;> interval_cases k <;> cases he : s.params.endian <;>
    simp only [hostValue, byteIndex, he, State.readWord, wordOfBytes, Nat.mul_zero, Nat.sub_self] <;>
    (apply BitVec.eq_of_getLsbD_eq
     intro i hi
     simp only [BitVec.getLsbD_extractLsb', BitVec.getLsbD_setWidth, BitVec.getLsbD_append]
     interval_cases i <;> simp)

/-- The byte that lies where `ENDIAN` puts byte `k` is byte `k` of the value written. -/
theorem readByte_hostStore (s : State) (a v : Word) {w : Width} {k : Nat} (hk : k < w.bytes) :
    (hostStore s a v w).readByte (a + BitVec.ofNat 32 (byteIndex s.params.endian w.bytes k)) =
      v.extractLsb' (8 * k) 8 := by
  cases w <;> simp only [Width.bytes] at hk ⊢ <;> interval_cases k <;> cases he : s.params.endian <;>
    simp [hostStore, byteIndex, he, State.readByte_writeWord, State.readByte_writeByte, byteOfWord]

/-- A byte outside those written reads as before. -/
theorem readByte_hostStore_other (s : State) (a v x : Word) (w : Width)
    (hx : ∀ k : Nat, k < w.bytes → x ≠ a + BitVec.ofNat 32 k) : (hostStore s a v w).readByte x = s.readByte x := by
  cases w <;> simp only [hostStore]
  · rw [State.readByte_writeByte, if_neg]
    simpa using hx 0 (by decide)
  · have h0 : x ≠ a := by simpa using hx 0 (by decide)
    have h1 : x ≠ a + 1 := by simpa using hx 1 (by decide)
    split <;> rw [State.readByte_writeByte, if_neg h1, State.readByte_writeByte, if_neg h0]
  · have h0 : x ≠ a := by simpa using hx 0 (by decide)
    have h1 : x ≠ a + 1 := by simpa using hx 1 (by decide)
    have h2 : x ≠ a + 2 := by simpa using hx 2 (by decide)
    have h3 : x ≠ a + 3 := by simpa using hx 3 (by decide)
    rw [State.readByte_writeWord, if_neg h3, if_neg h2, if_neg h1, if_neg h0]

theorem memOnly_hostStore (s : State) (a v : Word) (w : Width) : s.MemOnly (hostStore s a v w) := by
  cases w <;> simp only [hostStore]
  · exact State.memOnly_writeByte _ _ _
  · split <;> exact (State.memOnly_writeByte _ _ _).trans (State.memOnly_writeByte _ _ _)
  · exact State.memOnly_writeWord _ _ _

/-- A host write (R75): the store, after the mark a write to a hardware-owned descriptor leaves (R241). -/
theorem hostMemWrite_eq (a v : Word) (w : Width) (s : State) :
    hostMemWrite a w v s = hostStore (s.raiseHostFault .hwOwnedWrite) a v w ∧ touchesHw s.ring a w = true ∨
      hostMemWrite a w v s = hostStore s a v w ∧ touchesHw s.ring a w = false := by
  unfold hostMemWrite
  cases h : touchesHw s.ring a w
  · exact .inr ⟨rfl, rfl⟩
  · exact .inl ⟨rfl, rfl⟩

/-- A value's bytes are the value. -/
theorem eq_of_bytes {d v : Word} {n : Nat} (hd : d.toNat < 2 ^ (8 * n))
    (h : ∀ k, k < n → d.extractLsb' (8 * k) 8 = v.extractLsb' (8 * k) 8) : d.toNat = v.toNat % 2 ^ (8 * n) := by
  apply Nat.eq_of_testBit_eq
  intro i
  rw [Nat.testBit_mod_two_pow]
  by_cases hi : i < 8 * n
  · have e := congrArg (fun b : Byte => b.getLsbD (i % 8)) (h (i / 8) (by omega))
    simp only [BitVec.getLsbD_extractLsb', show i % 8 < 8 by omega, decide_true, Bool.true_and,
      show 8 * (i / 8) + i % 8 = i by omega] at e
    simpa [hi, BitVec.getLsbD] using e
  · simp only [hi, decide_false, Bool.false_and]
    exact Nat.testBit_lt_two_pow (Nat.lt_of_lt_of_le hd (Nat.pow_le_pow_right (by decide) (by omega)))

/-- What a write leaves is what a read of the same width returns. -/
theorem hostValue_hostStore (s : State) (a v : Word) (w : Width) :
    (hostValue (hostStore s a v w) a w).toNat = v.toNat % 2 ^ (8 * w.bytes) := by
  apply eq_of_bytes (hostValue_lt _ _ _)
  intro k hk
  rw [hostValue_byte _ _ hk, (memOnly_hostStore s a v w).params, readByte_hostStore _ _ _ hk]

end Sys2Proof.Machine
end

