-- ==== Sys2Proof/Laws/Inside.lean ====
section
/-! SUPPORT. What falls inside a command that only reads (R66, R244): the batches of the script it takes, and that memory
changes by their steps alone. -/

namespace Sys2Proof.Machine
open Sys2Proof.Config

/-! ### A byte the cache does not contradict -/

/-- The cache holds no other value for a byte than memory does, where it counts. -/
def State.Agrees (s : State) (a : Word) : Prop :=
  s.params.coherent = false → ∀ c ∈ s.cache, c.addr = a.toNat → c.byte = s.mem.byte a.toNat

theorem mem_cachePut {cs : List CacheByte} {b c : CacheByte} (h : c ∈ cachePut cs b) : c = b ∨ c ∈ cs := by
  induction cs with
  | nil => exact .inl (by simpa [cachePut] using h)
  | cons d cs ih =>
    simp only [cachePut] at h
    repeat' split at h
    all_goals simp only [List.mem_cons] at h ⊢
    · exact h
    · exact h.imp_right .inr
    · rcases h with h | h
      · exact .inr (.inl h)
      · exact (ih h).imp_right .inr

theorem mem_cacheFillByte {m : Memory} {cs : List CacheByte} {x : Nat} {c : CacheByte}
    (h : c ∈ cacheFillByte m cs x) : c ∈ cs ∨ c.byte = m.byte c.addr := by
  unfold cacheFillByte at h
  split at h
  · exact .inl h
  · rcases mem_cachePut h with rfl | h
    · exact .inr rfl
    · exact .inl h

/-- What the cache takes in is what memory holds. -/
theorem mem_cacheFillWord {m : Memory} {cs : List CacheByte} {a : Word} {c : CacheByte}
    (h : c ∈ cacheFillWord m cs a) : c ∈ cs ∨ c.byte = m.byte c.addr := by
  rcases mem_cacheFillByte h with h | h
  · rcases mem_cacheFillByte h with h | h
    · rcases mem_cacheFillByte h with h | h
      · exact mem_cacheFillByte h
      · exact .inr h
    · exact .inr h
  · exact .inr h

/-- A write-back of bytes that memory holds already changes none of them. -/
theorem Memory.byte_flush_agreed (q : CacheByte → Bool) (cs : List CacheByte) (m : Memory) (x : Nat)
    (h : ∀ c ∈ cs, c.addr = x → c.byte = m.byte x) : (cacheFlush q cs m).byte x = m.byte x := by
  induction cs generalizing m with
  | nil => rfl
  | cons c cs ih =>
    have h1 : (if q c then m.put c.addr c.byte else m).byte x = m.byte x := by
      split
      · rw [Memory.byte_put]
        split
        · exact h c List.mem_cons_self (Eq.symm ‹_›)
        · rfl
      · rfl
    simp only [cacheFlush]
    rw [ih _ (fun d hd e => by rw [h1]; exact h d (List.mem_cons_of_mem _ hd) e), h1]

/-! ### The relation -/

/-- `u` comes after `s` by events that read, inside which the steps `bs` fall: only those that write memory change it, a
byte outside the hardware partition that the cache does not contradict stays, and where no invalidate does anything the
steps by themselves make all the difference. -/
structure State.Inside (exact : Prop) (bs : List (List AgentStep)) (s u : State) : Prop where
  only : s.MemOnly u
  taken : s.interleave = bs ++ u.interleave
  writers : (∀ x ∈ bs.flatten, x.writesMemory = false) → u.mem = s.mem
  stays : s.ring.cap = 0 ∨ s.ring.Sound → ∀ a : Word, s.ring.hwOwned a = false → s.Agrees a →
    u.mem.byte a.toNat = s.mem.byte a.toNat ∧ u.Agrees a
  replay : exact → u = { runAgentSteps bs.flatten s with interleave := u.interleave }

theorem State.Inside.refl (q : Prop) (s : State) : s.Inside q [] s :=
  ⟨.refl s, rfl, fun _ => rfl, fun _ _ _ h => ⟨rfl, h⟩, fun _ => rfl⟩

/-- The script does not guide a step of an agent. -/
theorem runAgentSteps_withInterleave (ts : List AgentStep) (s : State) (r : List (List AgentStep)) :
    runAgentSteps ts { s with interleave := r } = { runAgentSteps ts s with interleave := r } := by
  induction ts generalizing s with
  | nil => rfl
  | cons t ts ih =>
    have h : runAgentStep t { s with interleave := r } = { runAgentStep t s with interleave := r } := by
      cases t
      all_goals
        simp only [runAgentStep]
        repeat' split
        all_goals rfl
    simp only [runAgentSteps, h, ih]

theorem runAgentSteps_append (ts us : List AgentStep) (s : State) :
    runAgentSteps (ts ++ us) s = runAgentSteps us (runAgentSteps ts s) := by
  induction ts generalizing s with
  | nil => rfl
  | cons t ts ih => exact ih _

theorem State.Inside.trans {q : Prop} {bs cs : List (List AgentStep)} {s u v : State} (h : s.Inside q bs u)
    (h' : u.Inside q cs v) : s.Inside q (bs ++ cs) v where
  only := h.only.trans h'.only
  taken := by rw [h.taken, h'.taken, List.append_assoc]
  writers := fun hw => by
    rw [List.flatten_append] at hw
    rw [h'.writers (fun x hx => hw x (List.mem_append_right _ hx)),
      h.writers (fun x hx => hw x (List.mem_append_left _ hx))]
  stays := fun hr a ha hg => by
    obtain ⟨e1, g1⟩ := h.stays hr a ha hg
    obtain ⟨e2, g2⟩ := h'.stays (by rw [h.only.ring]; exact hr) a (by rw [h.only.ring]; exact ha) g1
    exact ⟨e2.trans e1, g2⟩
  replay := fun hq => by
    have e := h'.replay hq
    rw [h.replay hq, runAgentSteps_withInterleave] at e
    rw [List.flatten_append, runAgentSteps_append]
    exact e

/-! ### The events -/

theorem runAgentStep_mem_of_reader {t : AgentStep} (h : t.writesMemory = false) (s : State) :
    (runAgentStep t s).mem = s.mem := by
  cases t
  all_goals
    first
      | cases h; done
      | simp only [runAgentStep]
        repeat' split
        all_goals rfl

/-- A step leaves a byte outside the hardware partition that the cache does not contradict, and the cache goes on not to. -/
theorem runAgentStep_stays (t : AgentStep) (s : State) (hr : s.ring.cap = 0 ∨ s.ring.Sound) (a : Word)
    (ha : s.ring.hwOwned a = false) (hg : s.Agrees a) :
    (runAgentStep t s).mem.byte a.toNat = s.mem.byte a.toNat ∧ (runAgentStep t s).Agrees a := by
  cases t with
  | dmaWrite b v =>
    simp only [runAgentStep]
    split
    · rename_i hb
      have hne : ∀ k : Word, k.toNat < 4 → a.toNat ≠ (b + k).toNat := by
        intro k hk e
        rw [BitVec.eq_of_toNat_eq e, RingRegs.dmaInside hr hb k hk] at ha
        cases ha
      have h0 : a.toNat ≠ b.toNat := by simpa using hne 0 (by decide)
      have e : (s.mem.putWord s.params.endian b v).byte a.toNat = s.mem.byte a.toNat := by
        rw [Memory.putWord, Memory.byte_put_other _ _ (hne 3 (by decide)), Memory.byte_put_other _ _ (hne 2 (by decide)),
          Memory.byte_put_other _ _ (hne 1 (by decide)), Memory.byte_put_other _ _ h0]
      refine ⟨e, fun hc c hm hx => ?_⟩
      rw [State.withMem_mem, e]
      exact hg hc c hm hx
    · exact ⟨rfl, hg⟩
  | dmaRead b => exact ⟨rfl, hg⟩
  | cacheFill b =>
    simp only [runAgentStep]
    split
    · exact ⟨rfl, hg⟩
    · refine ⟨rfl, fun hc c hm hx => ?_⟩
      rcases mem_cacheFillWord hm with h | h
      · exact hg hc c h hx
      · rw [h, hx]
        rfl
  | cacheEvict b =>
    simp only [runAgentStep]
    split
    · exact ⟨rfl, hg⟩
    · exact ⟨rfl, fun hc c hm hx => hg hc c (List.mem_filter.1 hm).1 hx⟩
  | cacheWriteBack b =>
    simp only [runAgentStep]
    split
    · exact ⟨rfl, hg⟩
    · rename_i hc
      simp only [Bool.or_eq_true, not_or, Bool.not_eq_true] at hc
      have e := Memory.byte_flush_agreed (fun c => sameLine s.params.cacheLine b c.addr) s.cache s.mem a.toNat (hg hc.1)
      refine ⟨e, fun _ c hm hx => ?_⟩
      obtain ⟨d, h1, h2⟩ := List.mem_map.1 hm
      have h3 : c.addr = d.addr ∧ c.byte = d.byte := by
        rw [← h2]
        split <;> exact ⟨rfl, rfl⟩
      rw [State.withMem_mem, e, h3.2]
      exact hg hc.1 d h1 (h3.1 ▸ hx)

theorem runAgentSteps_mem_of_readers {ts : List AgentStep} (h : ∀ t ∈ ts, t.writesMemory = false) (s : State) :
    (runAgentSteps ts s).mem = s.mem := by
  induction ts generalizing s with
  | nil => rfl
  | cons t ts ih =>
    rw [runAgentSteps, ih (fun x hx => h x (List.mem_cons_of_mem _ hx)),
      runAgentStep_mem_of_reader (h t List.mem_cons_self)]

theorem runAgentSteps_stays (ts : List AgentStep) (s : State) (hr : s.ring.cap = 0 ∨ s.ring.Sound) (a : Word)
    (ha : s.ring.hwOwned a = false) (hg : s.Agrees a) :
    (runAgentSteps ts s).mem.byte a.toNat = s.mem.byte a.toNat ∧ (runAgentSteps ts s).Agrees a := by
  induction ts generalizing s with
  | nil => exact ⟨rfl, hg⟩
  | cons t ts ih =>
    have hm := memOnly_runAgentStep t s
    obtain ⟨e1, g1⟩ := runAgentStep_stays t s hr a ha hg
    obtain ⟨e2, g2⟩ := ih (runAgentStep t s) (by rw [hm.ring]; exact hr) (by rw [hm.ring]; exact ha) g1
    exact ⟨e2.trans e1, g2⟩

theorem inside_agentTurn (q : Prop) (s : State) : ∃ bs, s.Inside q bs (agentTurn s) := by
  cases h : s.interleave with
  | nil =>
    rw [agentTurn_of_empty h]
    exact ⟨[], .refl q s⟩
  | cons ts rest =>
    have e : agentTurn s = { runAgentSteps ts s with interleave := rest } := by
      unfold agentTurn
      rw [h]
      exact runAgentSteps_withInterleave ts s rest
    refine ⟨[ts], memOnly_agentTurn s, ?_, fun hw => ?_, fun hr a ha hg => ?_, fun _ => ?_⟩
    · rw [e, h]
      rfl
    · rw [e]
      exact runAgentSteps_mem_of_readers (by simpa using hw) s
    · rw [e]
      exact runAgentSteps_stays ts s hr a ha hg
    · rw [e]
      simp

/-- An invalidate writes nothing back (log 13); on a coherent platform it does nothing. -/
theorem inside_cacheInval {q : Prop} (a n : Word) (s : State) (hq : q → s.params.coherent = true) :
    ∃ bs, s.Inside q bs (cacheInval a n s) := by
  unfold cacheInval
  split
  · exact ⟨[], .refl q s⟩
  · rename_i hc
    obtain ⟨bs, h⟩ := inside_agentTurn q s
    have h' : (agentTurn s).Inside q [] (invalRange a n (agentTurn s)) := by
      refine ⟨memOnly_invalRange _ _ _, rfl, fun _ => rfl, fun _ x _ hg => ⟨rfl, ?_⟩, fun h => absurd (hq h) hc⟩
      exact fun hc c hm hx => hg hc c (List.mem_filter.1 hm).1 hx
    exact ⟨_, h.trans h'⟩

/-! ### The commands that read -/

theorem inside_readDesc (q : Prop) (t : FlagPos) (o : Option FlagPos) (cur : Word) (s : State) :
    ∃ bs, s.Inside q bs (readDesc t o cur s).2 := by
  unfold readDesc
  split
  · exact inside_agentTurn q s
  · dsimp only
    split
    · split
      · exact inside_agentTurn q s
      · obtain ⟨bs, h⟩ := inside_agentTurn q s
        obtain ⟨cs, h'⟩ := inside_agentTurn q (agentTurn s)
        exact ⟨_, h.trans h'⟩
    · exact inside_agentTurn q s

theorem inside_scanLoop {q : Prop} (t : FlagPos) (o : Option FlagPos) (k : Nat) (c : Scan) (s : State)
    (hq : q → s.params.coherent = true) : ∃ bs, s.Inside q bs (scanLoop t o k c s).2 := by
  induction k generalizing c s with
  | zero => exact ⟨[], .refl q s⟩
  | succ k ih =>
    obtain ⟨b1, h1⟩ := inside_cacheInval c.cur s.ring.stride s hq
    obtain ⟨b2, h2⟩ := inside_readDesc q t o c.cur (cacheInval c.cur s.ring.stride s)
    have h := h1.trans h2
    simp only [scanLoop]
    split
    · exact ⟨_, h⟩
    · split
      · exact ⟨_, h⟩
      · obtain ⟨b3, h3⟩ := ih _ _ (fun x => by rw [h.only.params]; exact hq x)
        exact ⟨_, h.trans h3⟩

theorem inside_scan {q : Prop} (t : FlagPos) (o : Option FlagPos) (limit : Word) (s : State)
    (hq : q → s.params.coherent = true) : ∃ bs, s.Inside q bs (scan t o limit s).2 := by
  obtain ⟨bs, h⟩ := inside_scanLoop t o limit.toNat { cur := s.ring.hwHead, count := 0, open_ := 0 } s hq
  obtain ⟨cs, h'⟩ := inside_agentTurn q (scanLoop t o limit.toNat { cur := s.ring.hwHead, count := 0, open_ := 0 } s).2
  exact ⟨_, h.trans h'⟩

theorem inside_checkLinks (q : Prop) (k i : Nat) (s : State) : ∃ bs, s.Inside q bs (checkLinks k i s).2 := by
  induction k generalizing i s with
  | zero => exact ⟨[], .refl q s⟩
  | succ k ih =>
    simp only [checkLinks]
    obtain ⟨bs, h⟩ := inside_agentTurn q s
    split
    · exact ⟨bs, h⟩
    · obtain ⟨cs, h'⟩ := ih (i + 1) (agentTurn s)
      exact ⟨_, h.trans h'⟩

/-- A reclaim: what falls inside it, and then registers only. -/
theorem inside_reclaim (t : FlagPos) (o : Option FlagPos) (l : Word) (s v : State) (h : reclaim t o l s = .next v) :
    ∃ bs u, s.Inside (s.params.coherent = true) bs u ∧ v.mem = u.mem ∧ v.cache = u.cache ∧
      v.interleave = u.interleave := by
  rcases reclaim_cases t o l s v h with ⟨c, rfl, -⟩ | ⟨-, -, h3⟩
  · exact ⟨[], s, .refl _ s, rfl, rfl, rfl⟩
  · rw [commit_eq] at h3
    cases h3
    obtain ⟨bs, hi⟩ := inside_scan t o l s (q := s.params.coherent = true) id
    refine ⟨bs, _, hi, ?_⟩
    split <;> exact ⟨rfl, rfl, rfl⟩

/-- CHECK: what falls inside it, and then `RES` only. It has no cache maintenance (R215). -/
theorem inside_check (d : DirField) (s v : State) (h : execCheck d s = .next v) :
    ∃ bs u, s.Inside True bs u ∧ v.mem = u.mem ∧ v.cache = u.cache ∧ v.interleave = u.interleave := by
  obtain ⟨b1, h1⟩ := inside_checkLinks True (s.ring.cap.toNat - 1) 0 s
  obtain ⟨b2, h2⟩ := inside_agentTurn True (checkLinks (s.ring.cap.toNat - 1) 0 s).2
  have h0 := State.Inside.refl True s
  simp only [execCheck, checkMemory, checkWrap, finishWith_eq] at h
  repeat' split at h
  all_goals cases h
  · exact ⟨_, s, h0, rfl, rfl, rfl⟩
  · exact ⟨_, s, h0, rfl, rfl, rfl⟩
  · exact ⟨_, s, h0, rfl, rfl, rfl⟩
  · exact ⟨_, s, h0, rfl, rfl, rfl⟩
  · exact ⟨_, _, h1, rfl, rfl, rfl⟩
  · exact ⟨_, _, h1.trans h2, rfl, rfl, rfl⟩
  · exact ⟨_, _, h1.trans h2, rfl, rfl, rfl⟩
  · exact ⟨_, s, h0, rfl, rfl, rfl⟩

end Sys2Proof.Machine
end

