-- ==== Sys2Proof/Laws/PerInstr.lean ====
section
/-! SUPPORT. One lemma per command: where each field of its word stands (30_encoding.md R91, R96), every operand at every
value. -/

namespace Sys2Proof.Laws.EncodeFields

/-- The three fields of a command's word: its `OP`, its `DIR`, and `RSVD` zero; every term is well formed. -/
def Statement (i : Instr) : Prop :=
  i.wf = true ∧ opField (encode i) = i.opcode ∧ dirBits (encode i) = i.dir.toBits ∧ rsvdField (encode i) = 0

theorem create : Statement .create := by unfold Statement; decide
theorem clone (d : DirField) : Statement (.clone d) := by cases d <;> (unfold Statement; decide)
theorem alloc : Statement .alloc := by unfold Statement; decide
theorem unalloc : Statement .unalloc := by unfold Statement; decide
theorem submit : Statement .submit := by unfold Statement; decide
theorem reclaimTx : Statement .reclaimTx := by unfold Statement; decide
theorem reclaimRx : Statement .reclaimRx := by unfold Statement; decide
theorem free : Statement .free := by unfold Statement; decide
theorem check (d : DirField) : Statement (.check d) := by cases d <;> (unfold Statement; decide)
theorem start : Statement .start := by unfold Statement; decide
theorem stop : Statement .stop := by unfold Statement; decide

end Sys2Proof.Laws.EncodeFields
end

