-- ==== Sys2Proof/Tests/Slice0.lean ====
section
/-! SUPPORT. The tests: ill-formed terms that the checks refuse; command words written out from 30_encoding.md; one step per
command on small states, with the results of 95_test_vectors.md; and for every statement with hypotheses a state and
operands that meet them. -/

namespace Sys2Proof.Tests
open Sys2Proof.Machine Sys2Proof.Config

/-! ### Small states -/

/-- A block with ring registers `r`, operands `a` and memory `m`, otherwise as after reset. -/
def block (r : RingRegs) (a : Args := Args.reset) (m : Memory := []) : State :=
  { State.reset with ring := r, args := a, mem := m, ringWritten := true }

/-- A block with one event to come. -/
def facing (s : State) (e : Event) : State := { s with events := [e] }

/-- The same block on a non-coherent platform, with a cache. -/
def behindCache (s : State) (cs : List CacheByte) : State :=
  { s with params := { defaultParams with coherent := false }, cache := cs }

/-- Memory that holds the given words. -/
def words (l : List (Word × Word)) : Memory := l.foldl (fun m w => m.putWord .little w.1 w.2) []

/-- A property of the state after an outcome; false where the machine stops. -/
def Next (o : Host.Outcome State Fault Refusal) (p : State → Bool) : Bool :=
  match o with
  | .next t => p t
  | .fault _ => false
  | .refused _ => false

/-- The ring of vector L1-3: 8 descriptors at 0x10000000. -/
def ring8 : RingRegs := createdRing 0x10000000 0x10000000 8 8
/-- L1-4 (a) after step 2. -/
def ring8pre : RingRegs := ring8.alloc 3
/-- L1-4 (a) after step 4. -/
def ring8hw : RingRegs := ring8pre.submit 3 ring8pre.preHead
/-- L1-4 (a) after step 6. -/
def ring8post : RingRegs := ring8hw.reclaim 3
/-- The ring of section 2.3: 4 descriptors at 0x20000000. -/
def ring4 : RingRegs := createdRing 0x20000000 0x20000000 8 4
/-- Two descriptors at 0x30000000. -/
def ring2 : RingRegs := createdRing 0x30000000 0x30000000 8 2
/-- The wrap-around ring of section 2.4, after its one cycle and `ALLOC 3`. -/
def ringWrap : RingRegs :=
  { createdRing 0x10000000 0x10000000 8 4 with
    freeCnt := 1, preCnt := 3, freeHead := 0x10000010, preHead := 0x10000018, hwHead := 0x10000018,
    hwTail := 0x10000010, postHead := 0x10000018 }
/-- Word 1 of the descriptors 0 to 2 of `ring8`, with TX_LAST. -/
def lastBits : Memory := words [(0x10000004, 0x8040), (0x1000000C, 0x8040), (0x10000014, 0x8040)]
/-- `ring2` laid out and linked, with TX_WRAP in the last descriptor. -/
def linked2 : Memory :=
  words [(0x30000000, 0x30000008), (0x30000004, 0), (0x30000008, 0x30000000), (0x3000000C, 0x40000000)]

/-! ### Ill-formed terms (WellFormed.lean; a command term has none, R93) -/

theorem test_wf_default : defaultParams.wf = true := by decide
theorem test_wf_field : FieldPos.wf { word := 0, hi := 3, lo := 4 } = false := by decide
theorem test_wf_new_is_used : Layout.wf { defaultLayout with rxNew := defaultLayout.txUsed } = false := by decide
theorem test_wf_same_wrap : Layout.wf { defaultLayout with rxWrap := defaultLayout.txWrap } = false := by decide
theorem test_wf_tx_addr : Layout.wf { defaultLayout with txAddr := { word := 0, hi := 0, lo := 1 } } = false := by decide
theorem test_wf_tx_len : Layout.wf { defaultLayout with txLen := { word := 0, hi := 0, lo := 1 } } = false := by decide
theorem test_wf_rx_addr : Layout.wf { defaultLayout with rxAddr := { word := 0, hi := 0, lo := 1 } } = false := by decide
theorem test_wf_rx_len : Layout.wf { defaultLayout with rxLen := { word := 0, hi := 0, lo := 1 } } = false := by decide
theorem test_wf_min_align_small : Params.wf { defaultParams with minAlign := 2 } = false := by decide
theorem test_wf_min_align_power : Params.wf { defaultParams with minAlign := 6 } = false := by decide
theorem test_wf_layout : Params.wf { defaultParams with layout := { defaultLayout with rxNew := defaultLayout.txUsed } } =
    false := by decide
theorem test_wf_cache_line : Params.wf { defaultParams with cacheLine := 0 } = false := by decide

/-! ### Decoding: every word written out bit by bit from R91, R92 and R96 -/

theorem test_decode_create : decode 0b00000000000000000000000000_00_0001 = .ok .create := by decide
theorem test_decode_clone_tx : decode 0b00000000000000000000000000_01_0010 = .ok (.clone .tx) := by decide
theorem test_decode_clone_rx : decode 0b00000000000000000000000000_10_0010 = .ok (.clone .rx) := by decide
theorem test_decode_clone_00 : decode 0b00000000000000000000000000_00_0010 = .ok (.clone .d00) := by decide
theorem test_decode_clone_11 : decode 0b00000000000000000000000000_11_0010 = .ok (.clone .d11) := by decide
theorem test_decode_alloc : decode 0b00000000000000000000000000_00_0011 = .ok .alloc := by decide
theorem test_decode_unalloc : decode 0b00000000000000000000000000_00_0100 = .ok .unalloc := by decide
theorem test_decode_submit : decode 0b00000000000000000000000000_00_0101 = .ok .submit := by decide
theorem test_decode_reclaim_tx : decode 0b00000000000000000000000000_00_0110 = .ok .reclaimTx := by decide
theorem test_decode_reclaim_rx : decode 0b00000000000000000000000000_00_0111 = .ok .reclaimRx := by decide
theorem test_decode_free : decode 0b00000000000000000000000000_00_1000 = .ok .free := by decide
theorem test_decode_check_tx : decode 0b00000000000000000000000000_01_1001 = .ok (.check .tx) := by decide
theorem test_decode_check_rx : decode 0b00000000000000000000000000_10_1001 = .ok (.check .rx) := by decide
theorem test_decode_start : decode 0b00000000000000000000000000_00_1010 = .ok .start := by decide
theorem test_decode_stop : decode 0b00000000000000000000000000_00_1011 = .ok .stop := by decide
/-- Section 2.1: ALLOC with DIR 01, CREATE with DIR 10, START with DIR 01. -/
theorem test_decode_direction : decode 0x13 = .error .directionNotAllowed ∧ decode 0x21 = .error .directionNotAllowed ∧
    decode 0x1A = .error .directionNotAllowed := by decide
/-- Section 2.1: the reserved operations and the reserved bits. -/
theorem test_decode_reserved : decode 0x00 = .error .reservedOpcode ∧ decode 0x0C = .error .reservedOpcode ∧
    decode 0x0F = .error .reservedOpcode ∧ decode 0x40 = .error .reservedBits ∧ decode 0x80000001 = .error .reservedBits ∧
    decode 0xFFFFFFFF = .error .reservedBits := by decide
theorem test_table_word : decodeTableWord 32 0x29 = some (.check .rx) ∧ decodeTableWord 32 0x39 = some (.check .d11) ∧
    decodeTableWord 32 0x10 = none := by decide

/-! ### One step per command (95_test_vectors.md) -/

/-- P3's ring: physical 0x00200000, virtual 0x20000000, align 16; here with two descriptors. -/
theorem test_create_links : Next (exec .create
    { State.reset with args := { arg0 := 0x00200000, arg1 := 0x20000000, arg2 := 16, arg3 := 2 } })
    (fun t => t.ring.high = 0x20000010 && t.ring.restart = 0x00200000 && t.readWord 0x20000000 = 0x00200010 &&
      t.readWord 0x20000010 = 0x00200000 && t.readWord 0x2000001C = 0) = true := by decide +kernel
/-- Section 2.2: a ring that would pass the end of the address space, on a started ring (R128, R129). -/
theorem test_create_range : Next (exec .create (block { ring8 with run := .started }
    { arg0 := 0xFFFFFFF8, arg1 := 0xFFFFFFF8, arg2 := 8, arg3 := 2 }))
    (fun t => t.res.code = .listRangeError && t.ring.cap = 0 && t.faults.liveRecreate && t.ring.run = .started) =
    true := by decide +kernel
/-- Section 2.3, first row. -/
theorem test_clone_tx : Next (exec (.clone .tx) (block ring4 { Args.reset with arg1 := 0x80000000 }))
    (fun t => t.readWord 0x20000014 = 0x80000000 && t.readWord 0x2000001C = 0xC0000000 && t.readWord 0x20000018 = 0) =
    true := by decide +kernel
/-- Section 2.3: DEVICE_BUSY precedes LIST_STATE_ERROR. -/
theorem test_clone_busy : Next (exec (.clone .tx) (block { ring4.alloc 1 with run := .started }))
    (fun t => t.res.code = .deviceBusy) = true := by decide +kernel
/-- Section 2.4. -/
theorem test_alloc_all : Next (exec .alloc (block ring8 { Args.reset with arg0 := 8 }))
    (fun t => t.res.ptr = 0x10000000 && t.ring.freeHead = 0x10000000 && t.ring.freeCnt = 0 && t.ring.preCnt = 8) =
    true := by decide +kernel
theorem test_alloc_beyond : Next (exec .alloc (block ring8 { Args.reset with arg0 := 9 }))
    (fun t => t.res.code = .failure && t.ring = ring8) = true := by decide +kernel
/-- Section 2.4, wrap-around: the free head moves back across the base. -/
theorem test_unalloc_wraps : Next (exec .unalloc (block ringWrap { Args.reset with arg0 := 2 }))
    (fun t => t.ring.freeHead = 0x10000000 && t.ring.freeCnt = 3 && t.ring.preCnt = 1) = true := by decide +kernel
theorem test_unalloc_beyond : Next (exec .unalloc (block ringWrap { Args.reset with arg0 := 4 }))
    (fun t => t.res.code = .failure && t.ring = ringWrap) = true := by decide +kernel
/-- L1-4 (a), step 4. -/
theorem test_submit : Next (exec .submit (block ring8pre { Args.reset with arg0 := 3, arg1 := 0x10000000 }))
    (fun t => t.ring.preCnt = 0 && t.ring.hwCnt = 3 && t.ring.preHead = 0x10000018 && t.ring.hwHead = 0x10000000 &&
      t.ring.hwTail = 0x10000010) = true := by decide +kernel
/-- L1-7. -/
theorem test_submit_sequence : Next (exec .submit (block ring8pre { Args.reset with arg0 := 3, arg1 := 0x10000008 }))
    (fun t => t.res.code = .listStateError && t.ring = ring8pre) = true := by decide +kernel
/-- L1-4 (a), step 6. -/
theorem test_reclaim_tx : Next (exec .reclaimTx (block ring8hw { Args.reset with arg0 := 10 } lastBits))
    (fun t => t.res = { code := .success, ptr := 0x10000000, count := 3 } && t.ring.hwHead = 0x10000018 &&
      t.ring.hwCnt = 0 && t.ring.postCnt = 3) = true := by decide +kernel
/-- Section 2.6 in small: the limit cuts an open packet, which is withheld whole. -/
theorem test_reclaim_tx_open : Next (exec .reclaimTx (block ring8hw { Args.reset with arg0 := 2 }
    (words [(0x10000004, 0x8040), (0x1000000C, 0x40)])))
    (fun t => t.res = { code := .success, ptr := 0x10000000, count := 1 } && t.ring.hwHead = 0x10000008) =
    true := by decide +kernel
/-- Section 2.7, fourth row: descriptor 1 is open, descriptor 2 not new. -/
theorem test_reclaim_rx : Next (exec .reclaimRx (block ring8hw { Args.reset with arg0 := 10 }
    (words [(0x10000000, 0x40000001), (0x10000004, 0xC03C), (0x10000008, 0x40000801), (0x1000000C, 0),
      (0x10000010, 0x40001000)])))
    (fun t => t.res = { code := .success, ptr := 0x10000000, count := 1 } && t.ring.hwCnt = 2 &&
      t.ring.hwHead = 0x10000008 && t.ring.hwTail = 0x10000010) = true := by decide +kernel
/-- Section 2.8. -/
theorem test_free : Next (exec .free (block ring8post { Args.reset with arg0 := 1, arg1 := 0x10000000 }))
    (fun t => t.ring.freeCnt = 6 && t.ring.postCnt = 2 && t.ring.postHead = 0x10000008) = true := by decide +kernel
theorem test_free_sequence : Next (exec .free (block ring8post { Args.reset with arg0 := 1, arg1 := 0x10000008 }))
    (fun t => t.res.code = .listStateError && t.ring = ring8post) = true := by decide +kernel
/-- L1-9 in small: the link of descriptor 0 is corrupted. -/
theorem test_check_link : Next (exec (.check .tx) (block ring2 Args.reset (linked2.putWord .little 0x30000000 0x12345678)))
    (fun t => t.res = { code := .listStateError, ptr := 0x30000000, count := 7 }) = true := by decide +kernel
/-- L1-9 in small: TX_WRAP is set, RX_WRAP is not. -/
theorem test_check_wrap : Next (exec (.check .tx) (block ring2 Args.reset linked2)) (fun t => t.res.code = .success) &&
    Next (exec (.check .rx) (block ring2 Args.reset linked2))
      (fun t => t.res = { code := .listStateError, ptr := 0x30000008, count := 8 }) = true := by decide +kernel
/-- Section 2.10. -/
theorem test_start : Next (step ((block ring8).withFetchWord 32 0xA)) (fun t => t.ring = { ring8 with run := .started }) =
    true := by decide +kernel
theorem test_stop : Next (step ((block { ring8 with run := .started }).withFetchWord 32 0xB)) (fun t => t.ring = ring8) =
    true := by decide +kernel
/-- Section 2.11: a host write to a descriptor of the hardware partition is marked and takes effect. -/
theorem test_hw_owned_write : Next (step (facing (block ring8hw) (.memWrite 0x1000000C .w32 0)))
    (fun t => t.faults.hwOwnedWrite && t.readWord 0x1000000C = 0) = true := by decide +kernel
/-- R67: a byte write on a big-endian platform. -/
theorem test_big_endian_byte : Next (step (facing { block ring8 Args.reset [(0, 1), (1, 2), (2, 3), (3, 4)] with
    params := { defaultParams with endian := .big } } (.memWrite 1 .w8 0xFF)))
    (fun t => t.readWord 0 = 0x01FF0304) = true := by decide +kernel
/-- R67: a halfword at offset 2 of a word lies in its low half on a big-endian platform and in its high half on another. -/
theorem test_halfword_write : Next (step (facing { block ring8 Args.reset [(0, 1), (1, 2), (2, 3), (3, 4)] with
      params := { defaultParams with endian := .big } } (.memWrite 2 .w16 0xBEEF)))
      (fun t => t.readWord 0 = 0x0102BEEF) &&
    Next (step (facing (block ring8 Args.reset [(0, 1), (1, 2), (2, 3), (3, 4)]) (.memWrite 2 .w16 0xBEEF)))
      (fun t => t.readWord 0 = 0xBEEF0201) = true := by decide +kernel
/-- R67: the same halfword read. -/
theorem test_halfword_read : Next (step (facing { block ring8 Args.reset [(0, 1), (1, 2), (2, 3), (3, 4)] with
      params := { defaultParams with endian := .big } } (.memRead 2 .w16))) (fun t => t.readData = 0x0304) &&
    Next (step (facing (block ring8 Args.reset [(0, 1), (1, 2), (2, 3), (3, 4)]) (.memRead 2 .w16)))
      (fun t => t.readData = 0x0403) = true := by decide +kernel
/-- R43: an access of the register map that is wider than a word is a bad one, and is ignored. -/
theorem test_wide_register_write : Next (step (facing (block ring8) (.regWrite 0x04 .other 1)))
    (fun t => t.faults.badRegAccess && t.args.arg0 = 0) = true := by decide +kernel

/-! ### States that meet the statements' hypotheses -/

theorem sound_ring8 : ring8.Sound :=
  createdRing_sound ⟨3, by decide, rfl⟩ rfl rfl (by decide) (by decide)
theorem sound_ring8pre : ring8pre.Sound := sound_ring8.alloc (by decide) (by decide)
theorem sound_ring8hw : ring8hw.Sound := sound_ring8pre.submit (by decide) (by decide) (by decide)
theorem sound_ring8post : ring8post.Sound := sound_ring8hw.reclaim (by decide) (by decide)
theorem sound_ring4 : ring4.Sound := createdRing_sound ⟨3, by decide, rfl⟩ rfl rfl (by decide) (by decide)
theorem sound_ring2 : ring2.Sound := createdRing_sound ⟨3, by decide, rfl⟩ rfl rfl (by decide) (by decide)

/-- A block with a sound ring has the machine's invariant. -/
theorem ringInv_block {r : RingRegs} (h : r.Sound) (a : Args) (m : Memory) : (block r a m).RingInv :=
  ⟨test_wf_default, fun _ => h⟩

theorem witness_DecodeAndEncodeAgree : (Instr.clone .d11).wf = true ∧ decode 0x32 = .ok (.clone .d11) := by decide

/-- A command word that R95 calls illegal, in numbers. -/
def illegalWord (w : Word) : Bool :=
  w.toNat / 64 ≠ 0 ∨ ¬(1 ≤ w.toNat % 16 ∧ w.toNat % 16 ≤ 11) ∨
    (w.toNat % 16 ≠ 2 ∧ w.toNat % 16 ≠ 9 ∧ w.toNat / 16 % 4 ≠ 0)

/-- Each side of the condition, at its boundary words. -/
theorem witness_IllegalWordsAreExactlyThese :
    (facing State.reset (cmdWrite defaultParams 0x40)).events = [cmdWrite State.reset.params 0x40] ∧
    List.all [0x00, 0x0C, 0x0F, 0x11, 0x38, 0x40, 0x80000001, 0xFFFFFFFF] illegalWord = true ∧
    List.any [0x01, 0x0B, 0x02, 0x32, 0x09, 0x39] illegalWord = false := ⟨rfl, by decide, by decide⟩

theorem witness_StepRunsTheDecodedCommand :
    (facing State.reset (cmdWrite defaultParams 0x39)).events = [cmdWrite State.reset.params 0x39] ∧
      decode 0x39 = .ok (.check .d11) ∧ (Instr.check .d11).wf = true := ⟨rfl, by decide, rfl⟩

theorem witness_PowerOnResetEvent : (facing (block ring8hw) .powerOnReset).events = [.powerOnReset] := rfl

theorem witness_WithoutARingOnlyNoList : Instr.stop ≠ .create ∧ State.reset.ring.cap = 0 := by decide

theorem witness_CommandsFailAtomically : Instr.alloc ≠ .create ∧ State.reset.interleave = [] ∧
    ∃ t, exec .alloc State.reset = .next t ∧ t.res.code ≠ .success :=
  ⟨by decide, rfl, _, rfl, by decide⟩

/-- One command for each clause. -/
theorem witness_RingRegisterFrames : ∀ i ∈ [Instr.start, .stop, .check .tx, .clone .rx, .alloc, .unalloc, .submit,
    .reclaimTx, .reclaimRx, .free], i ≠ .create ∧ ∃ t, exec i State.reset = .next t := by
  simp only [List.forall_mem_cons, List.not_mem_nil, false_implies, implies_true, and_true]
  refine ⟨⟨?_, _, rfl⟩, ⟨?_, _, rfl⟩, ⟨?_, _, rfl⟩, ⟨?_, _, rfl⟩, ⟨?_, _, rfl⟩, ⟨?_, _, rfl⟩, ⟨?_, _, rfl⟩, ⟨?_, _, rfl⟩,
    ⟨?_, _, rfl⟩, ⟨?_, _, rfl⟩⟩ <;> decide

theorem witness_OperandsAndMarksFrame : Instr.start ≠ .create ∧ ∃ t, exec .start (block ring8) = .next t :=
  ⟨by decide, _, rfl⟩

theorem witness_RunStateGatesNoOtherCommand : ∃ t, exec .free (block ring8post) = .next t := ⟨_, rfl⟩

theorem witness_CommandsWithoutMemoryEvents : (block ring8).params.coherent = true ∧
    ∃ t, exec .submit (block ring8) = .next t := ⟨rfl, _, rfl⟩

/-- One state for the first clauses, and for the last ones a script with a step that does not write memory, behind a cache
that holds what memory does. -/
theorem witness_ReadingCommandsWriteNothing : (block ring8hw).RingInv ∧ (block ring8hw).params.coherent = true ∧
    ring8hw.hwOwned 0x10000018 = false ∧ (block ring8hw).interleave = [] ∧
    (∃ t, exec .reclaimRx (block ring8hw) = .next t) ∧ (Instr.check .d00).opcode = 9 ∧
    let s := behindCache { block ring8hw Args.reset lastBits with interleave := [[.dmaRead 0x10000004]] }
      [{ addr := 0x10000018, byte := (lastBits.byte 0x10000018), dirty := false }]
    s.RingInv ∧ s.params.coherent = false ∧ (∀ x ∈ s.interleave.flatten, x.writesMemory = false) ∧
      (∀ c ∈ s.cache, c.addr = (0x10000018 : Word).toNat → c.byte = s.mem.byte (0x10000018 : Word).toNat) ∧
      ∃ t, exec .reclaimTx s = .next t := by
  refine ⟨ringInv_block sound_ring8hw _ _, rfl, by decide, rfl, ⟨_, rfl⟩, by decide, ⟨by decide, fun _ => sound_ring8hw⟩,
    rfl, ?_, ?_, _, rfl⟩
  · intro x hx
    obtain rfl : x = .dmaRead 0x10000004 := List.mem_singleton.1 hx
    rfl
  · intro c hc _
    obtain rfl := List.mem_singleton.1 hc
    rfl

/-- Section 2.2: below the minimum, no power of two, each base misaligned, no descriptor. -/
theorem witness_CreateRefusesIllegalOperands : State.reset.params.wf = true ∧
    ¬CreateLegal defaultParams.minAlign 0x10000000 0x10000000 2 8 ∧
    ¬CreateLegal defaultParams.minAlign 0x10000000 0x10000000 6 8 ∧
    ¬CreateLegal defaultParams.minAlign 0x10000004 0x10000000 8 4 ∧
    ¬CreateLegal defaultParams.minAlign 0x10000000 0x10000004 8 4 ∧
    ¬CreateLegal defaultParams.minAlign 0x10000000 0x10000000 4 0 := by
  have h := fun pb vb al cnt => createBad_eq_false_iff test_wf_default pb vb al cnt
  refine ⟨by decide, ?_, ?_, ?_, ?_, ?_⟩ <;> rw [← h] <;> decide

theorem legal_at_top (n : Word) (hn : n ≠ 0) : CreateLegal defaultParams.minAlign 0xFFFFFFF8 0xFFFFFFF8 8 n :=
  ⟨by decide, ⟨3, rfl⟩, by decide, by decide, fun h => hn (BitVec.eq_of_toNat_eq h)⟩

/-- Section 2.2: the smallest excess an alignment of 8 allows, with legal operands and with a misaligned base. -/
theorem witness_CreateRefusesAWrappingRange : State.reset.params.wf = true ∧
    2 ^ 32 < (0xFFFFFFF8 : Word).toNat + strideOf 8 * (2 : Word).toNat ∧
    CreateLegal defaultParams.minAlign 0xFFFFFFF8 0xFFFFFFF8 8 2 ∧
    ¬CreateLegal defaultParams.minAlign 0xFFFFFFFC 0xFFFFFFF8 8 2 :=
  ⟨by decide, by decide, legal_at_top 2 (by decide), by
    rw [← createBad_eq_false_iff test_wf_default]
    decide⟩

theorem witness_StrideIsTheRoundedDescriptorSize : (4 : Word).toNat = 2 ^ 2 ∧ 4 ≤ (4 : Word).toNat ∧
    (0x80000000 : Word).toNat = 2 ^ 31 ∧ 4 ≤ (0x80000000 : Word).toNat := by decide

/-- Section 2.2: the ring that ends exactly at 0xFFFFFFFF. -/
theorem witness_CreateSetsEveryRingRegister : State.reset.params.wf = true ∧
    CreateLegal defaultParams.minAlign 0xFFFFFFF8 0xFFFFFFF8 8 1 ∧
    (0xFFFFFFF8 : Word).toNat + strideOf 8 * (1 : Word).toNat ≤ 2 ^ 32 :=
  ⟨by decide, legal_at_top 1 (by decide), by decide⟩

/-- A ring of two at 0x30000000, stride 16: a link, the last link, the first and the last padding word, and a byte on
either side of the region. -/
theorem witness_CreateLaysOutTheRegion : State.reset.params.wf = true ∧ State.reset.params.coherent = true ∧
    State.reset.interleave = [] ∧ CreateLegal defaultParams.minAlign 0x30000000 0x30000000 16 2 ∧
    (0x30000000 : Word).toNat + strideOf 16 * (2 : Word).toNat ≤ 2 ^ 32 ∧
    (0 < (2 : Word).toNat ∧ (0x30000000 : Word).toNat = (0x30000000 : Word).toNat + 0 * strideOf 16) ∧
    (1 < (2 : Word).toNat ∧ (0x30000010 : Word).toNat = (0x30000000 : Word).toNat + 1 * strideOf 16) ∧
    (4 * 1 < strideOf 16 ∧ (0x30000004 : Word).toNat = (0x30000000 : Word).toNat + 0 * strideOf 16 + 4 * 1) ∧
    (4 * 3 < strideOf 16 ∧ (0x3000001C : Word).toNat = (0x30000000 : Word).toNat + 1 * strideOf 16 + 4 * 3) ∧
    (0x2FFFFFFF : Word).toNat < (0x30000000 : Word).toNat ∧
    (0x30000000 : Word).toNat + strideOf 16 * (2 : Word).toNat ≤ (0x30000020 : Word).toNat :=
  ⟨by decide, rfl, rfl, ⟨by decide, ⟨4, rfl⟩, by decide, by decide, by decide⟩, by decide, by decide, by decide, by decide,
    by decide, by decide, by decide⟩

theorem witness_CloneCopiesTheTemplate : (block ring4).RingInv ∧ (block ring4).params.coherent = true ∧
    ring4.cap ≠ 0 ∧ ring4.run = .stopped ∧ ring4.freeCnt = ring4.cap ∧
    defaultLayout.txWrap = (block ring4).params.layout.txWrap ∧ 0 < ring4.cap.toNat ∧ 3 + 1 = ring4.cap.toNat ∧
    ¬ring4.inDesc 0x1FFFFFFF :=
  ⟨ringInv_block sound_ring4 _ _, rfl, by decide, rfl, rfl, rfl, by decide, by decide, by
    rintro ⟨i, -, h, -⟩
    have : (ring4.base).toNat ≤ (0x1FFFFFFF : Word).toNat := Nat.le_trans (Nat.le_add_right _ _) h
    exact absurd this (by decide)⟩

theorem witness_CloneRefusesInOrder : State.reset.ring.cap = 0 ∧
    (ring4.cap ≠ 0 ∧ ({ ring4 with run := .started } : RingRegs).run = .started) ∧
    ((ring4.alloc 1).cap ≠ 0 ∧ (ring4.alloc 1).run = .stopped ∧ (ring4.alloc 1).freeCnt ≠ (ring4.alloc 1).cap) ∧
    (ring4.run = .stopped ∧ ring4.freeCnt = ring4.cap) := by decide

theorem witness_AllocMovesTheFreeHead : ring8.cap ≠ 0 ∧ (0 : Word).toNat ≤ ring8.freeCnt.toNat ∧
    (8 : Word).toNat ≤ ring8.freeCnt.toNat := by decide
theorem witness_AllocBeyondFreeFails : ring8.cap ≠ 0 ∧ ring8.freeCnt.toNat < (9 : Word).toNat := by decide
theorem witness_UnallocMovesTheFreeHeadBack : ring8pre.cap ≠ 0 ∧ (0 : Word).toNat ≤ ring8pre.preCnt.toNat ∧
    (3 : Word).toNat ≤ ring8pre.preCnt.toNat := by decide
theorem witness_UnallocBeyondPreFails : ring8pre.cap ≠ 0 ∧ ring8pre.preCnt.toNat < (4 : Word).toNat := by decide
theorem witness_UnallocUndoesAlloc : (block ring8 { Args.reset with arg0 := 8 }).RingInv ∧ ring8.cap ≠ 0 ∧
    (8 : Word).toNat ≤ ring8.freeCnt.toNat := ⟨ringInv_block sound_ring8 _ _, by decide, by decide⟩
theorem witness_SubmitHandsOverTheSet : ring8pre.cap ≠ 0 ∧ 0 < (3 : Word).toNat ∧
    (3 : Word).toNat ≤ ring8pre.preCnt.toNat ∧ (0x10000000 : Word) = ring8pre.preHead ∧
    (block ring8pre).params.coherent = true := by decide
theorem witness_SubmitOfNothingSucceeds : (block ring8pre).ring.cap ≠ 0 ∧ (block ring8pre).args.arg0 = 0 := by decide
/-- Each of the two alternatives alone (vectors 2.5). -/
theorem witness_SubmitOutOfSequenceFails : ring8pre.cap ≠ 0 ∧
    (0 < (4 : Word).toNat ∧ ring8pre.preCnt.toNat < (4 : Word).toNat) ∧
    (0 < (2 : Word).toNat ∧ (0x10000008 : Word) ≠ ring8pre.preHead) := by decide
theorem witness_SubmitCleansTheSlots :
    let s := behindCache (block ring8pre { Args.reset with arg0 := 3, arg1 := 0x10000000 })
      [{ addr := 0x10000017, byte := 7, dirty := true }]
    s.RingInv ∧ s.MemInv ∧ s.params.coherent = false ∧ s.interleave = [] ∧ s.ring.cap ≠ 0 ∧ 0 < s.args.arg0.toNat ∧
      s.args.arg0.toNat ≤ s.ring.preCnt.toNat ∧ s.args.arg1 = s.ring.preHead ∧ 2 < s.args.arg0.toNat ∧
      (s.ring.adv s.ring.preHead 2).toNat ≤ 0x10000017 ∧
      0x10000017 < (s.ring.adv s.ring.preHead 2).toNat + s.ring.stride.toNat :=
  ⟨⟨by decide, fun _ => sound_ring8pre⟩, ⟨rfl, by decide⟩, rfl, rfl, by decide, by decide, by decide, by decide, by decide,
    by decide, by decide⟩

theorem witness_ReclaimTxReturnsWholePackets : (block ring8hw).RingInv ∧ (block ring8hw).interleave = [] ∧
    ring8hw.cap ≠ 0 ∧ ring8hw.hwCnt ≠ 0 ∧ (block ring8hw).params.coherent = true :=
  ⟨ringInv_block sound_ring8hw _ _, rfl, by decide, by decide, rfl⟩
theorem witness_ReclaimRxReturnsWholeFrames : (behindCache (block ring8hw) []).RingInv ∧
    (behindCache (block ring8hw) []).interleave = [] ∧ ring8hw.cap ≠ 0 ∧ ring8hw.hwCnt ≠ 0 :=
  ⟨⟨by decide, fun _ => sound_ring8hw⟩, rfl, by decide, by decide⟩
theorem witness_ReclaimIsBoundedUnderAnyInterleaving : (block ring8hw).RingInv ∧ ring8hw.cap ≠ 0 :=
  ⟨ringInv_block sound_ring8hw _ _, by decide⟩
theorem witness_ReclaimOfNothingReturnsNothing : ring8.cap ≠ 0 ∧ ring8.hwCnt = 0 := by decide

theorem witness_FreeMovesThePostHead : ring8post.cap ≠ 0 ∧ 0 < (3 : Word).toNat ∧
    (3 : Word).toNat ≤ ring8post.postCnt.toNat ∧ (0x10000000 : Word) = ring8post.postHead := by decide
theorem witness_FreeOutOfSequenceFails : ring8post.cap ≠ 0 ∧ (block ring8post).args.arg0 = 0 ∧
    (0 < (4 : Word).toNat ∧ ring8post.postCnt.toNat < (4 : Word).toNat) ∧
    (0 < (1 : Word).toNat ∧ (0x10000008 : Word) ≠ ring8post.postHead) := by decide
theorem witness_CheckRefusesInOrder : State.reset.ring.cap = 0 ∧
    (ring2.cap ≠ 0 ∧ ({ ring2 with run := .started } : RingRegs).run = .started) ∧ ring2.run = .stopped := by decide

/-- `p` lies between the ring's first and last descriptor (R210 step 4). -/
def between (r : RingRegs) (p : Word) : Prop := r.base.toNat ≤ p.toNat ∧ p.toNat ≤ r.high.toNat

/-- The first and the last pointer just outside the ring, on either side; and counts that sum to one less. -/
theorem witness_CheckReportsPointersAndCounts :
    (ring8.cap ≠ 0 ∧ ring8.run = .stopped) ∧ ¬between ring8 0x10000039 ∧ ¬between ring8 0x0FFFFFFF ∧
    between ring8 ring8.freeHead ∧ between ring8 ring8.preHead ∧ between ring8 ring8.hwHead ∧
    between ring8 ring8.hwTail ∧ between ring8 ring8.postHead ∧
    (7 : Word).toNat + ring8.preCnt.toNat + ring8.hwCnt.toNat + ring8.postCnt.toNat ≠ ring8.cap.toNat := by
  unfold between
  decide

/-- A wrong link at the only tested descriptor; right links with and without the wrap flag. -/
theorem witness_CheckReportsLinksAndWrap :
    ((block ring2 Args.reset linked2).RingInv ∧ (block ring2 Args.reset linked2).interleave = [] ∧ ring2.cap ≠ 0 ∧
      ring2.run = .stopped ∧ 0 + 1 < ring2.cap.toNat ∧ ¬1 + 1 < ring2.cap.toNat) ∧
    ((block ring2 Args.reset (words [(0x30000000, 0)])).readWord (ring2.ptr 0)).toNat ≠
      (ring2.pbase.toNat + (0 + 1) * ring2.stride.toNat) % 2 ^ 32 ∧
    ((block ring2 Args.reset linked2).readWord (ring2.ptr 0)).toNat =
      (ring2.pbase.toNat + (0 + 1) * ring2.stride.toNat) % 2 ^ 32 ∧
    ((block ring2 Args.reset linked2).readWord (wordAddr ring2.high defaultLayout.txWrap.word)).getLsbD
      defaultLayout.txWrap.bit.val = true ∧
    ((block ring2 Args.reset linked2).readWord (wordAddr ring2.high defaultLayout.rxWrap.word)).getLsbD
      defaultLayout.rxWrap.bit.val = false :=
  ⟨⟨ringInv_block sound_ring2 _ _, rfl, by decide, rfl, by decide, by decide⟩, by decide +kernel, by decide +kernel,
    by decide +kernel, by decide +kernel⟩

theorem witness_StartAndStopSetTheRunState : (block { ring8 with run := .started }).ring.cap ≠ 0 ∧
    State.reset.ring.cap = 0 := by decide

theorem witness_OperandRegistersHoldWhatIsWritten : 0 < 4 ∧ 3 < 4 ∧
    ({ State.reset with events := [.regWrite 0x10 .w32 5, .regRead 0x10 .w32] } : State).events =
      [.regWrite (State.reset.params.regBase + BitVec.ofNat 32 (4 * 3 + 4)) .w32 5,
        .regRead (State.reset.params.regBase + BitVec.ofNat 32 (4 * 3 + 4)) .w32] := by decide
theorem witness_ReadOnlyRegistersIgnoreWrites : (0x14 ≤ 0xFC ∧ 0xFC < 0x100 ∧ 0xFC % 4 = 0 ∧ 0x14 % 4 = 0) ∧
    (facing State.reset (.regWrite 0xFC .w32 1)).events =
      [.regWrite (State.reset.params.regBase + BitVec.ofNat 32 0xFC) .w32 1] := by decide
/-- Each of the three cases at the ends of its range. -/
theorem witness_RegisterReadsFollowTheMap :
    (facing (block ring8) (.regRead 0x5C .w32)).events =
      [.regRead ((block ring8).params.regBase + BitVec.ofNat 32 0x5C) .w32] ∧
    (0x00, (0 : Word)) ∈ (block ring8).alwaysReadable ∧ (0x38, (0 : Word)) ∈ (block ring8).alwaysReadable ∧
    (0x60 ≤ 0x60 ∧ 0x60 % 4 = 0) ∧ (0xFC ≤ 0xFC ∧ 0xFC % 4 = 0) ∧ (block ring8).ringWritten = true ∧
    (0x24, ring8.stride) ∈ (block ring8).readableAfterCreate ∧
    (0x5C, ring8.postHead) ∈ (block ring8).readableAfterCreate := by decide
theorem witness_UnspecifiedReadsAreFreeDraws : State.reset.ringWritten = false ∧
    0x24 ∈ State.reset.readableAfterCreate.map Prod.fst ∧ 0x5C ∈ State.reset.readableAfterCreate.map Prod.fst ∧
    (facing State.reset (.regRead 0x24 .w32)).events =
      [.regRead (State.reset.params.regBase + BitVec.ofNat 32 0x24) .w32] := by decide
/-- A byte write of `ARG0` and a read of offset 0x02 (vectors 2.11), an offset past the map, and an access of another width at
an aligned offset of the map. -/
theorem witness_BadRegisterAccessIsMarked :
    (¬(RegWidth.w8 = .w32 ∧ (0x04 - State.reset.params.regBase).toNat % 4 = 0 ∧
        (0x04 - State.reset.params.regBase).toNat ≤ 0xFC) ∧
      ¬(RegWidth.w32 = .w32 ∧ (0x02 - State.reset.params.regBase).toNat % 4 = 0 ∧
        (0x02 - State.reset.params.regBase).toNat ≤ 0xFC) ∧
      ¬(RegWidth.w32 = .w32 ∧ (0x100 - State.reset.params.regBase).toNat % 4 = 0 ∧
        (0x100 - State.reset.params.regBase).toNat ≤ 0xFC) ∧
      ¬(RegWidth.other = .w32 ∧ (0x08 - State.reset.params.regBase).toNat % 4 = 0 ∧
        (0x08 - State.reset.params.regBase).toNat ≤ 0xFC)) ∧
    (facing State.reset (.regRead 0x02 .w32)).events = [.regRead 0x02 .w32] ∧
    (facing State.reset (.regRead 0x08 .other)).events = [.regRead 0x08 .other] ∧
    (facing State.reset (.regWrite 0x04 .w8 1)).events = [.regWrite 0x04 .w8 1] := by decide

/-- Each width, at its last byte, and a write followed by a read. -/
theorem witness_HostWordsReadBack : (facing State.reset (.memRead 0xFFFFFFFC .w32)).events = [.memRead 0xFFFFFFFC .w32] ∧
    (facing State.reset (.memRead 0x10000006 .w16)).events = [.memRead 0x10000006 .w16] ∧
    (facing State.reset (.memRead 0x10000007 .w8)).events = [.memRead 0x10000007 .w8] ∧
    (0 < Width.w8.bytes ∧ 1 < Width.w16.bytes ∧ 3 < Width.w32.bytes) ∧
    ({ State.reset with events := [.memWrite 0xFFFFFFFE .w16 1, .memRead 0xFFFFFFFE .w16] } : State).events =
      [.memWrite 0xFFFFFFFE .w16 1, .memRead 0xFFFFFFFE .w16] := by decide
/-- The last owned word and the first word past it. -/
theorem witness_HostWritesTouchTheirBytesAlone :
    (facing (block ring8hw) (.memWrite 0x10000014 .w32 1)).events = [.memWrite 0x10000014 .w32 1] ∧
    (3 < Width.w32.bytes ∧ ring8hw.hwOwned (0x10000014 + BitVec.ofNat 32 3) = true) ∧
    (∀ k : Nat, k < Width.w32.bytes → ring8hw.hwOwned (0x10000018 + BitVec.ofNat 32 k) = false) ∧
    ∀ k : Nat, k < Width.w8.bytes → (0x10000015 : Word) ≠ 0x10000014 + BitVec.ofNat 32 k := by decide
theorem witness_HostByteWriteSelectsByEndian : (0x10000014 : Word).toNat % 4 = 0 ∧ 3 < 4 ∧
    (facing State.reset (.memWrite 0x10000017 .w8 1)).events = [.memWrite (0x10000014 + BitVec.ofNat 32 3) .w8 1] := by
  decide

theorem witness_DmaOwnsTheHardwareDescriptors : ring8hw.cap ≠ 0 ∧ ring8hw.Sound ∧ ring8hw.hwOwned 0x10000017 = true ∧
    ring8hw.hwOwned 0x10000018 = false ∧ ring8hw.dmaEnabled 0x10000014 = true ∧ ring8hw.dmaEnabled 0x10000015 = false :=
  ⟨by decide, sound_ring8hw, by decide, by decide, by decide, by decide⟩
theorem witness_ArcsLieInRingOrder : ring8hw.cap ≠ 0 ∧ ring8hw.Sound ∧ 2 < ring8hw.cap.toNat ∧
    ¬2 < ring8hw.postCnt.toNat ∧ 2 < ring8hw.postCnt.toNat + ring8hw.hwCnt.toNat ∧
    ¬3 < ring8hw.postCnt.toNat + ring8hw.hwCnt.toNat + ring8hw.preCnt.toNat ∧ 7 < ring8hw.cap.toNat :=
  ⟨by decide, sound_ring8hw, by decide, by decide, by decide, by decide, by decide⟩
theorem witness_DmaStepsWriteOneWord :
    (facing (block ring8hw) (.agent (.dmaWrite 0x10000014 1))).events = [.agent (.dmaWrite 0x10000014 1)] ∧
    ring8hw.dmaEnabled 0x10000014 = true ∧ ring8hw.dmaEnabled 0x10000018 = false ∧
    (facing (block ring8hw) (.agent (.dmaRead 0x10000014))).events = [.agent (.dmaRead 0x10000014)] := by decide
/-- The last byte of the range. -/
theorem witness_CacheMaintenance :
    let s := behindCache State.reset [{ addr := 0xFFFFFFFF, byte := 7, dirty := true }]
    State.reset.MemInv ∧ State.reset.params.coherent = true ∧ s.MemInv ∧ s.params.coherent = false ∧
      (facing s (.cacheClean 0xFFFFFFFC 4)).events = [.cacheClean 0xFFFFFFFC 4] ∧
      (facing s (.cacheInval 0xFFFFFFFC 4)).events = [.cacheInval 0xFFFFFFFC 4] ∧
      (0xFFFFFFFC : Word).toNat ≤ 0xFFFFFFFF ∧ 0xFFFFFFFF < (0xFFFFFFFC : Word).toNat + (4 : Word).toNat :=
  ⟨⟨rfl, rfl⟩, rfl, ⟨rfl, by decide⟩, rfl, rfl, rfl, by decide, by decide⟩
/-- Each step on a coherent platform and on another, with a dirty byte in the word or line, and with none. -/
theorem witness_TheCacheActsOnItsOwn :
    let dirty := behindCache State.reset [{ addr := 0xFFFFFFFF, byte := 7, dirty := true }]
    let clean := behindCache State.reset [{ addr := 0xFFFFFFFF, byte := 7, dirty := false }]
    State.reset.MemInv ∧ State.reset.params.coherent = true ∧ dirty.MemInv ∧ clean.MemInv ∧
      dirty.params.coherent = false ∧ clean.params.coherent = false ∧
      (facing dirty (.agent (.cacheFill 0xFFFFFFFC))).events = [.agent (.cacheFill 0xFFFFFFFC)] ∧
      (∃ c ∈ dirty.cache, sameWord 0xFFFFFFFC c.addr = true ∧ c.dirty = true) ∧
      (∀ c ∈ clean.cache, sameWord 0xFFFFFFFC c.addr = true → c.dirty = false) ∧
      (∃ c ∈ dirty.cache, c.addr / dirty.params.cacheLine = (0xFFFFFFE0 : Word).toNat / dirty.params.cacheLine ∧
        c.dirty = true) ∧
      ∀ c ∈ clean.cache, c.addr / clean.params.cacheLine = (0xFFFFFFE0 : Word).toNat / clean.params.cacheLine →
        c.dirty = false :=
  ⟨⟨rfl, rfl⟩, rfl, ⟨rfl, by decide⟩, ⟨rfl, by decide⟩, rfl, rfl, rfl, by decide, by decide, by decide, by decide⟩

theorem witness_EveryStepKeepsTheRingSound :
    (block ring8post { Args.reset with arg0 := 3, arg1 := 0x10000000 }).RingInv ∧
    ∃ t, step ((block ring8post { Args.reset with arg0 := 3, arg1 := 0x10000000 }).withFetchWord 32 8) = .next t :=
  ⟨ringInv_block sound_ring8post _ _, _, rfl⟩
theorem witness_EveryStepKeepsMemoryCanonical : (facing (block ring8) (.memWrite 0xFFFFFFFE .w32 1)).MemInv ∧
    ∃ t, step (facing (block ring8) (.memWrite 0xFFFFFFFE .w32 1)) = .next t := ⟨⟨rfl, rfl⟩, _, rfl⟩
theorem witness_FaultMarksStay :
    let s := facing { block ring8 with faults := FaultSet.none.add .badRegAccess } (.memRead 0 .w8)
    (∃ t, step s = .next t) ∧ s.events.head? ≠ some .powerOnReset ∧ s.faults.has .badRegAccess = true :=
  ⟨⟨_, rfl⟩, by decide, rfl⟩
theorem witness_OnlyCommandsWriteTheRing :
    let s := facing (block ring8) (.regWrite 0x04 .w32 1)
    (∃ t, step s = .next t) ∧ s.events.head? ≠ some .powerOnReset ∧
      ∀ (a v : Word) (w : RegWidth), s.events.head? = some (.regWrite a w v) → a ≠ s.params.regBase := by
  refine ⟨⟨_, rfl⟩, by decide, ?_⟩
  intro a v w h
  cases h
  decide

/-- L1-4 (a), at the smallest limit. -/
theorem witness_AFullCycleRotatesTheRing :
    let s := block ring8 Args.reset lastBits
    s.RingInv ∧ s.params.coherent = true ∧ s.interleave = [] ∧ s.ring.cap ≠ 0 ∧ s.ring.freeCnt = s.ring.cap ∧
      0 < (3 : Word).toNat ∧ (3 : Word).toNat ≤ s.ring.cap.toNat ∧ (3 : Word).toNat ≤ (3 : Word).toNat ∧
      (s.readWord (wordAddr (s.ring.adv s.ring.freeHead (3 - 1)) s.params.layout.txLast.word)).getLsbD
        s.params.layout.txLast.bit.val = true ∧ s.params.txUsedStop = false :=
  ⟨ringInv_block sound_ring8 _ _, rfl, rfl, by decide, rfl, by decide, by decide, by decide, by decide +kernel, rfl⟩

end Sys2Proof.Tests
end

section
/-! PROOFS. Which words the decoder accepts, in numbers, and what a `CMD` write of any word does (30_encoding.md R91, R95,
R96). The key fact is `decode_eq_ok_iff`: a word decodes to a command exactly when `RSVD` is 0 and `OP` and `DIR` are the
command's own. -/

namespace Sys2Proof

/-! ### The fields of a command word in numbers (R91, R92) -/

@[simp] theorem toNat_opField (w : Word) : (opField w).toNat = w.toNat % 16 := by
  simp [opField]

@[simp] theorem toNat_dirBits (w : Word) : (dirBits w).toNat = w.toNat / 16 % 4 := by
  simp [dirBits, Nat.shiftRight_eq_div_pow]

theorem rsvdField_eq_zero_iff (w : Word) : rsvdField w = 0 ↔ w.toNat / 64 = 0 := by
  have hw : w.toNat < 2 ^ 32 := w.isLt
  rw [← BitVec.toNat_inj]
  simp only [rsvdField, BitVec.extractLsb'_toNat, Nat.shiftRight_eq_div_pow, BitVec.ofNat_eq_ofNat, BitVec.toNat_ofNat]
  omega

@[simp] theorem DirField.toBits_ofBits : ∀ b : BitVec 2, (DirField.ofBits b).toBits = b := by decide

@[simp] theorem DirField.ofBits_toBits (d : DirField) : DirField.ofBits d.toBits = d := by
  cases d <;> rfl

/-- `DIR` names a value exactly when its bits are that value's. -/
theorem DirField.eq_ofBits_iff (d : DirField) (b : BitVec 2) : d = DirField.ofBits b ↔ d.toBits.toNat = b.toNat := by
  rw [BitVec.toNat_inj]
  constructor
  · rintro rfl
    exact toBits_ofBits b
  · rintro rfl
    exact (ofBits_toBits d).symm

/-! ### What decodes (R95, R96) -/

@[simp] theorem undirected_eq_ok_iff (dir : DirField) (i j : Instr) :
    undirected dir i = .ok j ↔ dir = .d00 ∧ i = j := by
  cases dir <;> simp [undirected]

/-- The opcode table read both ways: `OP` and `DIR` select the one command whose own they are. -/
theorem decodeOp_eq_ok_iff (op : Nat) (dir : DirField) (i : Instr) :
    decodeOp op dir = .ok i ↔ i.opcode.toNat = op ∧ i.dir = dir := by
  constructor
  · intro h
    unfold decodeOp at h
    split at h
    case h_2 | h_9 =>
      cases h
      exact ⟨rfl, rfl⟩
    case h_12 => cases h
    all_goals
      obtain ⟨rfl, rfl⟩ := (undirected_eq_ok_iff _ _ _).mp h
      exact ⟨rfl, rfl⟩
  · rintro ⟨rfl, rfl⟩
    cases i <;> rfl

/-- A word decodes to a command exactly when `RSVD` is 0 and its `OP` and `DIR` are the command's. -/
theorem decode_eq_ok_iff (w : Word) (i : Instr) :
    decode w = .ok i ↔
      w.toNat / 64 = 0 ∧ i.opcode.toNat = w.toNat % 16 ∧ i.dir.toBits.toNat = w.toNat / 16 % 4 := by
  rw [← rsvdField_eq_zero_iff, ← toNat_opField, ← toNat_dirBits, ← DirField.eq_ofBits_iff, ← decodeOp_eq_ok_iff]
  unfold decode
  split
  next h => exact iff_of_false nofun fun hok => h hok.1
  next h => rw [and_iff_right (not_not.mp h)]

/-- What the opcode table admits: `OP` is 1 to 11, and only CLONE (2) and CHECK (9) take a `DIR` other than 00. -/
theorem Instr.opcode_dir_legal (i : Instr) :
    (1 ≤ i.opcode.toNat ∧ i.opcode.toNat ≤ 11) ∧
      (i.opcode.toNat = 2 ∨ i.opcode.toNat = 9 ∨ i.dir.toBits.toNat = 0) := by
  cases i <;> simp [Instr.opcode, Instr.dir, DirField.toBits]

/-- The command without a choice of direction that an `OP` names (R96). -/
theorem exists_instr_of_opcode {op : Nat} (h1 : 1 ≤ op) (h11 : op ≤ 11) :
    ∃ i : Instr, i.opcode.toNat = op ∧ i.dir = .d00 := by
  interval_cases op
  · exact ⟨.create, rfl, rfl⟩
  · exact ⟨.clone .d00, rfl, rfl⟩
  · exact ⟨.alloc, rfl, rfl⟩
  · exact ⟨.unalloc, rfl, rfl⟩
  · exact ⟨.submit, rfl, rfl⟩
  · exact ⟨.reclaimTx, rfl, rfl⟩
  · exact ⟨.reclaimRx, rfl, rfl⟩
  · exact ⟨.free, rfl, rfl⟩
  · exact ⟨.check .d00, rfl, rfl⟩
  · exact ⟨.start, rfl, rfl⟩
  · exact ⟨.stop, rfl, rfl⟩

/-- `opcode_dir_legal` is all the table asks: each such `OP` with each such `DIR` has its command. -/
theorem exists_instr_of_legal {op : Nat} {b : BitVec 2} (hop : 1 ≤ op ∧ op ≤ 11)
    (hdir : op = 2 ∨ op = 9 ∨ b.toNat = 0) : ∃ i : Instr, i.opcode.toNat = op ∧ i.dir.toBits = b := by
  obtain rfl | rfl | hb := hdir
  · exact ⟨.clone (.ofBits b), rfl, DirField.toBits_ofBits b⟩
  · exact ⟨.check (.ofBits b), rfl, DirField.toBits_ofBits b⟩
  · obtain ⟨i, hi, hd⟩ := exists_instr_of_opcode hop.1 hop.2
    refine ⟨i, hi, ?_⟩
    rw [hd]
    exact (BitVec.eq_of_toNat_eq hb).symm

/-- R95 in numbers: the words that select a command. -/
theorem exists_decode_eq_ok_iff (w : Word) :
    (∃ i, decode w = .ok i) ↔
      w.toNat / 64 = 0 ∧ (1 ≤ w.toNat % 16 ∧ w.toNat % 16 ≤ 11) ∧
        (w.toNat % 16 = 2 ∨ w.toNat % 16 = 9 ∨ w.toNat / 16 % 4 = 0) := by
  simp only [decode_eq_ok_iff]
  constructor
  · rintro ⟨i, hrsvd, hop, hdir⟩
    have hlegal := i.opcode_dir_legal
    rw [hop, hdir] at hlegal
    exact ⟨hrsvd, hlegal⟩
  · rintro ⟨hrsvd, hop, hdir⟩
    rw [← toNat_dirBits] at hdir
    obtain ⟨i, hi, hd⟩ := exists_instr_of_legal hop hdir
    exact ⟨i, hrsvd, hi, by rw [hd, toNat_dirBits]⟩

end Sys2Proof

namespace Sys2Proof.Machine

/-! ### A `CMD` write (R44, R95) -/

/-- The host's write of a word to `CMD` hands that word to the decoder. -/
theorem step_cmdWrite {s : State} {w : Word} {rest : List Event} (h : s.events = cmdWrite s.params w :: rest) :
    step s = runCommand w { s with events := rest } := by
  have hoff : regOffset s.params s.params.regBase .w32 = some 0 := by
    simpa using regOffset_at s.params (off := 0) (by decide) (by decide)
  rw [step_of_cons h]
  simp only [cmdWrite, runEvent, hostRegWrite, hoff]

theorem runCommand_of_ok {w : Word} {i : Instr} (h : decode w = .ok i) (s : State) : runCommand w s = exec i s := by
  simp only [runCommand, h]

/-- A word that decodes to no command writes the result registers only. -/
theorem runCommand_of_not_ok {w : Word} (h : ¬∃ i, decode w = .ok i) (s : State) :
    runCommand w s = .next { s with res := { code := .illegalCommand, ptr := 0, count := 0 } } := by
  unfold runCommand
  split
  next i hi => exact absurd ⟨i, hi⟩ h
  next => rfl

/-- Settles O2: the condition on the word is the failure of `exists_decode_eq_ok_iff`, and the command it otherwise runs is
the one of the word's `OP` and `DIR` by `decode_eq_ok_iff`. -/
theorem illegalWordsAreExactlyThese : Obligations.IllegalWordsAreExactlyThese := by
  intro s w rest hev
  rw [step_cmdWrite hev]
  split
  next hillegal =>
    refine runCommand_of_not_ok (fun hok => ?_) _
    rw [exists_decode_eq_ok_iff] at hok
    omega
  next hlegal =>
    obtain ⟨i, hi⟩ := (exists_decode_eq_ok_iff w).mpr (by omega)
    obtain ⟨-, hop, hdir⟩ := (decode_eq_ok_iff w i).mp hi
    exact ⟨i, hop, hdir, runCommand_of_ok hi _⟩

end Sys2Proof.Machine
end

section
/-! PROOFS. CREATE's checks, its stride and the registers it leaves, and CLONE's preconditions (40_ring_setup.md). The key
facts are `createStride_toNat`, which turns the bit trick of R123 into `max 8 al`, and `exec_create_eq`, which says how CREATE
can end. -/

namespace Sys2Proof.Machine
open Sys2Proof.Config

/-! ### The element stride (R123) -/

/-- Clearing the bits below a power of two takes the remainder off. -/
theorem Word.and_not_pred_toNat {x al : Word} {k : Nat} (hal : al.toNat = 2 ^ k) :
    (x &&& ~~~(al - 1)).toNat = x.toNat - x.toNat % al.toNat := by
  have hpred : (al - 1).toNat = al.toNat - 1 := Word.sub_toNat (b := 1) (hal ▸ Nat.one_le_two_pow)
  have hlow : (x &&& (al - 1)).toNat = x.toNat % al.toNat := by
    rw [BitVec.toNat_and, hpred, hal, Nat.and_two_pow_sub_one_eq_mod]
  have hdisjoint : (x &&& ~~~(al - 1)) &&& (x &&& (al - 1)) = 0#32 := by
    ext i
    simp
    tauto
  have hsplit : x &&& ~~~(al - 1) = x - (x &&& (al - 1)) := by
    rw [eq_sub_iff_add_eq, BitVec.add_eq_or_of_and_eq_zero _ _ hdisjoint]
    ext i
    simp [← Bool.and_or_distrib_left]
  rw [hsplit, Word.sub_toNat (hlow ▸ Nat.mod_le _ _), hlow]

/-- A power of two from 4 up is 4, or from 8 up. -/
theorem eq_four_or_eight_le_of_two_pow {n k : Nat} (hn : n = 2 ^ k) (h4 : 4 ≤ n) : n = 4 ∨ 8 ≤ n := by
  obtain hk | hk : k ≤ 2 ∨ 3 ≤ k := by omega
  · have : n ≤ 2 ^ 2 := hn ▸ Nat.pow_le_pow_right (by omega) hk
    omega
  · have : 2 ^ 3 ≤ n := hn ▸ Nat.pow_le_pow_right (by omega) hk
    omega

/-- A power of two in a word leaves room for the 7 that R123 adds to it. -/
theorem descSize_add_lt_of_two_pow {al : Word} {k : Nat} (hal : al.toNat = 2 ^ k) :
    descSize + al.toNat - 1 < 2 ^ 32 := by
  have hk : k < 32 := (Nat.pow_lt_pow_iff_right (a := 2) (by omega)).mp (hal ▸ al.isLt)
  have : al.toNat ≤ 2 ^ 31 := hal ▸ Nat.pow_le_pow_right (by omega) (by omega)
  simp only [descSize]
  omega

/-- The stride in numbers: `al + 7` is rounded down to `al` if 7 is below `al`, and from 11 to 8 if `al` is 4. -/
theorem createStride_toNat {al : Word} {k : Nat} (hal : al.toNat = 2 ^ k) (h4 : 4 ≤ al.toNat) :
    (createStride al).toNat = strideOf al := by
  have hfit := descSize_add_lt_of_two_pow hal
  have hsum : (BitVec.ofNat 32 descSize + al - 1).toNat = al.toNat + 7 := by
    simp only [descSize] at hfit ⊢
    bv_omega
  rw [createStride, Word.and_not_pred_toNat hal, hsum, strideOf]
  obtain h | h := eq_four_or_eight_le_of_two_pow hal h4
  · rw [h]
    rfl
  · rw [Nat.add_mod_left, Nat.mod_eq_of_lt (by omega)]
    omega

/-- Settles O17. -/
theorem strideIsTheRoundedDescriptorSize : Obligations.StrideIsTheRoundedDescriptorSize :=
  ⟨fun _ => rfl, fun _ _ hal h4 => ⟨descSize_add_lt_of_two_pow hal, createStride_toNat hal h4⟩⟩

/-! ### What legal operands give (R122, R123, R124) -/

/-- Under legal parameters the minimum alignment is at least 4 (R8). -/
theorem four_le_minAlign {p : Params} (hp : p.wf = true) : 4 ≤ p.minAlign.toNat := by
  simp only [Params.wf, Bool.and_eq_true, decide_eq_true_eq] at hp
  exact hp.1.1.1

theorem CreateLegal.stride_toNat {p : Params} (hp : p.wf = true) {pb vb al cnt : Word}
    (h : CreateLegal p.minAlign pb vb al cnt) : (createStride al).toNat = strideOf al := by
  obtain ⟨hmin, ⟨k, hal⟩, -⟩ := h
  exact createStride_toNat hal ((four_le_minAlign hp).trans hmin)

/-- The range check of R124 in exact arithmetic. -/
theorem CreateLegal.wraps_iff {p : Params} (hp : p.wf = true) {pb vb al cnt : Word}
    (h : CreateLegal p.minAlign pb vb al cnt) :
    createWraps vb (createStride al) cnt = true ↔ 2 ^ 32 < vb.toNat + strideOf al * cnt.toNat := by
  rw [createWraps, h.stride_toNat hp, decide_eq_true_iff]

/-- A ring laid out by legal operands within the address space is sound (R30 to R36, R127). -/
theorem CreateLegal.createdRing_sound {p : Params} (hp : p.wf = true) {pb vb al cnt : Word}
    (h : CreateLegal p.minAlign pb vb al cnt) (hfit : vb.toNat + strideOf al * cnt.toNat ≤ 2 ^ 32) :
    (createdRing pb vb (createStride al) cnt).Sound := by
  have hst := h.stride_toNat hp
  obtain ⟨hmin, ⟨k, hal⟩, hpb, hvb, hcnt⟩ := h
  have h4 : 4 ≤ al.toNat := (four_le_minAlign hp).trans hmin
  have hdvd : 4 ∣ al.toNat := by
    have hk : 2 ≤ k := (Nat.pow_le_pow_iff_right (a := 2) (by omega)).mp (hal ▸ h4)
    exact hal ▸ pow_dvd_pow 2 hk
  have hpow : ∃ j, 3 ≤ j ∧ strideOf al = 2 ^ j := by
    obtain h | h := eq_four_or_eight_le_of_two_pow hal h4
    · exact ⟨3, le_rfl, by simp [strideOf, h]⟩
    · exact ⟨k, (Nat.pow_le_pow_iff_right (a := 2) (by omega)).mp (hal ▸ h), by rw [strideOf, max_eq_right h, hal]⟩
  refine Machine.createdRing_sound (by rwa [hst]) (Nat.mod_eq_zero_of_dvd (hdvd.trans hvb))
    (Nat.mod_eq_zero_of_dvd (hdvd.trans hpb)) (fun h0 => hcnt (by rw [h0]; rfl)) ?_
  rw [hst, Nat.mul_comm]
  exact hfit

/-- R31 for that ring: where its last descriptor is. -/
theorem CreateLegal.createdRing_high {p : Params} (hp : p.wf = true) {pb vb al cnt : Word}
    (h : CreateLegal p.minAlign pb vb al cnt) (hfit : vb.toNat + strideOf al * cnt.toNat ≤ 2 ^ 32) :
    (createdRing pb vb (createStride al) cnt).high.toNat = vb.toNat + (cnt.toNat - 1) * strideOf al := by
  rw [← h.stride_toNat hp]
  exact (h.createdRing_sound hp hfit).high

/-! ### The three ways CREATE ends (R120) -/

/-- What a successful CREATE leaves (R125 to R127). -/
def State.created (s : State) : State :=
  let st := createStride s.args.arg2
  let laid := layRing s.args.arg0 s.args.arg1 st s.args.arg3 (createBegin s)
  { laid with
    ring := createdRing s.args.arg0 s.args.arg1 st s.args.arg3
    ringWritten := true
    res := { code := .success, ptr := 0, count := 0 } }

@[simp] theorem State.created_ring (s : State) :
    s.created.ring = createdRing s.args.arg0 s.args.arg1 (createStride s.args.arg2) s.args.arg3 := rfl
@[simp] theorem State.created_res (s : State) : s.created.res = { code := .success, ptr := 0, count := 0 } := rfl
@[simp] theorem State.created_ringWritten (s : State) : s.created.ringWritten = true := rfl

/-- CREATE's tests in their order, and the state each leads to. -/
theorem exec_create_eq (s : State) :
    exec .create s = .next
      (if createBad s.params.minAlign s.args.arg0 s.args.arg1 s.args.arg2 s.args.arg3 then
        (createBegin s).withRes .invalidParameter 0 0
      else if createWraps s.args.arg1 (createStride s.args.arg2) s.args.arg3 then
        (createBegin s).withRes .listRangeError 0 0
      else s.created) := by
  rw [apply_ite Host.Outcome.next, apply_ite Host.Outcome.next, ← createBegin_params s]
  rfl

/-- R122. -/
theorem exec_create_of_not_legal {s : State} (hp : s.params.wf = true)
    (hill : ¬CreateLegal s.params.minAlign s.args.arg0 s.args.arg1 s.args.arg2 s.args.arg3) :
    exec .create s = .next ((createBegin s).withRes .invalidParameter 0 0) := by
  rw [← createBad_eq_false_iff hp, Bool.not_eq_false] at hill
  rw [exec_create_eq, if_pos hill]

/-- R124. -/
theorem exec_create_of_wraps {s : State} (hp : s.params.wf = true)
    (hlegal : CreateLegal s.params.minAlign s.args.arg0 s.args.arg1 s.args.arg2 s.args.arg3)
    (hwrap : 2 ^ 32 < s.args.arg1.toNat + strideOf s.args.arg2 * s.args.arg3.toNat) :
    exec .create s = .next ((createBegin s).withRes .listRangeError 0 0) := by
  have hbad := Bool.eq_false_iff.mp ((createBad_eq_false_iff hp _ _ _ _).mpr hlegal)
  rw [exec_create_eq, if_neg hbad, if_pos ((hlegal.wraps_iff hp).mpr hwrap)]

/-- R125 to R127. -/
theorem exec_create_of_fits {s : State} (hp : s.params.wf = true)
    (hlegal : CreateLegal s.params.minAlign s.args.arg0 s.args.arg1 s.args.arg2 s.args.arg3)
    (hfit : s.args.arg1.toNat + strideOf s.args.arg2 * s.args.arg3.toNat ≤ 2 ^ 32) :
    exec .create s = .next s.created := by
  have hbad := Bool.eq_false_iff.mp ((createBad_eq_false_iff hp _ _ _ _).mpr hlegal)
  rw [exec_create_eq, if_neg hbad, if_neg (fun h => hfit.not_gt ((hlegal.wraps_iff hp).mp h))]

/-- A refused CREATE leaves no ring, its code, and a mark if the ring was live; nothing else changes (R128, R129). -/
theorem createBegin_withRes_eq (s : State) (c : ResultCode) :
    (createBegin s).withRes c 0 0 =
      { s with
        ring := { s.ring with cap := 0 }, res := { code := c, ptr := 0, count := 0 }, faults := (createBegin s).faults } := by
  unfold createBegin
  split <;> rfl

/-- Settles O15. -/
theorem createRefusesIllegalOperands : Obligations.CreateRefusesIllegalOperands := by
  intro s hp hill
  exact ⟨_, exec_create_of_not_legal hp hill, createBegin_withRes_eq s .invalidParameter⟩

/-- Settles O16: the operands are checked before the range. -/
theorem createRefusesAWrappingRange : Obligations.CreateRefusesAWrappingRange := by
  intro s hp hwrap
  by_cases hlegal : CreateLegal s.params.minAlign s.args.arg0 s.args.arg1 s.args.arg2 s.args.arg3
  · exact ⟨_, .listRangeError, exec_create_of_wraps hp hlegal hwrap, createBegin_withRes_eq s _, fun _ => rfl,
      fun hill => absurd hlegal hill⟩
  · exact ⟨_, .invalidParameter, exec_create_of_not_legal hp hlegal, createBegin_withRes_eq s _,
      fun h => absurd h hlegal, fun _ => rfl⟩

/-- Settles O18: the registers are those of `createdRing`. -/
theorem createSetsEveryRingRegister : Obligations.CreateSetsEveryRingRegister := by
  intro s hp hlegal hfit
  refine ⟨s.created, exec_create_of_fits hp hlegal hfit, s.created_res, ?_⟩
  rw [s.created_ring]
  exact ⟨rfl, hlegal.stride_toNat hp, rfl, rfl, hlegal.createdRing_high hp hfit, rfl, rfl, rfl, rfl, rfl, rfl, rfl, rfl,
    rfl, rfl, rfl, s.created_ringWritten⟩

/-! ### CLONE's preconditions (R133) -/

/-- The directions that name no wrap flag (R99). -/
theorem wrapFlag_eq_none {dir : DirField} (l : Layout) (h : dir = .d00 ∨ dir = .d11) : wrapFlag l dir = none := by
  obtain rfl | rfl := h <;> rfl

/-- Settles O22: each precondition's test is reached when those before it have passed. -/
theorem cloneRefusesInOrder : Obligations.CloneRefusesInOrder := by
  intro s dir
  have hexec : exec (.clone dir) s = execClone dir s := rfl
  rw [hexec, execClone]
  refine ⟨fun h0 => ?noRing, fun h0 hrun => ?started, fun h0 hrun hfree => ?notFree, fun h0 hrun hfree hdir => ?direction⟩
  case noRing =>
    rw [if_pos h0]
    rfl
  case started =>
    rw [if_neg h0, if_pos hrun]
    rfl
  case notFree =>
    rw [if_neg h0, if_neg (by simp [hrun]), if_pos hfree]
    rfl
  case direction =>
    rw [if_neg h0, if_neg (by simp [hrun]), if_neg (not_not.mpr hfree), wrapFlag_eq_none _ hdir]
    rfl

end Sys2Proof.Machine
end

section
/-! PROOFS. ALLOC, UNALLOC and the refusals of SUBMIT (41_alloc_submit.md). The key facts are `exec_alloc_eq`,
`exec_unalloc_eq` and `exec_submit_eq`, which say how each command can end when there is a ring, with its counts compared as
numbers. -/

namespace Sys2Proof.Machine

/-! ### How each command ends when there is a ring (R150, R155, R160) -/

/-- ALLOC's one test, and the state each outcome leads to (R151 to R153). -/
theorem exec_alloc_eq {s : State} (hc : s.ring.cap ≠ 0) :
    exec .alloc s = .next
      (if s.ring.freeCnt.toNat < s.args.arg0.toNat then s.withRes .failure 0 0
      else (s.withRing (s.ring.alloc s.args.arg0)).withRes .success s.ring.freeHead 0) := by
  rw [apply_ite Host.Outcome.next]
  exact if_neg hc

/-- UNALLOC's one test, and the state each outcome leads to (R157, R158). -/
theorem exec_unalloc_eq {s : State} (hc : s.ring.cap ≠ 0) :
    exec .unalloc s = .next
      (if s.ring.preCnt.toNat < s.args.arg0.toNat then s.withRes .failure 0 0
      else (s.withRing (s.ring.unalloc s.args.arg0)).withRes .success 0 0) := by
  rw [apply_ite Host.Outcome.next]
  exact if_neg hc

/-- What a successful SUBMIT of `n > 0` leaves (R164, R165): its slots cleaned, then the set handed over. -/
def State.submitted (s : State) : State :=
  let cleaned := cleanSlots s.args.arg1 s.args.arg0.toNat 0 s
  (cleaned.withRing (cleaned.ring.submit s.args.arg0 s.args.arg1)).withRes .success 0 0

/-- SUBMIT's tests in their order, and the state each leads to (R162, R163, R165). -/
theorem exec_submit_eq {s : State} (hc : s.ring.cap ≠ 0) :
    exec .submit s = .next
      (if s.args.arg0 = 0 then s.withRes .success 0 0
      else if s.ring.preCnt.toNat < s.args.arg0.toNat ∨ s.args.arg1 ≠ s.ring.preHead then
        s.withRes .listStateError 0 0
      else s.submitted) := by
  have hexec : exec .submit s = execSubmit s := rfl
  rw [hexec, execSubmit, if_neg hc, apply_ite Host.Outcome.next, apply_ite Host.Outcome.next]
  simp only [Bool.or_eq_true, decide_eq_true_eq, BitVec.lt_def]
  rfl

/-! ### ALLOC (R150 to R153) -/

/-- Settles O23: the count passes ALLOC's test. -/
theorem allocMovesTheFreeHead : Obligations.AllocMovesTheFreeHead := by
  intro s hc hn
  rw [exec_alloc_eq hc, if_neg hn.not_gt]
  rfl

/-- Settles O24: the count fails ALLOC's test. -/
theorem allocBeyondFreeFails : Obligations.AllocBeyondFreeFails := by
  intro s hc hn
  rw [exec_alloc_eq hc, if_pos hn]
  rfl

/-! ### UNALLOC (R155 to R158) -/

/-- Settles O25: the count passes UNALLOC's test. -/
theorem unallocMovesTheFreeHeadBack : Obligations.UnallocMovesTheFreeHeadBack := by
  intro s hc hn
  rw [exec_unalloc_eq hc, if_neg hn.not_gt]
  rfl

/-- Settles O26: the count fails UNALLOC's test. -/
theorem unallocBeyondPreFails : Obligations.UnallocBeyondPreFails := by
  intro s hc hn
  rw [exec_unalloc_eq hc, if_pos hn]
  rfl

/-! ### SUBMIT (R160 to R163) -/

/-- Settles O29: `n = 0` is SUBMIT's first test, before the pointer is looked at. -/
theorem submitOfNothingSucceeds : Obligations.SubmitOfNothingSucceeds := by
  intro s hc h0
  rw [exec_submit_eq hc, if_pos h0]
  rfl

/-- Settles O30: with `n > 0` SUBMIT's second test is reached, and either cause fails it. -/
theorem submitOutOfSequenceFails : Obligations.SubmitOutOfSequenceFails := by
  intro s hc hpos hbad
  have hne : s.args.arg0 ≠ 0 := fun h0 => by simp [h0] at hpos
  rw [exec_submit_eq hc, if_neg hne, if_pos hbad]
  rfl

end Sys2Proof.Machine
end

section
/-! PROOFS. The RECLAIM of an empty hardware partition (42_reclaim.md R182). The key fact is `reclaim_of_hwCnt_eq_zero`: the
shared body of both commands ends before its scan. -/

namespace Sys2Proof.Machine
open Sys2Proof.Config

/-- With a ring and an empty hardware partition a reclaim ends before its scan, whatever its flags and limit (R182). -/
theorem reclaim_of_hwCnt_eq_zero {s : State} (hc : s.ring.cap ≠ 0) (hw : s.ring.hwCnt = 0) (t : FlagPos)
    (o : Option FlagPos) (limit : Word) : reclaim t o limit s = .next (s.withRes .success 0 0) := by
  rw [reclaim, if_neg hc, if_pos hw, finish_eq]

/-- Settles O35: either command is the shared reclaim with its own flags and limit. -/
theorem reclaimOfNothingReturnsNothing : Obligations.ReclaimOfNothingReturnsNothing := by
  intro i s hi hc hw
  obtain rfl | rfl := hi
  · exact reclaim_of_hwCnt_eq_zero hc hw s.params.layout.txLast (txStopFlag s.params) s.reclaimTxLimit
  · exact reclaim_of_hwCnt_eq_zero hc hw s.params.layout.rxEof (some s.params.layout.rxNew) s.reclaimRxLimit

end Sys2Proof.Machine
end

section
/-! PROOFS. CHECK's refusals and its frame, and START and STOP (43_free_check_run.md). The key facts are `exec_check_frame`,
which reads CHECK's frame off `execCheck_cases`, and `exec_start_eq` and `exec_stop_eq`, which say how the two run commands
can end. -/

namespace Sys2Proof.Machine

/-! ### CHECK (R210, R211, R215) -/

/-- However CHECK ends and whoever steps inside it, it writes `RES` alone of the registers; with no agent stepping inside it,
`RES` is all it writes. -/
theorem exec_check_frame {dir : DirField} {s t : State} (h : exec (.check dir) s = .next t) :
    t.ring = s.ring ∧ t.args = s.args ∧ t.faults = s.faults ∧ (s.interleave = [] → t = { s with res := t.res }) := by
  obtain ⟨u, hread, hquiet, ⟨c, p, k, rfl⟩, -⟩ := execCheck_cases dir s t h
  have hmem : s.MemOnly u := hread.only
  refine ⟨hmem.ring, hmem.args, hmem.faults, fun hempty => ?_⟩
  rw [hquiet hempty]
  rfl

/-- Settles O38: each refusal's test is reached when those before it have passed. -/
theorem checkRefusesInOrder : Obligations.CheckRefusesInOrder := by
  intro s dir
  have hexec : exec (.check dir) s = execCheck dir s := rfl
  refine ⟨fun h0 => ?noRing, fun h0 hrun => ?started, fun h0 hrun hdir => ?direction, fun _ => exec_check_frame⟩
  case noRing =>
    rw [hexec, execCheck, if_pos h0]
    rfl
  case started =>
    rw [hexec, execCheck, if_neg h0, if_pos hrun]
    rfl
  case direction =>
    rw [hexec, execCheck, if_neg h0, if_neg (by simp [hrun]), wrapFlag_eq_none _ hdir]
    rfl

/-! ### START and STOP (R216, R219) -/

/-- START's one test, and the state each outcome leads to (R216). -/
theorem exec_start_eq (s : State) :
    exec .start s = .next
      (if s.ring.cap = 0 then s.withRes .noList 0 0
      else (s.withRing { s.ring with run := .started }).withRes .success 0 0) := by
  rw [apply_ite Host.Outcome.next]
  rfl

/-- STOP's one test, and the state each outcome leads to (R219). -/
theorem exec_stop_eq (s : State) :
    exec .stop s = .next
      (if s.ring.cap = 0 then s.withRes .noList 0 0
      else (s.withRing { s.ring with run := .stopped }).withRes .success 0 0) := by
  rw [apply_ite Host.Outcome.next]
  rfl

/-- Settles O41: neither command looks at the run state it finds. -/
theorem startAndStopSetTheRunState : Obligations.StartAndStopSetTheRunState := by
  intro s
  rw [exec_start_eq, exec_stop_eq]
  constructor
  · intro hc
    rw [if_neg hc, if_neg hc]
    exact ⟨rfl, rfl⟩
  · intro h0
    rw [if_pos h0, if_pos h0]
    exact ⟨rfl, rfl⟩

end Sys2Proof.Machine
end

section
/-! PROOFS. Every command but CREATE with no ring (60_exceptions.md R232). The key fact is `exec_of_noRing`: the ring test
comes before every other test of the command and before its first memory event (30_encoding.md R104). -/

namespace Sys2Proof.Machine
open Sys2Proof.Config

/-- With no ring a reclaim ends before its scan, whatever its flags and limit (R232). -/
theorem reclaim_of_noRing {s : State} (h0 : s.ring.cap = 0) (t : FlagPos) (o : Option FlagPos) (limit : Word) :
    reclaim t o limit s = .next (s.withRes .noList 0 0) := by
  rw [reclaim, if_pos h0, finish_eq]

/-- The commands whose refusals were settled in order give their first refusal; the two reclaims share one body; the four
that are left open with the ring test themselves. -/
theorem exec_of_noRing {i : Instr} {s : State} (hi : i ≠ .create) (h0 : s.ring.cap = 0) :
    exec i s = .next (s.withRes .noList 0 0) := by
  cases i with
  | create => exact absurd rfl hi
  | clone dir => exact (cloneRefusesInOrder s dir).1 h0
  | check dir => exact (checkRefusesInOrder s dir).1 h0
  | start => rw [exec_start_eq, if_pos h0]
  | stop => rw [exec_stop_eq, if_pos h0]
  | reclaimTx => exact reclaim_of_noRing h0 s.params.layout.txLast (txStopFlag s.params) s.reclaimTxLimit
  | reclaimRx => exact reclaim_of_noRing h0 s.params.layout.rxEof (some s.params.layout.rxNew) s.reclaimRxLimit
  | alloc | unalloc | submit | free => exact if_pos h0

/-- Settles O8: ending a command writes `RES` and nothing else. -/
theorem withoutARingOnlyNoList : Obligations.WithoutARingOnlyNoList := by
  intro i s hi h0
  exact exec_of_noRing hi h0

end Sys2Proof.Machine
end

section
/-! PROOFS. The encoder against the decoder (30_encoding.md R91, R96), and the step that a `CMD` write of a command is (R44).
The key fact is `decode_eq_ok_iff_encode_eq`: the command word in numbers meets `decode_eq_ok_iff` from the other side. -/

namespace Sys2Proof

/-- The command word in numbers: `OP` in the low four bits, `DIR` above it, `RSVD` zero (R91). -/
theorem toNat_encode (i : Instr) : (encode i).toNat = 16 * i.dir.toBits.toNat + i.opcode.toNat := by
  cases i
  case clone dir => cases dir <;> rfl
  case check dir => cases dir <;> rfl
  all_goals rfl

/-- A word decodes to a command exactly when it is the command's encoding. -/
theorem decode_eq_ok_iff_encode_eq (w : Word) (i : Instr) : decode w = .ok i ↔ encode i = w := by
  have hdir := i.dir.toBits.isLt
  have hop := i.opcode.isLt
  rw [decode_eq_ok_iff, ← BitVec.toNat_inj, toNat_encode]
  omega

/-- Settles O1: both halves are `decode_eq_ok_iff_encode_eq`. -/
theorem decodeAndEncodeAgree : Obligations.DecodeAndEncodeAgree :=
  ⟨fun i _ => (decode_eq_ok_iff_encode_eq (encode i) i).mpr rfl, fun w i => (decode_eq_ok_iff_encode_eq w i).mp⟩

/-- Settles O3: each of the words is one decoded by hand from R91, R92 and R96. -/
theorem fixedWordsDecode : Obligations.FixedWordsDecode := by
  unfold Obligations.FixedWordsDecode
  decide

end Sys2Proof

namespace Sys2Proof.Machine

/-- Settles O4. -/
theorem stepRunsTheDecodedCommand : Obligations.StepRunsTheDecodedCommand := by
  intro s w i rest hev hok _
  rw [step_cmdWrite hev, runCommand_of_ok hok]

end Sys2Proof.Machine
end

section
/-! PROOFS. What a command other than CREATE can do, said once (60_exceptions.md R235; 10_state.md R20, R22, R31, R40). The key
fact is `exec_effect`: every such command answers a next state, which differs from the old one in `RES`, in what its memory
events leave, and in ring registers moved as `RingRegs.Move` allows. -/

namespace Sys2Proof.Machine
open Sys2Proof.Config

/-! ### How the remaining commands end when there is a ring -/

/-- FREE's tests in their order, and the state each leads to (R201, R202). -/
theorem exec_free_eq {s : State} (hc : s.ring.cap ≠ 0) :
    exec .free s = .next
      (if s.args.arg0 = 0 then s.withRes .success 0 0
      else if s.ring.postCnt.toNat < s.args.arg0.toNat ∨ s.args.arg1 ≠ s.ring.postHead then
        s.withRes .listStateError 0 0
      else (s.withRing (s.ring.release s.args.arg0)).withRes .success 0 0) := by
  have hexec : exec .free s = execFree s := rfl
  rw [hexec, execFree, if_neg hc, apply_ite Host.Outcome.next, apply_ite Host.Outcome.next]
  simp only [Bool.or_eq_true, decide_eq_true_eq, BitVec.lt_def]
  rfl

/-- What a successful CLONE leaves (R130 to R132): the template in every descriptor, the wrap flag in the last. -/
def State.cloned (s : State) (f : FlagPos) : State :=
  let copied := cloneDescs s.args.arg0 s.args.arg1 s.ring.cap.toNat 0 s
  (setFlag copied.ring.high f copied).withRes .success 0 0

/-- CLONE with every precondition of R133 met. -/
theorem exec_clone_of_free {s : State} {dir : DirField} {f : FlagPos} (hc : s.ring.cap ≠ 0)
    (hrun : s.ring.run = .stopped) (hfree : s.ring.freeCnt = s.ring.cap) (hf : wrapFlag s.params.layout dir = some f) :
    exec (.clone dir) s = .next (s.cloned f) := by
  have hexec : exec (.clone dir) s = execClone dir s := rfl
  rw [hexec, execClone, if_neg hc, if_neg (by simp [hrun]), if_neg (not_not.mpr hfree), hf]
  rfl

/-- A reclaim's end when there is a ring (R182, R183). -/
theorem reclaim_eq {s : State} (hc : s.ring.cap ≠ 0) (t : FlagPos) (o : Option FlagPos) (limit : Word) :
    reclaim t o limit s = .next
      (if s.ring.hwCnt = 0 then s.withRes .success 0 0
      else reclaimed (scan t o limit s).2 (scan t o limit s).1) := by
  rw [reclaim, if_neg hc, apply_ite Host.Outcome.next]
  split
  · rfl
  · exact commit_eq _ _

/-- CHECK always ends (R230). -/
theorem execCheck_total (dir : DirField) (s : State) : ∃ t, execCheck dir s = .next t := by
  simp only [execCheck, checkMemory, checkWrap, finishWith_eq]
  repeat' split
  all_goals exact ⟨_, rfl⟩

/-- A scan of a sound ring returns no more than its limit and than the hardware partition holds, under any interleaving
(R184). -/
theorem scan_le {s : State} (hs : s.ring.Sound) (hc : s.ring.cap ≠ 0) (hw : s.ring.hwCnt ≠ 0) (t : FlagPos)
    (o : Option FlagPos) (limit : Word) :
    (scan t o limit s).1 ≤ limit.toNat ∧ (scan t o limit s).1 ≤ s.ring.hwCnt.toNat := by
  have hhead := ((hs.geo hc).adv_zero hs.hwPtr).symm
  obtain ⟨hlimit, hpart⟩ := scanLoop_count_le t o hs hc hw limit.toNat
    { cur := s.ring.hwHead, count := 0, open_ := 0 } s rfl (Word.toNat_pos hw) hhead
  rw [Nat.zero_add] at hlimit
  exact ⟨(Nat.sub_le _ _).trans hlimit, (Nat.sub_le _ _).trans hpart⟩

/-! ### How the ring registers can move (R31, R38) -/

/-- What a command other than CREATE can make of the ring registers `r`, with the bound its tests put on its count. -/
inductive RingRegs.Move (r : RingRegs) : Instr → RingRegs → Prop
  | stay {i : Instr} : r.Move i r
  | alloc {n : Word} : n.toNat ≤ r.freeCnt.toNat → r.Move .alloc (r.alloc n)
  | unalloc {n : Word} : n.toNat ≤ r.preCnt.toNat → r.Move .unalloc (r.unalloc n)
  | submit {n : Word} : 0 < n.toNat → n.toNat ≤ r.preCnt.toNat → r.Move .submit (r.submit n r.preHead)
  | reclaim {i : Instr} {n : Nat} : i = .reclaimTx ∨ i = .reclaimRx → (r.Sound → n ≤ r.hwCnt.toNat) →
      r.Move i (r.reclaim n)
  | release {n : Word} : n.toNat ≤ r.postCnt.toNat → r.Move .free (r.release n)
  | run {i : Instr} (x : RunState) : i = .start ∨ i = .stop → r.Move i { r with run := x }

theorem RingRegs.Move.cap {r r' : RingRegs} {i : Instr} (h : r.Move i r') : r'.cap = r.cap := by
  cases h <;> rfl

/-- A command's move keeps a ring sound (R30 to R36). -/
theorem RingRegs.Move.sound {r r' : RingRegs} {i : Instr} (h : r.Move i r') (hc : r.cap ≠ 0) (hs : r.Sound) :
    r'.Sound := by
  cases h with
  | stay => exact hs
  | alloc hn => exact hs.alloc hc hn
  | unalloc hn => exact hs.unalloc hc hn
  | submit hpos hn => exact hs.submit hc hpos hn
  | reclaim _ hn => exact hs.reclaim hc (hn hs)
  | release hn => exact hs.release hc hn
  | run x _ => exact hs.withRun hc x

/-! ### The effect of a command (R235) -/

/-- `t` is what the command `i` can make of `s`: memory, `RES` and a move of the ring registers; and if it fails, `RES` alone
but for what other agents do inside it. -/
structure State.Effect (i : Instr) (s t : State) : Prop where
  only : s.MemOnly { t with ring := s.ring, res := s.res }
  move : s.ring.Move i t.ring
  canonical : s.MemInv → t.MemInv
  failed : t.res.code ≠ .success → t.ring = s.ring
  alone : t.res.code ≠ .success → s.interleave = [] → t = { s with res := t.res }

/-- Nothing but `RES` written. -/
theorem State.Effect.ofRes (i : Instr) (s : State) (c : ResultCode) (p k : Word) : s.Effect i (s.withRes c p k) where
  only := ⟨rfl, rfl, rfl, rfl, rfl, rfl, rfl, rfl, rfl⟩
  move := .stay
  canonical := id
  failed := fun _ => rfl
  alone := fun _ _ => rfl

/-- A success: memory events, then a move. -/
theorem State.Effect.ofSuccess {i : Instr} {s u : State} {r : RingRegs} (h : s.MemOnly u) (hm : s.MemInv → u.MemInv)
    (hr : s.ring.Move i r) (p k : Word) : s.Effect i ((u.withRing r).withRes .success p k) where
  only := ⟨h.params, rfl, h.args, rfl, h.faults, h.ringWritten, h.readData, h.draws, h.events⟩
  move := hr
  canonical := hm
  failed := fun hne => absurd rfl hne
  alone := fun hne => absurd rfl hne

/-- A success that moves no ring register. -/
theorem State.Effect.ofMemOnly {i : Instr} {s u : State} (h : s.MemOnly u) (hm : s.MemInv → u.MemInv) (p k : Word) :
    s.Effect i (u.withRes .success p k) := by
  have hstay : s.ring.Move i u.ring := by
    rw [h.ring]
    exact .stay
  exact .ofSuccess h hm hstay p k

theorem execClone_effect (dir : DirField) {s : State} (hc : s.ring.cap ≠ 0) :
    ∃ t, exec (.clone dir) s = .next t ∧ s.Effect (.clone dir) t := by
  obtain ⟨-, hbusy, hstate, hdir⟩ := cloneRefusesInOrder s dir
  cases hrun : s.ring.run with
  | started => exact ⟨_, hbusy hc hrun, .ofRes _ s _ _ _⟩
  | stopped =>
    by_cases hfree : s.ring.freeCnt = s.ring.cap
    · have success : ∀ f, wrapFlag s.params.layout dir = some f →
          ∃ t, exec (.clone dir) s = .next t ∧ s.Effect (.clone dir) t := by
        intro f hf
        have honly := (memOnly_cloneDescs s.args.arg0 s.args.arg1 s.ring.cap.toNat 0 s).trans
          (memOnly_setFlag (cloneDescs s.args.arg0 s.args.arg1 s.ring.cap.toNat 0 s).ring.high f _)
        exact ⟨_, exec_clone_of_free hc hrun hfree hf,
          .ofMemOnly honly (fun hm => memInv_setFlag _ _ _ (memInv_cloneDescs _ _ _ _ _ hm)) 0 0⟩
      cases dir with
      | d00 => exact ⟨_, hdir hc hrun hfree (.inl rfl), .ofRes _ s _ _ _⟩
      | tx => exact success _ rfl
      | rx => exact success _ rfl
      | d11 => exact ⟨_, hdir hc hrun hfree (.inr rfl), .ofRes _ s _ _ _⟩
    · exact ⟨_, hstate hc hrun hfree, .ofRes _ s _ _ _⟩

theorem execSubmit_effect {s : State} (hc : s.ring.cap ≠ 0) : ∃ t, exec .submit s = .next t ∧ s.Effect .submit t := by
  refine ⟨_, exec_submit_eq hc, ?_⟩
  split_ifs with hzero hbad
  · exact .ofRes _ s _ _ _
  · exact .ofRes _ s _ _ _
  · push Not at hbad
    obtain ⟨hn, hp⟩ := hbad
    have honly := memOnly_cleanSlots s.args.arg1 s.args.arg0.toNat 0 s
    refine .ofSuccess honly (memInv_cleanSlots _ _ _ _) ?_ 0 0
    rw [honly.ring, hp]
    exact .submit (Word.toNat_pos hzero) hn

theorem reclaim_effect {i : Instr} (hi : i = .reclaimTx ∨ i = .reclaimRx) {s : State} (hc : s.ring.cap ≠ 0) (t : FlagPos)
    (o : Option FlagPos) (limit : Word) : ∃ v, reclaim t o limit s = .next v ∧ s.Effect i v := by
  refine ⟨_, reclaim_eq hc t o limit, ?_⟩
  have honly := memOnly_scan t o limit s
  have hcanon := memInv_scan t o limit s
  rw [reclaimed]
  split_ifs with hw hret
  · exact .ofRes _ s _ _ _
  · exact .ofMemOnly honly hcanon 0 0
  · refine .ofSuccess honly hcanon ?_ _ _
    rw [honly.ring]
    exact .reclaim hi fun hs => (scan_le hs hc hw t o limit).2

theorem execFree_effect {s : State} (hc : s.ring.cap ≠ 0) : ∃ t, exec .free s = .next t ∧ s.Effect .free t := by
  refine ⟨_, exec_free_eq hc, ?_⟩
  split_ifs with hzero hbad
  · exact .ofRes _ s _ _ _
  · exact .ofRes _ s _ _ _
  · push Not at hbad
    exact .ofSuccess (.refl s) id (.release hbad.1) 0 0

theorem execCheck_effect (dir : DirField) (s : State) :
    ∃ t, exec (.check dir) s = .next t ∧ s.Effect (.check dir) t := by
  obtain ⟨t, ht⟩ := execCheck_total dir s
  refine ⟨t, ht, ?_⟩
  obtain ⟨u, hread, hquiet, ⟨c, p, k, rfl⟩, hcanon⟩ := execCheck_cases dir s t ht
  obtain ⟨hparams, hring, hargs, -, hfaults, hwritten, hdata, hdraws, hevents⟩ := hread.only
  exact {
    only := ⟨hparams, rfl, hargs, rfl, hfaults, hwritten, hdata, hdraws, hevents⟩
    move := hring ▸ .stay
    canonical := hcanon
    failed := fun _ => hring
    alone := fun _ hempty => by rw [hquiet hempty]; rfl }

/-- Every command but CREATE answers a next state, and this is all it can do. -/
theorem exec_effect {i : Instr} (hi : i ≠ .create) (s : State) : ∃ t, exec i s = .next t ∧ s.Effect i t := by
  by_cases hc : s.ring.cap = 0
  · exact ⟨_, exec_of_noRing hi hc, .ofRes _ s _ _ _⟩
  cases i with
  | create => exact absurd rfl hi
  | clone dir => exact execClone_effect dir hc
  | alloc =>
    refine ⟨_, exec_alloc_eq hc, ?_⟩
    split_ifs with hn
    · exact .ofRes _ s _ _ _
    · exact .ofSuccess (.refl s) id (.alloc (not_lt.mp hn)) _ _
  | unalloc =>
    refine ⟨_, exec_unalloc_eq hc, ?_⟩
    split_ifs with hn
    · exact .ofRes _ s _ _ _
    · exact .ofSuccess (.refl s) id (.unalloc (not_lt.mp hn)) _ _
  | submit => exact execSubmit_effect hc
  | reclaimTx => exact reclaim_effect (.inl rfl) hc _ _ _
  | reclaimRx => exact reclaim_effect (.inr rfl) hc _ _ _
  | free => exact execFree_effect hc
  | check dir => exact execCheck_effect dir s
  | start =>
    refine ⟨_, exec_start_eq s, ?_⟩
    rw [if_neg hc]
    exact .ofSuccess (.refl s) id (.run _ (.inl rfl)) 0 0
  | stop =>
    refine ⟨_, exec_stop_eq s, ?_⟩
    rw [if_neg hc]
    exact .ofSuccess (.refl s) id (.run _ (.inr rfl)) 0 0

theorem effect_of_exec {i : Instr} {s t : State} (hi : i ≠ .create) (h : exec i s = .next t) : s.Effect i t := by
  obtain ⟨u, hu, heffect⟩ := exec_effect hi s
  rw [h] at hu
  cases hu
  exact heffect

/-- Settles O9. -/
theorem commandsFailAtomically : Obligations.CommandsFailAtomically := by
  intro i s t hi h hfail
  have he := effect_of_exec hi h
  exact ⟨he.failed hfail, he.only.args, he.only.faults, he.only.params, he.alone hfail⟩

/-- Settles O10: each clause is read off the command's move. -/
theorem ringRegisterFrames : Obligations.RingRegisterFrames := by
  intro i s t hi h
  obtain ⟨-, hmove, -⟩ := effect_of_exec hi h
  generalize t.ring = r at hmove
  cases hmove with
  | stay =>
    exact ⟨⟨rfl, rfl, rfl, rfl, rfl, rfl⟩, fun _ _ => rfl, fun _ => ⟨_, rfl⟩, fun _ => rfl, fun _ => ⟨_, _, _, rfl⟩,
      fun _ => ⟨_, _, _, _, rfl⟩, fun _ => ⟨_, _, _, rfl⟩, fun _ => ⟨_, _, _, rfl⟩⟩
  | alloc | unalloc =>
    exact ⟨⟨rfl, rfl, rfl, rfl, rfl, rfl⟩, fun _ _ => rfl, nofun, nofun, fun _ => ⟨_, _, _, rfl⟩, nofun, nofun, nofun⟩
  | submit =>
    exact ⟨⟨rfl, rfl, rfl, rfl, rfl, rfl⟩, fun _ _ => rfl, nofun, nofun, nofun, fun _ => ⟨_, _, _, _, rfl⟩, nofun, nofun⟩
  | reclaim hreclaim =>
    obtain rfl | rfl := hreclaim
    all_goals
      exact ⟨⟨rfl, rfl, rfl, rfl, rfl, rfl⟩, fun _ _ => rfl, nofun, nofun, nofun, nofun, fun _ => ⟨_, _, _, rfl⟩, nofun⟩
  | release =>
    exact ⟨⟨rfl, rfl, rfl, rfl, rfl, rfl⟩, fun _ _ => rfl, nofun, nofun, nofun, nofun, nofun, fun _ => ⟨_, _, _, rfl⟩⟩
  | run x hrun =>
    refine ⟨⟨rfl, rfl, rfl, rfl, rfl, rfl⟩, fun hstart hstop => absurd hrun (by simp [hstart, hstop]), fun _ => ⟨_, rfl⟩,
      ?_, ?_, ?_, ?_, ?_⟩
    all_goals
      obtain rfl | rfl := hrun
      all_goals nofun

end Sys2Proof.Machine
end

section
/-! PROOFS. What CREATE leaves of the registers outside the ring, and that every command ends (40_ring_setup.md R128, R129;
60_exceptions.md R230). The key fact is `exec_create_frame`. -/

namespace Sys2Proof.Machine
open Sys2Proof.Config

/-! ### CREATE's frame (R128, R129) -/

/-- CREATE's marks: LIVE_RECREATE on a live ring, and no other (R129). -/
theorem createBegin_faults (s : State) :
    (createBegin s).faults =
      if s.ring.cap ≠ 0 ∧ (s.ring.run = .started ∨ s.ring.hwCnt ≠ 0) then s.faults.add .liveRecreate else s.faults := by
  have hlive : s.ring.live = true ↔ s.ring.cap ≠ 0 ∧ (s.ring.run = .started ∨ s.ring.hwCnt ≠ 0) := by
    simp [RingRegs.live]
  rw [createBegin]
  simp only [hlive]
  split <;> rfl

/-- Before its checks CREATE changes `S.cap` and the marks alone. -/
theorem createBegin_eq (s : State) :
    createBegin s = { s with ring := { s.ring with cap := 0 }, faults := (createBegin s).faults } := by
  unfold createBegin
  split <;> rfl

/-- What CREATE keeps, however it ends: all but the ring, memory, its mark, `RES` and `ringWritten`. -/
structure State.CreateFrame (s t : State) : Prop where
  params : t.params = s.params
  args : t.args = s.args
  faults : t.faults = (createBegin s).faults
  readData : t.readData = s.readData
  draws : t.draws = s.draws
  events : t.events = s.events
  canonical : s.MemInv → t.MemInv

theorem createFrame_createBegin (s : State) (c : ResultCode) : s.CreateFrame ((createBegin s).withRes c 0 0) := by
  rw [createBegin_withRes_eq]
  exact ⟨rfl, rfl, rfl, rfl, rfl, rfl, id⟩

theorem createFrame_created (s : State) : s.CreateFrame s.created := by
  have hlay := memOnly_layRing s.args.arg0 s.args.arg1 (createStride s.args.arg2) s.args.arg3 (createBegin s)
  have hbegin := createBegin_eq s
  exact {
    params := hlay.params.trans (by rw [hbegin])
    args := hlay.args.trans (by rw [hbegin])
    faults := hlay.faults
    readData := hlay.readData.trans (by rw [hbegin])
    draws := hlay.draws.trans (by rw [hbegin])
    events := hlay.events.trans (by rw [hbegin])
    canonical := fun hm => memInv_layRing _ _ _ _ _ (by rw [hbegin]; exact hm) }

theorem exec_create_frame (s : State) : ∃ t, exec .create s = .next t ∧ s.CreateFrame t := by
  refine ⟨_, exec_create_eq s, ?_⟩
  split_ifs
  · exact createFrame_createBegin s _
  · exact createFrame_createBegin s _
  · exact createFrame_created s

/-- Settles O20. -/
theorem liveRecreateIsMarked : Obligations.LiveRecreateIsMarked := by
  intro s
  obtain ⟨t, ht, hframe⟩ := exec_create_frame s
  exact ⟨t, ht, hframe.faults.trans (createBegin_faults s)⟩

/-- Settles O11: CREATE by its own frame, every other command by `exec_effect`. -/
theorem operandsAndMarksFrame : Obligations.OperandsAndMarksFrame := by
  intro i s t h
  by_cases hi : i = .create
  · subst hi
    obtain ⟨u, hu, hframe⟩ := exec_create_frame s
    rw [h] at hu
    cases hu
    exact ⟨hframe.args, hframe.params, hframe.events, hframe.readData, hframe.draws, fun hne => absurd rfl hne⟩
  · have honly := (effect_of_exec hi h).only
    exact ⟨honly.args, honly.params, honly.events, honly.readData, honly.draws,
      fun _ => ⟨honly.faults, honly.ringWritten⟩⟩

/-! ### Every command and every step ends (R230) -/

theorem exec_total (i : Instr) (s : State) : ∃ t, exec i s = .next t := by
  by_cases hi : i = .create
  · subst hi
    exact ⟨_, exec_create_eq s⟩
  · obtain ⟨t, ht, -⟩ := exec_effect hi s
    exact ⟨t, ht⟩

theorem runCommand_total (w : Word) (s : State) : ∃ t, runCommand w s = .next t := by
  by_cases hok : ∃ i, decode w = .ok i
  · obtain ⟨i, hi⟩ := hok
    rw [runCommand_of_ok hi]
    exact exec_total i s
  · exact ⟨_, runCommand_of_not_ok hok s⟩

theorem runEvent_total (e : Event) (s : State) : ∃ t, runEvent e s = .next t := by
  cases e with
  | regWrite a w v =>
    simp only [runEvent, hostRegWrite]
    split
    · exact ⟨_, rfl⟩
    · exact runCommand_total v s
    · exact ⟨_, rfl⟩
  | _ => exact ⟨_, rfl⟩

/-- Settles O5. -/
theorem nothingStopsTheMachine : Obligations.NothingStopsTheMachine := by
  refine ⟨fun s => ?_, exec_total⟩
  unfold step
  split
  · exact ⟨_, rfl⟩
  · exact runEvent_total _ _

/-! ### Reset (R260) -/

/-- Settles O6: with no ring every command but CREATE refuses, and the rest is what the reset state holds. -/
theorem resetValues : Obligations.ResetValues := by
  refine ⟨rfl, rfl, rfl, rfl, rfl, rfl, ?noMark, fun _ => rfl, fun i hi => ⟨_, exec_of_noRing hi rfl, rfl⟩⟩
  case noMark =>
    intro k
    cases k <;> rfl

/-- Settles O7. -/
theorem powerOnResetEvent : Obligations.PowerOnResetEvent := by
  intro s rest hev
  refine ⟨_, step_of_cons hev, rfl, rfl, rfl, rfl, ?noMark, rfl, rfl, rfl, rfl, rfl⟩
  case noMark =>
    intro k
    cases k <;> rfl

end Sys2Proof.Machine
end

section
/-! PROOFS. What every step keeps (10_state.md R20, R24, R30 to R36; 20_memory.md R60; 60_exceptions.md R241). The key fact is
`step_cases`: a step is an access or an agent's step, which leaves the ring registers, or a power-on reset, or the command
that a `CMD` write runs. -/

namespace Sys2Proof.Machine
open Sys2Proof.Config

/-! ### What a step can be -/

/-- What a step keeps that is neither a power-on reset nor a `CMD` write. -/
structure State.Access (s t : State) : Prop where
  params : t.params = s.params
  ring : t.ring = s.ring
  marks : ∀ k : HostFault, s.faults.has k = true → t.faults.has k = true
  canonical : s.MemInv → t.MemInv

theorem State.Access.refl (s : State) : s.Access s := ⟨rfl, rfl, fun _ => id, id⟩

/-- A mark is added to those that stand (R241). -/
theorem FaultSet.has_add_iff (f : FaultSet) (j k : HostFault) :
    (f.add j).has k = true ↔ j = k ∨ f.has k = true := by
  cases j <;> cases k <;> simp [FaultSet.add, FaultSet.has]

theorem FaultSet.has_add {f : FaultSet} {j k : HostFault} (h : f.has k = true) : (f.add j).has k = true :=
  (f.has_add_iff j k).mpr (.inr h)

theorem State.Access.raise (s : State) (k : HostFault) : s.Access (s.raiseHostFault k) :=
  ⟨rfl, rfl, fun _ => FaultSet.has_add, id⟩

theorem State.Access.ofMemOnly {s t : State} (h : s.MemOnly t) (hm : s.MemInv → t.MemInv) : s.Access t :=
  ⟨h.params, h.ring, fun k hk => by rw [h.faults]; exact hk, hm⟩

theorem access_hostRegRead (a : Word) (w : RegWidth) (s : State) : s.Access (hostRegRead a w s) := by
  have hmarked := State.Access.raise s .badRegAccess
  unfold hostRegRead
  split
  · exact ⟨rfl, rfl, hmarked.marks, id⟩
  · split <;> exact ⟨rfl, rfl, fun _ => id, id⟩

theorem access_writeReg (s : State) (off : Nat) (v : Word) : s.Access (writeReg s off v) := by
  unfold writeReg
  split <;> exact ⟨rfl, rfl, fun _ => id, id⟩

theorem memInv_hostStore (s : State) (a v : Word) (w : Width) (h : s.MemInv) : (hostStore s a v w).MemInv := by
  cases w with
  | w8 => exact State.memInv_writeByte _ _ _ h
  | w16 =>
    simp only [hostStore]
    split <;> exact State.memInv_writeByte _ _ _ (State.memInv_writeByte _ _ _ h)
  | w32 => exact State.memInv_writeWord _ _ _ h

theorem access_hostMemWrite (a : Word) (w : Width) (v : Word) (s : State) : s.Access (hostMemWrite a w v s) := by
  obtain ⟨heq, -⟩ | ⟨heq, -⟩ := hostMemWrite_eq a v w s
  · have hmarked := State.Access.raise s .hwOwnedWrite
    have hstore := State.Access.ofMemOnly (memOnly_hostStore (s.raiseHostFault .hwOwnedWrite) a v w)
      (memInv_hostStore _ a v w)
    rw [heq]
    exact ⟨hstore.params, hstore.ring, fun k hk => hstore.marks k (hmarked.marks k hk), hstore.canonical⟩
  · rw [heq]
    exact .ofMemOnly (memOnly_hostStore s a v w) (memInv_hostStore s a v w)

theorem access_hostCacheClean (a n : Word) (s : State) : s.Access (hostCacheClean a n s) := by
  unfold hostCacheClean
  split
  · exact .refl s
  · exact .ofMemOnly (memOnly_cleanRange a n s) (memInv_cleanRange a n s)

theorem access_hostCacheInval (a n : Word) (s : State) : s.Access (hostCacheInval a n s) := by
  unfold hostCacheInval
  split
  · exact .refl s
  · exact .ofMemOnly (memOnly_invalRange a n s) (memInv_invalRange a n s)

/-- `CMD` stands at the start of the register map (R42). -/
theorem eq_regBase_of_regOffset {p : Params} {a : Word} {w : RegWidth} (h : regOffset p a w = some 0) :
    a = p.regBase := by
  simp only [regOffset] at h
  split at h
  · have hzero : (a - p.regBase).toNat = 0 := by simpa using h
    bv_omega
  · cases h

theorem runEvent_cases {e : Event} {s t : State} (h : runEvent e s = .next t) :
    s.Access t ∨ (e = .powerOnReset ∧ t = powerOnReset s) ∨
      ∃ w v, e = .regWrite s.params.regBase w v ∧ runCommand v s = .next t := by
  cases e with
  | regWrite a w v =>
    simp only [runEvent, hostRegWrite] at h
    split at h
    case h_1 =>
      cases h
      exact .inl (.raise s _)
    case h_2 hoff => exact .inr (.inr ⟨w, v, by rw [eq_regBase_of_regOffset hoff], h⟩)
    case h_3 =>
      cases h
      exact .inl (access_writeReg s _ v)
  | regRead a w => cases h; exact .inl (access_hostRegRead a w s)
  | memRead a w => cases h; exact .inl ⟨rfl, rfl, fun _ => id, id⟩
  | memWrite a w v => cases h; exact .inl (access_hostMemWrite a w v s)
  | cacheClean a n => cases h; exact .inl (access_hostCacheClean a n s)
  | cacheInval a n => cases h; exact .inl (access_hostCacheInval a n s)
  | agent u => cases h; exact .inl (.ofMemOnly (memOnly_runAgentStep u s) (memInv_runAgentStep u s))
  | powerOnReset => cases h; exact .inr (.inl ⟨rfl, rfl⟩)

/-- The kinds of step; with nothing to come nothing happens (log 8). -/
theorem step_cases {s t : State} (h : step s = .next t) :
    s.Access t ∨
    (∃ rest, s.events = .powerOnReset :: rest ∧ t = powerOnReset { s with events := rest }) ∨
    ∃ w v rest, s.events = .regWrite s.params.regBase w v :: rest ∧ runCommand v { s with events := rest } = .next t := by
  cases hev : s.events with
  | nil =>
    simp only [step, hev] at h
    cases h
    exact .inl (.refl s)
  | cons e rest =>
    rw [step_of_cons hev] at h
    obtain ⟨hp, hr, hk, hm⟩ | ⟨rfl, rfl⟩ | ⟨w, v, rfl, hrun⟩ := runEvent_cases h
    · exact .inl ⟨hp, hr, hk, hm⟩
    · exact .inr (.inl ⟨rest, rfl, rfl⟩)
    · exact .inr (.inr ⟨w, v, rest, rfl, hrun⟩)

/-- What runs when the host writes a word to `CMD`: a command, or nothing but the refusal (R95). -/
theorem runCommand_cases {w : Word} {s t : State} (h : runCommand w s = .next t) :
    (∃ i, exec i s = .next t) ∨ t = s.withRes .illegalCommand 0 0 := by
  by_cases hok : ∃ i, decode w = .ok i
  · obtain ⟨i, hi⟩ := hok
    rw [runCommand_of_ok hi] at h
    exact .inl ⟨i, h⟩
  · rw [runCommand_of_not_ok hok] at h
    cases h
    exact .inr rfl

/-! ### The invariant of a created ring (R30 to R36) -/

/-- Every command keeps the parameters legal and the ring sound: CREATE leaves no ring or a sound one, and every other command
moves the registers of the ring it finds. -/
theorem exec_ringInv {i : Instr} {s t : State} (hs : s.RingInv) (h : exec i s = .next t) : t.RingInv := by
  obtain ⟨hwf, hsound⟩ := hs
  obtain ⟨-, hparams, -⟩ := operandsAndMarksFrame i s t h
  refine ⟨by rw [hparams]; exact hwf, fun hc => ?_⟩
  by_cases hi : i = .create
  · subst hi
    rw [exec_create_eq] at h
    cases h
    split_ifs at hc ⊢ with hbad hwrap
    · exact absurd (createBegin_cap s) hc
    · exact absurd (createBegin_cap s) hc
    · have hlegal := (createBad_eq_false_iff hwf _ _ _ _).mp (Bool.eq_false_iff.mpr hbad)
      exact hlegal.createdRing_sound hwf (not_lt.mp fun hw => hwrap ((hlegal.wraps_iff hwf).mpr hw))
  · have hmove := (effect_of_exec hi h).move
    rw [hmove.cap] at hc
    exact hmove.sound hc (hsound hc)

/-- Settles O54. -/
theorem everyStepKeepsTheRingSound : Obligations.EveryStepKeepsTheRingSound := by
  intro s t hs h
  obtain haccess | ⟨rest, -, rfl⟩ | ⟨w, v, rest, -, hrun⟩ := step_cases h
  · rw [State.RingInv, haccess.params, haccess.ring]
    exact hs
  · exact ⟨hs.1, fun hc => absurd rfl hc⟩
  · obtain ⟨i, hi⟩ | rfl := runCommand_cases hrun
    · exact exec_ringInv (s := { s with events := rest }) hs hi
    · exact hs

/-! ### The canonical form of memory and cache (R60) -/

theorem exec_memInv {i : Instr} {s t : State} (hs : s.MemInv) (h : exec i s = .next t) : t.MemInv := by
  by_cases hi : i = .create
  · subst hi
    obtain ⟨u, hu, hframe⟩ := exec_create_frame s
    rw [h] at hu
    cases hu
    exact hframe.canonical hs
  · exact (effect_of_exec hi h).canonical hs

/-- Settles O55. -/
theorem everyStepKeepsMemoryCanonical : Obligations.EveryStepKeepsMemoryCanonical := by
  intro s t hs h
  obtain haccess | ⟨rest, -, rfl⟩ | ⟨w, v, rest, -, hrun⟩ := step_cases h
  · exact haccess.canonical hs
  · exact hs
  · obtain ⟨i, hi⟩ | rfl := runCommand_cases hrun
    · exact exec_memInv (s := { s with events := rest }) hs hi
    · exact hs

/-- Settles O56. -/
theorem resetMeetsTheInvariants : Obligations.ResetMeetsTheInvariants :=
  ⟨⟨by decide, fun hc => absurd rfl hc⟩, rfl, rfl⟩

/-! ### The marks, the parameters and the ring registers (R18, R20, R24, R241) -/

theorem exec_marks {i : Instr} {s t : State} (h : exec i s = .next t) {k : HostFault} (hk : s.faults.has k = true) :
    t.faults.has k = true := by
  by_cases hi : i = .create
  · subst hi
    obtain ⟨u, hu, hfaults⟩ := liveRecreateIsMarked s
    rw [h] at hu
    cases hu
    rw [hfaults]
    split
    · exact FaultSet.has_add hk
    · exact hk
  · rw [(effect_of_exec hi h).only.faults]
    exact hk

/-- Settles O57. -/
theorem faultMarksStay : Obligations.FaultMarksStay := by
  intro s t h
  obtain haccess | ⟨rest, hev, rfl⟩ | ⟨w, v, rest, -, hrun⟩ := step_cases h
  · exact ⟨haccess.params, fun _ => haccess.marks⟩
  · exact ⟨rfl, fun hne => absurd (by rw [hev]; rfl) hne⟩
  · obtain ⟨i, hi⟩ | rfl := runCommand_cases hrun
    · exact ⟨(operandsAndMarksFrame i _ t hi).2.1, fun _ k hk => exec_marks (s := { s with events := rest }) hi hk⟩
    · exact ⟨rfl, fun _ _ => id⟩

/-- Settles O58. -/
theorem onlyCommandsWriteTheRing : Obligations.OnlyCommandsWriteTheRing := by
  intro s t h hnoReset hnoCmd
  obtain haccess | ⟨rest, hev, -⟩ | ⟨w, v, rest, hev, -⟩ := step_cases h
  · exact haccess.ring
  · exact absurd (by rw [hev]; rfl) hnoReset
  · exact absurd rfl (hnoCmd s.params.regBase v w (by rw [hev]; rfl))

end Sys2Proof.Machine
end

section
/-! PROOFS. The run state as what gates no command of the data path (10_state.md R22). The key facts are the `_withRun` lemmas:
setting the run state commutes with every memory event, with every step of another agent, and so with the commands. -/

namespace Sys2Proof.Machine
open Sys2Proof.Config

/-! ### Setting the run state commutes with what a command is made of -/

/-- `S.run` set to `x` by hand. -/
def State.withRun (s : State) (x : RunState) : State := { s with ring := { s.ring with run := x } }

theorem State.withRun_ite (c : Prop) [Decidable c] (s t : State) (x : RunState) :
    (if c then s else t).withRun x = if c then s.withRun x else t.withRun x :=
  apply_ite (State.withRun · x) c s t

theorem runAgentStep_withRun (t : AgentStep) (s : State) (x : RunState) :
    runAgentStep t (s.withRun x) = (runAgentStep t s).withRun x := by
  cases t with
  | dmaRead a => rfl
  | _ =>
    simp only [runAgentStep, State.withRun_ite]
    rfl

theorem runAgentSteps_withRun (ts : List AgentStep) (s : State) (x : RunState) :
    runAgentSteps ts (s.withRun x) = (runAgentSteps ts s).withRun x := by
  induction ts generalizing s with
  | nil => rfl
  | cons t ts ih => rw [runAgentSteps, runAgentStep_withRun, ih, runAgentSteps]

theorem agentTurn_withRun (s : State) (x : RunState) : agentTurn (s.withRun x) = (agentTurn s).withRun x := by
  cases h : s.interleave with
  | nil => rw [agentTurn_of_empty h, agentTurn_of_empty (s := s.withRun x) h]
  | cons ts rest =>
    have hturn : ∀ u : State, u.interleave = ts :: rest →
        agentTurn u = runAgentSteps ts { u with interleave := rest } := by
      intro u hu
      rw [agentTurn, hu]
    rw [hturn s h, hturn (s.withRun x) h, ← runAgentSteps_withRun]
    rfl

theorem memRead_withRun (a : Word) (s : State) (x : RunState) :
    memRead a (s.withRun x) = ((memRead a s).1, (memRead a s).2.withRun x) := by
  simp only [memRead, agentTurn_withRun]
  rfl

theorem cacheClean_withRun (a n : Word) (s : State) (x : RunState) :
    cacheClean a n (s.withRun x) = (cacheClean a n s).withRun x := by
  simp only [cacheClean, State.withRun_ite, agentTurn_withRun]
  rfl

theorem cacheInval_withRun (a n : Word) (s : State) (x : RunState) :
    cacheInval a n (s.withRun x) = (cacheInval a n s).withRun x := by
  simp only [cacheInval, State.withRun_ite, agentTurn_withRun]
  rfl

theorem cleanSlots_withRun (p : Word) (k i : Nat) (s : State) (x : RunState) :
    cleanSlots p k i (s.withRun x) = (cleanSlots p k i s).withRun x := by
  induction k generalizing i s with
  | zero => rfl
  | succ k ih =>
    rw [cleanSlots, cacheClean_withRun, ih]
    rfl

theorem readDesc_withRun (t : FlagPos) (o : Option FlagPos) (p : Word) (s : State) (x : RunState) :
    readDesc t o p (s.withRun x) = ((readDesc t o p s).1, (readDesc t o p s).2.withRun x) := by
  cases o with
  | none => simp only [readDesc, memRead_withRun]
  | some f =>
    simp only [readDesc, memRead_withRun]
    split
    · split <;> rfl
    · rfl

theorem scanLoop_withRun (t : FlagPos) (o : Option FlagPos) (k : Nat) (c : Scan) (s : State) (x : RunState) :
    scanLoop t o k c (s.withRun x) = ((scanLoop t o k c s).1, (scanLoop t o k c s).2.withRun x) := by
  induction k generalizing c s with
  | zero => rfl
  | succ k ih =>
    have hinval : cacheInval c.cur (s.withRun x).ring.stride (s.withRun x) =
        (cacheInval c.cur s.ring.stride s).withRun x := cacheInval_withRun _ _ _ _
    have hring : ∀ u : State, (u.withRun x).ring.hwTail = u.ring.hwTail ∧
        ∀ p n, (u.withRun x).ring.adv p n = u.ring.adv p n := fun u => ⟨rfl, fun _ _ => rfl⟩
    simp only [scanLoop, hinval, readDesc_withRun, hring]
    split
    · rfl
    · split
      · rfl
      · exact ih _ _

theorem scan_withRun (t : FlagPos) (o : Option FlagPos) (limit : Word) (s : State) (x : RunState) :
    scan t o limit (s.withRun x) = ((scan t o limit s).1, (scan t o limit s).2.withRun x) := by
  have hloop := scanLoop_withRun t o limit.toNat { cur := s.ring.hwHead, count := 0, open_ := 0 } s x
  have hhead : (s.withRun x).ring.hwHead = s.ring.hwHead := rfl
  simp only [scan, hhead, hloop, agentTurn_withRun]

theorem reclaim_withRun (t : FlagPos) (o : Option FlagPos) (limit : Word) {s v : State} (x : RunState)
    (h : reclaim t o limit s = .next v) : reclaim t o limit (s.withRun x) = .next (v.withRun x) := by
  by_cases hc : s.ring.cap = 0
  · rw [reclaim_of_noRing hc] at h
    cases h
    exact reclaim_of_noRing (s := s.withRun x) hc _ _ _
  · rw [reclaim_eq hc] at h
    cases h
    rw [reclaim_eq (s := s.withRun x) hc, scan_withRun, State.withRun_ite, reclaimed, reclaimed, State.withRun_ite]
    rfl

/-! ### The commands -/

/-- Settles O12: the tests of the six commands do not look at the run state, and what they do commutes with setting it. -/
theorem runStateGatesNoOtherCommand : Obligations.RunStateGatesNoOtherCommand := by
  intro i s t x hi h
  change exec i (s.withRun x) = .next (t.withRun x)
  have hcreate : i ≠ .create := by
    rintro rfl
    simp at hi
  by_cases hc : s.ring.cap = 0
  · rw [exec_of_noRing hcreate hc] at h
    cases h
    exact exec_of_noRing (s := s.withRun x) hcreate hc
  obtain rfl | rfl | rfl | rfl | rfl | rfl := hi
  case inl =>
    rw [exec_alloc_eq hc] at h
    cases h
    rw [exec_alloc_eq (s := s.withRun x) hc, State.withRun_ite]
    rfl
  case inr.inl =>
    rw [exec_unalloc_eq hc] at h
    cases h
    rw [exec_unalloc_eq (s := s.withRun x) hc, State.withRun_ite]
    rfl
  case inr.inr.inl =>
    rw [exec_submit_eq hc] at h
    cases h
    have hsubmitted : (s.withRun x).submitted = s.submitted.withRun x := by
      have hclean := cleanSlots_withRun s.args.arg1 s.args.arg0.toNat 0 s x
      have hargs : (s.withRun x).args = s.args := rfl
      simp only [State.submitted, hargs, hclean]
      rfl
    rw [exec_submit_eq (s := s.withRun x) hc, State.withRun_ite, State.withRun_ite, hsubmitted]
    rfl
  case inr.inr.inr.inl => exact reclaim_withRun _ _ _ x h
  case inr.inr.inr.inr.inl => exact reclaim_withRun _ _ _ x h
  case inr.inr.inr.inr.inr =>
    rw [exec_free_eq hc] at h
    cases h
    rw [exec_free_eq (s := s.withRun x) hc, State.withRun_ite, State.withRun_ite]
    rfl

end Sys2Proof.Machine
end

section
/-! PROOFS. The commands that touch no memory, and those that only read it (20_memory.md R66; 60_exceptions.md R244). The key
facts are `exec_memory_eq`, and `State.Inside`, the relation that the laws prove of a scan and of CHECK's walk. -/

namespace Sys2Proof.Machine
open Sys2Proof.Config

/-- A byte reads the same where the parameters, memory and the cache are the same. -/
theorem State.readByte_congr {s t : State} (hp : t.params = s.params) (hm : t.mem = s.mem) (hc : t.cache = s.cache)
    (a : Word) : t.readByte a = s.readByte a := by
  rw [State.readByte_eq, State.readByte_eq, hp, hm, hc]

/-- The commands without memory events leave memory, the cache and the script (R66). -/
theorem exec_memory_eq {i : Instr} {s t : State}
    (hi : i = .alloc ∨ i = .unalloc ∨ i = .free ∨ i = .start ∨ i = .stop ∨ (i = .submit ∧ s.params.coherent = true))
    (h : exec i s = .next t) : t.mem = s.mem ∧ t.cache = s.cache ∧ t.interleave = s.interleave := by
  have hcreate : i ≠ .create := by
    rintro rfl
    simp at hi
  by_cases hc : s.ring.cap = 0
  · rw [exec_of_noRing hcreate hc] at h
    cases h
    exact ⟨rfl, rfl, rfl⟩
  obtain rfl | rfl | rfl | rfl | rfl | ⟨rfl, hco⟩ := hi
  case inl => rw [exec_alloc_eq hc] at h; cases h; split_ifs <;> exact ⟨rfl, rfl, rfl⟩
  case inr.inl => rw [exec_unalloc_eq hc] at h; cases h; split_ifs <;> exact ⟨rfl, rfl, rfl⟩
  case inr.inr.inl => rw [exec_free_eq hc] at h; cases h; split_ifs <;> exact ⟨rfl, rfl, rfl⟩
  case inr.inr.inr.inl => rw [exec_start_eq, if_neg hc] at h; cases h; exact ⟨rfl, rfl, rfl⟩
  case inr.inr.inr.inr.inl => rw [exec_stop_eq, if_neg hc] at h; cases h; exact ⟨rfl, rfl, rfl⟩
  case inr.inr.inr.inr.inr =>
    rw [exec_submit_eq hc, State.submitted, cleanSlots_coherent _ _ _ _ hco] at h
    cases h
    split_ifs <;> exact ⟨rfl, rfl, rfl⟩

/-- Settles O13. -/
theorem commandsWithoutMemoryEvents : Obligations.CommandsWithoutMemoryEvents := by
  intro i s t hi h
  obtain ⟨hm, hc, hs⟩ := exec_memory_eq hi h
  obtain ⟨-, hp, -⟩ := operandsAndMarksFrame i s t h
  exact ⟨hm, hc, hs, State.readByte_congr hp hm hc⟩

theorem State.Inside.imp {p q : Prop} {bs : List (List AgentStep)} {s u : State} (hin : s.Inside p bs u) (h : q → p) :
    s.Inside q bs u :=
  ⟨hin.only, hin.taken, hin.writers, hin.stays, fun hq => hin.replay (h hq)⟩

/-- What a command that only reads does to memory, by the steps that fall inside it. -/
theorem exec_inside {i : Instr} {s t : State} (hi : i = .reclaimTx ∨ i = .reclaimRx ∨ i.opcode = 9)
    (h : exec i s = .next t) :
    ∃ bs u, s.Inside (s.params.coherent = true ∨ i.opcode = 9) bs u ∧ t.mem = u.mem ∧ t.cache = u.cache ∧
      t.interleave = u.interleave := by
  have reclaims : i.opcode ≠ 9 → ∀ f o l, reclaim f o l s = .next t →
      ∃ bs u, s.Inside (s.params.coherent = true ∨ i.opcode = 9) bs u ∧ t.mem = u.mem ∧ t.cache = u.cache ∧
        t.interleave = u.interleave := by
    intro hop f o l hrec
    obtain ⟨bs, u, hin, hrest⟩ := inside_reclaim f o l s t hrec
    exact ⟨bs, u, hin.imp fun hq => hq.resolve_right hop, hrest⟩
  cases i with
  | reclaimTx => exact reclaims (by decide) _ _ _ h
  | reclaimRx => exact reclaims (by decide) _ _ _ h
  | check dir =>
    obtain ⟨bs, u, hin, hrest⟩ := inside_check dir s t h
    exact ⟨bs, u, hin.imp fun _ => trivial, hrest⟩
  | _ => simp [Instr.opcode] at hi

/-- Settles O14. -/
theorem readingCommandsWriteNothing : Obligations.ReadingCommandsWriteNothing := by
  intro i s t hi hs h
  obtain ⟨bs, u, hin, hmem, hcache, hscript⟩ := exec_inside hi h
  obtain ⟨-, hparams, -⟩ := operandsAndMarksFrame i s t h
  have hring : s.ring.cap = 0 ∨ s.ring.Sound := or_iff_not_imp_left.mpr hs.2
  have hstays : ∀ a : Word, s.ring.hwOwned a = false → s.Agrees a → t.mem.byte a.toNat = s.mem.byte a.toNat := by
    intro a ha hagree
    rw [hmem]
    exact (hin.stays hring a ha hagree).1
  refine ⟨fun hco a ha => ?reads, fun hempty => ?alone, hstays, bs, ?taken, fun hw => ?writers, fun hq => ?replay⟩
  case reads =>
    rw [State.readByte_eq, State.readByte_eq, hparams, hco]
    exact hstays a ha fun hnot => absurd hco (by simp [hnot])
  case alone =>
    have hnone : bs = [] := (List.append_eq_nil_iff.mp (hin.taken.symm.trans hempty)).1
    rw [hmem]
    exact hin.writers (by simp [hnone])
  case taken =>
    rw [hscript]
    exact hin.taken
  case writers =>
    rw [hmem]
    exact hin.writers hw
  case replay =>
    rw [hmem, hcache, hin.replay hq]
    exact ⟨rfl, rfl⟩

end Sys2Proof.Machine
end

section
/-! PROOFS. UNALLOC after ALLOC, and what a successful SUBMIT leaves (41_alloc_submit.md R156, R164, R165). The key facts are
`RingRegs.Sound.unalloc_alloc`, `readByte_cleanRange` and `cleanSlots_outside`. -/

namespace Sys2Proof.Machine
open Sys2Proof.Config

/-! ### UNALLOC undoes ALLOC (R156) -/

/-- The registers come back: going back undoes going forward, and no count wraps. -/
theorem RingRegs.Sound.unalloc_alloc {r : RingRegs} (hs : r.Sound) (hc : r.cap ≠ 0) {n : Word}
    (hn : n.toNat ≤ r.freeCnt.toNat) : (r.alloc n).unalloc n = r := by
  have hback : (r.alloc n).back (r.adv r.freeHead n.toNat) n.toNat = r.freeHead :=
    (hs.geo hc).back_adv hs.freePtr n.toNat (by have := hs.sum; omega)
  have hfree : r.freeCnt - n + n = r.freeCnt := by ring
  have hpre : r.preCnt + n - n = r.preCnt := by ring
  have hregs : (r.alloc n).unalloc n =
      { r with
        freeHead := (r.alloc n).back (r.adv r.freeHead n.toNat) n.toNat
        freeCnt := r.freeCnt - n + n
        preCnt := r.preCnt + n - n } := rfl
  rw [hregs, hback, hfree, hpre]

/-- Settles O27: both commands pass their tests. -/
theorem unallocUndoesAlloc : Obligations.UnallocUndoesAlloc := by
  intro s hinv hc hn
  have hs := hinv.2 hc
  have hpre : s.args.arg0.toNat ≤ (s.ring.preCnt + s.args.arg0).toNat := by
    have := hs.sum
    have := s.ring.cap.isLt
    rw [Word.add_toNat (by omega)]
    omega
  have halloc := exec_alloc_eq hc
  have hunalloc := exec_unalloc_eq
    (s := (s.withRing (s.ring.alloc s.args.arg0)).withRes .success s.ring.freeHead 0) hc
  rw [if_neg hn.not_gt] at halloc
  rw [if_neg (by exact hpre.not_gt)] at hunalloc
  exact ⟨_, _, halloc, hunalloc, hs.unalloc_alloc hc hn, rfl⟩

/-! ### What a clean leaves as the block reads it (R78 item 1) -/

/-- A byte the cache does not hold has no entry. -/
theorem addr_ne_of_cacheGet_eq_none {cs : List CacheByte} {x : Nat} (h : cacheGet cs x = none) :
    ∀ c ∈ cs, c.addr ≠ x := by
  induction cs with
  | nil => simp
  | cons d cs ih =>
    simp only [cacheGet] at h
    split at h
    · cases h
    · exact List.forall_mem_cons.mpr ⟨‹_›, ih h⟩

/-- Writing cached bytes back, and marking any of them clean, changes no byte that is read: what goes to memory is what the
cache goes on to hold. -/
theorem readByte_writtenBack (s : State) (hco : s.params.coherent = false) (q : CacheByte → Bool) (p : Nat → Bool)
    (x : Word) :
    (s.withMem (cacheFlush q s.cache s.mem) (cacheMarkClean p s.cache)).readByte x = s.readByte x := by
  simp only [State.readByte_eq, State.withMem_params, State.withMem_mem, State.withMem_cache, hco, cacheGet_markClean,
    Bool.false_eq_true, if_false]
  cases hget : cacheGet s.cache x.toNat with
  | some b => rfl
  | none => exact Memory.byte_flush_other q s.cache s.mem x.toNat fun c hc _ => addr_ne_of_cacheGet_eq_none hget c hc

/-- With no agent in between, a `CacheClean` changes no byte that is read. -/
theorem readByte_cacheClean {s : State} (he : s.interleave = []) (a n x : Word) :
    (cacheClean a n s).readByte x = s.readByte x := by
  unfold cacheClean
  split
  · rfl
  · rw [agentTurn_of_empty he]
    exact readByte_writtenBack s (Bool.eq_false_iff.mpr ‹_›) _ _ x

theorem cacheClean_interleave {s : State} (he : s.interleave = []) (a n : Word) :
    (cacheClean a n s).interleave = [] := by
  unfold cacheClean
  split
  · exact he
  · rw [agentTurn_of_empty he]
    exact he

theorem readByte_cleanSlots (p x : Word) (k i : Nat) {s : State} (he : s.interleave = []) :
    (cleanSlots p k i s).readByte x = s.readByte x := by
  induction k generalizing i s with
  | zero => rfl
  | succ k ih => rw [cleanSlots, ih _ (cacheClean_interleave he _ _), readByte_cacheClean he]

/-! ### SUBMIT (R164, R165) -/

/-- SUBMIT with every precondition of R163 met. -/
theorem exec_submit_of_sequence {s : State} (hc : s.ring.cap ≠ 0) (hpos : 0 < s.args.arg0.toNat)
    (hn : s.args.arg0.toNat ≤ s.ring.preCnt.toNat) (hp : s.args.arg1 = s.ring.preHead) :
    exec .submit s = .next s.submitted := by
  have hzero : s.args.arg0 ≠ 0 := fun h0 => by simp [h0] at hpos
  rw [exec_submit_eq hc, if_neg hzero, if_neg (by simp [hp, hn])]

/-- SUBMIT's registers, whatever falls inside it. -/
theorem submitted_eq (s : State) :
    s.submitted = { s with
      ring := s.ring.submit s.args.arg0 s.args.arg1
      res := { code := .success, ptr := 0, count := 0 }
      mem := s.submitted.mem, cache := s.submitted.cache, interleave := s.submitted.interleave } := by
  have hclean := memOnly_cleanSlots s.args.arg1 s.args.arg0.toNat 0 s
  conv_lhs => rw [State.submitted, hclean.ring, hclean.eq]
  rfl

/-- Settles O28. -/
theorem submitHandsOverTheSet : Obligations.SubmitHandsOverTheSet := by
  intro s hc hpos hn hp
  refine ⟨s.submitted, exec_submit_of_sequence hc hpos hn hp, submitted_eq s, fun hco => ?coherent, fun he a => ?reads⟩
  case coherent =>
    rw [State.submitted, cleanSlots_coherent _ _ _ _ hco]
    exact ⟨rfl, rfl, rfl⟩
  case reads => exact readByte_cleanSlots s.args.arg1 a s.args.arg0.toNat 0 he

/-- For an aligned slot, the bytes that maintenance acts on are the slot's own. -/
theorem inRange_slot_iff {a n : Word} (ha : a.toNat % 4 = 0) (hn : n.toNat % 4 = 0) (x : Nat) :
    inRange a n x = true ↔ a.toNat ≤ x ∧ x < a.toNat + n.toNat := by
  have hzero : n = 0 ↔ n.toNat = 0 := by rw [← BitVec.toNat_inj]; rfl
  simp only [inRange, Bool.and_eq_true, decide_eq_true_eq, ne_eq, hzero]
  omega

/-- A descriptor of a sound ring is aligned (R35, R36). -/
theorem RingRegs.Sound.adv_mod {r : RingRegs} (hs : r.Sound) (hc : r.cap ≠ 0) (p : Word) (k : Nat) :
    (r.adv p k).toNat % 4 = 0 := by
  obtain ⟨i, hi, he⟩ := ((hs.geo hc).isPtr_iff _).mp ((hs.geo hc).isPtr_adv p k)
  rw [he]
  simpa [wordAddr] using hs.wordAddr_mod hc hi 0

/-- SUBMIT's cleans leave every byte of memory outside the ranges they clean. -/
theorem cleanSlots_outside (p : Word) (x k i : Nat) {s : State} (he : s.interleave = [])
    (hx : ∀ j, i ≤ j → j < i + k → inRange (s.ring.adv p j) s.ring.stride x = false) :
    (cleanSlots p k i s).mem.byte x = s.mem.byte x := by
  induction k generalizing i s with
  | zero => rfl
  | succ k ih =>
    have hring := (memOnly_cacheClean (s.ring.adv p i) s.ring.stride s).ring
    rw [cleanSlots, ih (i + 1) (cacheClean_interleave he _ _)]
    · unfold cacheClean
      split
      · rfl
      · rw [agentTurn_of_empty he]
        apply Memory.byte_flush_other
        rintro c - hq rfl
        simp [hx i (by omega) (by omega)] at hq
    · intro j hlo hhi
      rw [hring]
      exact hx j (by omega) (by omega)

/-- Settles O31: the slots are the ranges SUBMIT cleans. -/
theorem submitCleansTheSlots : Obligations.SubmitCleansTheSlots := by
  intro s hinv hm hco he hc hpos hn hp
  have hs := hinv.2 hc
  have hslot : ∀ k x : Nat, inRange (s.ring.adv s.ring.preHead k) s.ring.stride x = true ↔
      (s.ring.adv s.ring.preHead k).toNat ≤ x ∧ x < (s.ring.adv s.ring.preHead k).toNat + s.ring.stride.toNat :=
    fun k => inRange_slot_iff (hs.adv_mod hc _ k) (by have := hs.stride_mod; omega)
  refine ⟨_, exec_submit_of_sequence hc hpos hn hp, fun k x hk hlo hhi => ?inside, fun x hx => ?outside⟩
  all_goals rw [State.submitted, hp]
  case inside =>
    exact (cleanSlots_bytes s.ring.preHead x s.args.arg0.toNat 0 s hm hco he).2 k (by omega) (by omega)
      ((hslot k x).mpr ⟨hlo, hhi⟩)
  case outside =>
    exact cleanSlots_outside s.ring.preHead x s.args.arg0.toNat 0 he fun j _ hj =>
      Bool.eq_false_iff.mpr fun hin => hx j (by omega) ((hslot j x).mp hin)

end Sys2Proof.Machine
end

section
/-! PROOFS. The scan and the commit of a reclaim (42_reclaim.md R180 to R186, R190 to R194). The key facts are `scan_le`, which
bounds it under any interleaving, and `reclaim_of_empty`, which says exactly what it returns where no agent steps inside. -/

namespace Sys2Proof.Machine
open Sys2Proof.Config

/-- What a reclaim leaves differs from what it would leave at once by what falls inside its scan. -/
theorem reclaimed_memOnly {s u : State} (h : s.MemOnly u) (ret : Nat) :
    reclaimed u ret = { reclaimed s ret with mem := u.mem, cache := u.cache, interleave := u.interleave } := by
  rw [h.eq]
  unfold reclaimed
  split <;> rfl

/-- A reclaim under any interleaving (R183, R184). -/
theorem reclaim_bounded {s : State} (hs : s.ring.Sound) (hc : s.ring.cap ≠ 0) (t : FlagPos) (o : Option FlagPos)
    (limit : Word) :
    ∃ ret v, reclaim t o limit s = .next v ∧ ret ≤ limit.toNat ∧ ret ≤ s.ring.hwCnt.toNat ∧
      v = { reclaimed s ret with mem := v.mem, cache := v.cache, interleave := v.interleave } := by
  by_cases hw : s.ring.hwCnt = 0
  · exact ⟨0, _, reclaim_of_hwCnt_eq_zero hc hw t o limit, Nat.zero_le _, Nat.zero_le _, rfl⟩
  · obtain ⟨hlimit, hpart⟩ := scan_le hs hc hw t o limit
    have heq := reclaim_eq hc t o limit
    rw [if_neg hw, reclaimed_memOnly (memOnly_scan t o limit s)] at heq
    exact ⟨_, _, heq, hlimit, hpart, rfl⟩

/-- Settles O34. -/
theorem reclaimIsBoundedUnderAnyInterleaving : Obligations.ReclaimIsBoundedUnderAnyInterleaving := by
  intro i s hi hinv hc
  obtain rfl | rfl := hi
  · exact reclaim_bounded (hinv.2 hc) hc _ _ s.args.arg0
  · exact reclaim_bounded (hinv.2 hc) hc _ _ s.args.arg0

/-- A reclaim inside which no other agent steps (R180 to R184): the flags are those in memory, and but for the commit it
changes the cache alone. -/
theorem reclaim_of_empty {s : State} (hs : s.ring.Sound) (hc : s.ring.cap ≠ 0) (hw : s.ring.hwCnt ≠ 0)
    (he : s.interleave = []) (t : FlagPos) (o : Option FlagPos) (limit : Word) :
    ∃ m ret v, ScanLength s o limit.toNat m ∧ PacketEnd s t m ret ∧ reclaim t o limit s = .next v ∧
      v = { reclaimed s ret with cache := v.cache } ∧ (s.params.coherent = true → v.cache = s.cache) := by
  obtain ⟨d, cs, hloop, hcs, -, hlength, hend⟩ := scanLoop_of_empty t o s hs hc hw he limit.toNat
    { cur := s.ring.hwHead, count := 0, open_ := 0 } s.cache (fun _ => rfl) (Word.toNat_pos hw)
    ((hs.geo hc).adv_zero hs.hwPtr).symm (Nat.zero_le _)
    ⟨Nat.zero_le _, fun h => absurd h (by simp), fun _ _ h => absurd h (by simp)⟩ (fun _ h => absurd h (by simp))
  have hscan : scan t o limit s = (d.count - d.open_, { s with cache := cs }) := by
    simp only [scan, hloop]
    rw [agentTurn_of_empty (s := { s with cache := cs }) he]
  have heq := reclaim_eq hc t o limit
  have honly : s.MemOnly { s with cache := cs } := State.memOnly_withMem s s.mem cs
  rw [if_neg hw, hscan, reclaimed_memOnly honly] at heq
  refine ⟨d.count, d.count - d.open_, _, by rwa [Nat.zero_add] at hlength, hend, heq, ?_, hcs⟩
  unfold reclaimed
  split <;> rfl

/-- Settles O32. -/
theorem reclaimTxReturnsWholePackets : Obligations.ReclaimTxReturnsWholePackets := by
  intro s hinv he hc hw
  exact reclaim_of_empty (hinv.2 hc) hc hw he s.params.layout.txLast (txStopFlag s.params) s.args.arg0

/-- Settles O33. -/
theorem reclaimRxReturnsWholeFrames : Obligations.ReclaimRxReturnsWholeFrames := by
  intro s hinv he hc hw
  exact reclaim_of_empty (hinv.2 hc) hc hw he s.params.layout.rxEof (some s.params.layout.rxNew) s.args.arg0

end Sys2Proof.Machine
end

section
/-! PROOFS. FREE, and CHECK on a stopped ring (43_free_check_run.md R201, R202, R210 to R214). The key facts are
`exec_check_of_badHead`, `exec_check_of_badSum` and `exec_check_of_counted`, CHECK's steps 4 to 7 in their order. -/

namespace Sys2Proof.Machine
open Sys2Proof.Config

/-! ### FREE -/

/-- Settles O36: the count and the pointer pass FREE's tests. -/
theorem freeMovesThePostHead : Obligations.FreeMovesThePostHead := by
  intro s hc hpos hn hp
  have hzero : s.args.arg0 ≠ 0 := fun h0 => by simp [h0] at hpos
  rw [exec_free_eq hc, if_neg hzero, if_neg (by simp [hp, hn])]
  rfl

/-- Settles O37: `n = 0` is FREE's first test, and with `n > 0` either cause fails the second. -/
theorem freeOutOfSequenceFails : Obligations.FreeOutOfSequenceFails := by
  intro s hc
  rw [exec_free_eq hc]
  refine ⟨fun h0 => ?_, fun hpos hbad => ?_⟩
  · rw [if_pos h0]
    rfl
  · have hzero : s.args.arg0 ≠ 0 := fun h0 => by simp [h0] at hpos
    rw [if_neg hzero, if_pos hbad]
    rfl

/-! ### CHECK's steps (R210) -/

section
variable {s : State} {dir : DirField} {f : FlagPos} (hc : s.ring.cap ≠ 0) (hrun : s.ring.run = .stopped)
  (hf : wrapFlag s.params.layout dir = some f)
include hc hrun hf

/-- Step 4: the first pointer outside the ring. -/
theorem exec_check_of_badHead {p d : Word} (hbad : s.ring.badHead = some (p, d)) :
    exec (.check dir) s = .next (s.withRes .listStateError p d) := by
  have hexec : exec (.check dir) s = execCheck dir s := rfl
  rw [hexec, execCheck, if_neg hc, if_neg (by simp [hrun]), hf, hbad]
  rfl

/-- Step 5: counts that do not sum to the capacity. -/
theorem exec_check_of_badSum (hheads : s.ring.badHead = none) (hsum : s.ring.sumOk = false) :
    exec (.check dir) s = .next (s.withRes .listStateError 0 chkCount) := by
  have hexec : exec (.check dir) s = execCheck dir s := rfl
  rw [hexec, execCheck, if_neg hc, if_neg (by simp [hrun]), hf, hheads]
  exact if_neg (by simp [hsum])

/-- Steps 6 and 7 are reached. -/
theorem exec_check_of_counted (hheads : s.ring.badHead = none) (hsum : s.ring.sumOk = true) :
    exec (.check dir) s = checkMemory f s := by
  have hexec : exec (.check dir) s = execCheck dir s := rfl
  rw [hexec, execCheck, if_neg hc, if_neg (by simp [hrun]), hf, hheads]
  exact if_pos hsum

end

/-- The directions that name a wrap flag (R92). -/
theorem exists_wrapFlag {dir : DirField} (l : Layout) (h : dir = .tx ∨ dir = .rx) : ∃ f, wrapFlag l dir = some f := by
  obtain rfl | rfl := h
  · exact ⟨_, rfl⟩
  · exact ⟨_, rfl⟩

/-! ### Steps 4 and 5 in numbers -/

theorem RingRegs.outside_eq_false_iff (r : RingRegs) (p : Word) :
    r.outside p = false ↔ r.base.toNat ≤ p.toNat ∧ p.toNat ≤ r.high.toNat := by
  simp [RingRegs.outside, BitVec.lt_def]

theorem RingRegs.outside_eq_true_iff (r : RingRegs) (p : Word) :
    r.outside p = true ↔ ¬(r.base.toNat ≤ p.toNat ∧ p.toNat ≤ r.high.toNat) := by
  rw [← r.outside_eq_false_iff, Bool.not_eq_false]

theorem RingRegs.badHead_eq_none {r : RingRegs}
    (h : ∀ p ∈ [r.freeHead, r.preHead, r.hwHead, r.hwTail, r.postHead],
      r.base.toNat ≤ p.toNat ∧ p.toNat ≤ r.high.toNat) : r.badHead = none := by
  simp only [← r.outside_eq_false_iff] at h
  simpa [RingRegs.badHead, RingRegs.heads] using h

/-- The order in which CHECK tests the five pointers, each with its detail code 1 to 5 (R212, R214). -/
theorem RingRegs.heads_getElem (r : RingRegs) {k : Nat} (hk : k < 5) :
    r.heads[k]'hk =
      (#v[r.freeHead, r.preHead, r.hwHead, r.hwTail, r.postHead][k], BitVec.ofNat 32 (k + 1)) := by
  interval_cases k <;> rfl

/-- Settles O39: each of the five positions is the first that `find?` accepts when those before it are inside. -/
theorem checkReportsPointersAndCounts : Obligations.CheckReportsPointersAndCounts := by
  intro s dir hc hrun hdir
  obtain ⟨f, hf⟩ := exists_wrapFlag s.params.layout hdir
  refine ⟨?pointer, fun hinside hsum => ?counts⟩
  case pointer =>
    intro k hk ptrs hbefore hbad
    have hfirst : s.ring.badHead = some (ptrs[k], BitVec.ofNat 32 (k + 1)) := by
      refine List.find?_eq_some_iff_getElem.mpr
        ⟨(s.ring.outside_eq_true_iff _).mpr hbad, k, hk, s.ring.heads_getElem hk, fun j hj => ?_⟩
      have hinside := (s.ring.outside_eq_false_iff _).mpr (hbefore j hj)
      rw [Bool.not_eq_true', ← hinside]
      exact congrArg (fun h => s.ring.outside h.1) (s.ring.heads_getElem (hj.trans hk))
    exact exec_check_of_badHead hc hrun hf hfirst
  case counts =>
    exact exec_check_of_badSum hc hrun hf (RingRegs.badHead_eq_none hinside) (by simpa [RingRegs.sumOk] using hsum)

/-! ### Steps 6 and 7 on a sound ring -/

/-- A ring pointer lies inside the ring (R31, R33). -/
theorem RingRegs.Sound.inside_of_isPtr {r : RingRegs} (hs : r.Sound) {p : Word} (hp : r.IsPtr p) :
    r.base.toNat ≤ p.toNat ∧ p.toNat ≤ r.high.toNat := by
  obtain ⟨i, hi, he⟩ := hp
  have hle := Nat.mul_le_mul_right r.stride.toNat (show i ≤ r.cap.toNat - 1 by omega)
  rw [hs.high, he]
  omega

theorem RingRegs.Sound.badHead_eq_none {r : RingRegs} (hs : r.Sound) : r.badHead = none := by
  apply RingRegs.badHead_eq_none
  intro p hp
  simp only [List.mem_cons, List.not_mem_nil, or_false] at hp
  obtain rfl | rfl | rfl | rfl | rfl := hp
  · exact hs.inside_of_isPtr hs.freePtr
  · exact hs.inside_of_isPtr hs.prePtr
  · exact hs.inside_of_isPtr hs.hwPtr
  · exact hs.inside_of_isPtr hs.tailPtr
  · exact hs.inside_of_isPtr hs.postPtr

theorem RingRegs.Sound.sumOk {r : RingRegs} (hs : r.Sound) : r.sumOk = true := by
  simpa [RingRegs.sumOk] using hs.sum

/-- A link in numbers: addresses wrap at 2^32 (R9, R12). -/
theorem RingRegs.link_toNat (r : RingRegs) (i : Nat) :
    (r.link i).toNat = (r.pbase.toNat + (i + 1) * r.stride.toNat) % 2 ^ 32 := by
  simp [RingRegs.link, Nat.add_mod, Nat.mul_mod]

theorem wordAddr_zero (p : Word) : wordAddr p 0 = p := by
  simp [wordAddr]

/-- With no agent in between, step 7 reads the flag and changes nothing. -/
theorem checkWrap_of_empty {s : State} (he : s.interleave = []) (f : FlagPos) :
    checkWrap f s = .next
      (if (s.readWord (wordAddr s.ring.high f.word)).getLsbD f.bit.val then s.withRes .success 0 chkOk
      else s.withRes .listStateError s.ring.high chkWrap) := by
  rw [apply_ite Host.Outcome.next]
  simp only [checkWrap, memRead_of_empty he]
  rfl

/-- Settles O40. -/
theorem checkReportsLinksAndWrap : Obligations.CheckReportsLinksAndWrap := by
  intro s dir f hinv he hc hrun hdir
  have hs := hinv.2 hc
  have hf : wrapFlag s.params.layout dir = some f := by
    obtain ⟨rfl, rfl⟩ | ⟨rfl, rfl⟩ := hdir <;> rfl
  have hlinked : ∀ i, s.readWord (wordAddr (s.ring.ptr i) 0) = s.ring.link i ↔
      (s.readWord (s.ring.ptr i)).toNat = (s.ring.pbase.toNat + (i + 1) * s.ring.stride.toNat) % 2 ^ 32 := by
    intro i
    rw [wordAddr_zero, ← BitVec.toNat_inj, s.ring.link_toNat]
  obtain ⟨hbroken, hwhole⟩ := checkLinks_of_empty he (s.ring.cap.toNat - 1) 0
  rw [exec_check_of_counted hc hrun hf hs.badHead_eq_none hs.sumOk, checkMemory]
  intro linked wrapped
  refine ⟨fun i hi hbefore hnot => ?link, fun hall hclear => ?missing, fun hall hset => ?success⟩
  case link =>
    rw [hbroken i (Nat.zero_le _) (by omega) (fun j _ hj => (hlinked j).mpr (hbefore j hj)) (mt (hlinked i).mp hnot)]
    rfl
  all_goals
    rw [hwhole fun j _ hj => (hlinked j).mpr (hall j (by omega))]
    dsimp only
    rw [checkWrap_of_empty he]
  case missing =>
    rw [if_neg (Bool.eq_false_iff.mp hclear)]
    rfl
  case success =>
    rw [if_pos hset]
    rfl

end Sys2Proof.Machine
end

section
/-! PROOFS. What CREATE and CLONE leave in memory (40_ring_setup.md R125, R126, R130 to R132). The key facts are
`layRing_reads` and `setFlag_reads`, which put the loops' laws together. -/

namespace Sys2Proof.Machine
open Sys2Proof.Config

/-! ### CREATE's region (R125, R126) -/

theorem Word.pred_eq_ofNat {w : Word} (h : w ≠ 0) : w - 1 = BitVec.ofNat 32 (w.toNat - 1) := by
  apply BitVec.eq_of_toNat_eq
  have := w.isLt
  rw [Word.sub_toNat (b := 1) (Word.toNat_pos h), BitVec.toNat_ofNat, Nat.mod_eq_of_lt (by omega)]
  rfl

/-- A slot of a region that does not wrap: where it is, that it is aligned, and that it lies inside. -/
theorem region_slot {vb st : Word} {n i : Nat} (hv : vb.toNat % 4 = 0) (hst : st.toNat % 4 = 0) (h0 : 0 < st.toNat)
    (hfit : vb.toNat + n * st.toNat ≤ 2 ^ 32) (hi : i < n) :
    (vb + BitVec.ofNat 32 i * st).toNat = vb.toNat + i * st.toNat ∧ (vb + BitVec.ofNat 32 i * st).toNat % 4 = 0 ∧
      i * st.toNat + st.toNat ≤ n * st.toNat := by
  have hend : i * st.toNat + st.toNat ≤ n * st.toNat := by
    rw [← Nat.succ_mul]
    exact Nat.mul_le_mul_right _ hi
  exact ⟨slot_toNat h0 le_rfl (by omega), slot_mod h0 le_rfl (by omega) hv hst, hend⟩

/-- A byte outside the region shares no aligned word with a slot's start. -/
theorem div_ne_slot_of_outside {vb st x : Word} {n i : Nat} (hv : vb.toNat % 4 = 0) (hst : st.toNat % 4 = 0)
    (h0 : 0 < st.toNat) (hfit : vb.toNat + n * st.toNat ≤ 2 ^ 32) (hi : i < n)
    (hx : x.toNat < vb.toNat ∨ vb.toNat + n * st.toNat ≤ x.toNat) :
    x.toNat / 4 ≠ (vb + BitVec.ofNat 32 i * st).toNat / 4 := by
  obtain ⟨haddr, haligned, hend⟩ := region_slot hv hst h0 hfit hi
  omega

/-- A place inside a slot is the start of none. -/
theorem slot_add_ne {n m : Nat} (h0 : 0 < m) (hm : m < n) (i k : Nat) : i * n + m ≠ k * n := by
  intro heq
  have hmod := congrArg (· % n) heq
  simp only [Nat.mul_add_mod', Nat.mul_mod_left, Nat.mod_eq_of_lt hm] at hmod
  omega

section
variable {pb vb st cnt : Word} {s : State} (hr : s.ring.cap = 0) (hq : s.Quiet) (hv : vb.toNat % 4 = 0)
  (hst : st.toNat % 4 = 0) (h0 : 0 < st.toNat) (hcnt : cnt ≠ 0) (hfit : vb.toNat + cnt.toNat * st.toNat ≤ 2 ^ 32)
include hr hq hv hst h0 hcnt hfit

/-- The region as CREATE lays it out where no ring stands: each descriptor's word 0 is its link, every other word is 0, and
no byte outside changes. -/
theorem layRing_reads :
    (∀ i, i < cnt.toNat → (layRing pb vb st cnt s).readWord (vb + BitVec.ofNat 32 i * st) =
      if i + 1 < cnt.toNat then pb + BitVec.ofNat 32 (i + 1) * st else pb) ∧
    (∀ b : Word, b.toNat % 4 = 0 → vb.toNat ≤ b.toNat → b.toNat < vb.toNat + cnt.toNat * st.toNat →
      (∀ i, i < cnt.toNat → b ≠ vb + BitVec.ofNat 32 i * st) → (layRing pb vb st cnt s).readWord b = 0) ∧
    ∀ x : Word, x.toNat < vb.toNat ∨ vb.toNat + cnt.toNat * st.toNat ≤ x.toNat →
      (layRing pb vb st cnt s).readByte x = s.readByte x := by
  have hpos := Word.toNat_pos hcnt
  have hsize : 4 * (st.toNat * cnt.toNat / 4) = cnt.toNat * st.toNat := by
    rw [Nat.mul_div_cancel' ((Nat.dvd_of_mod_eq_zero hst).mul_right _), Nat.mul_comm]
  have hslot := fun i (hi : i < cnt.toNat) => region_slot hv hst h0 hfit hi
  obtain ⟨hlastAddr, hlastAligned, hlastEnd⟩ := hslot (cnt.toNat - 1) (by omega)
  obtain ⟨hzero, hzeroOut⟩ := zeroWords_reads (st.toNat * cnt.toNat / 4) vb s hr hq hv (by omega)
  have hmemZ := memOnly_zeroWords (st.toNat * cnt.toNat / 4) vb s
  have hqZ := quiet_zeroWords (st.toNat * cnt.toNat / 4) vb s hq
  obtain ⟨hlink, hlinkOther, hlinkOut⟩ := writeLinks_reads pb vb st (cnt.toNat - 1) 0 _ (by rw [hmemZ.ring]; exact hr) hqZ
    hv hst h0 (by rw [Nat.zero_add]; omega)
  have hmemL := hmemZ.trans (memOnly_writeLinks pb vb st (cnt.toNat - 1) 0 _)
  have hqL := quiet_writeLinks pb vb st (cnt.toNat - 1) 0 _ hqZ
  rw [layRing, Word.pred_eq_ofNat hcnt]
  generalize writeLinks pb vb st (cnt.toNat - 1) 0 (zeroWords (st.toNat * cnt.toNat / 4) vb s) = linked at *
  have hrL : linked.ring.cap = 0 := by rw [hmemL.ring]; exact hr
  have hread : ∀ b : Word, b.toNat % 4 = 0 →
      (memWrite (vb + BitVec.ofNat 32 (cnt.toNat - 1) * st) pb linked).readWord b =
        if b = vb + BitVec.ofNat 32 (cnt.toNat - 1) * st then pb else linked.readWord b :=
    fun b hb => readWord_memWrite_eq (.inl hrL) hqL (RingRegs.hwOwned_noRing hrL) hlastAligned hb
  refine ⟨fun i hi => ?link, fun b hb hlo hhi hne => ?zero, fun x hx => ?outside⟩
  case link =>
    obtain ⟨haddr, haligned, -⟩ := hslot i hi
    rw [hread _ haligned]
    split_ifs with heq hlt hlt
    · have hsame := congrArg BitVec.toNat heq
      have hless := Nat.mul_lt_mul_of_pos_right (show i < cnt.toNat - 1 by omega) h0
      omega
    · rfl
    · exact hlink i (Nat.zero_le _) (by omega)
    · exact absurd (by rw [show i = cnt.toNat - 1 by omega]) heq
  case zero =>
    rw [hread b hb, if_neg (hne _ (by omega)), hlinkOther b hb fun i _ hi => hne i (by omega), hzero b hb,
      if_pos (by omega)]
  case outside =>
    have hother := fun i (hi : i < cnt.toNat) => div_ne_slot_of_outside hv hst h0 hfit hi hx
    rw [readByte_memWrite_other (.inl hrL) hqL hlastAligned (hother _ (by omega)) (RingRegs.hwOwned_noRing hrL x),
      hlinkOut x fun i _ hi => hother i (by omega), hzeroOut x (by omega)]

end

theorem quiet_createBegin {s : State} (h : s.Quiet) : (createBegin s).Quiet := by
  rw [createBegin_eq]
  exact h

/-- Settles O19: the region `layRing_reads` describes, with the stride in numbers. -/
theorem createLaysOutTheRegion : Obligations.CreateLaysOutTheRegion := by
  intro s hp hquiet hlegal hfit
  have hstride := hlegal.stride_toNat hp
  have hsound := hlegal.createdRing_sound hp hfit
  have hmod := hsound.stride_mod
  have hge := hsound.stride_ge
  have hbase := hsound.baseAligned
  have hcnt : s.args.arg3 ≠ 0 := by
    obtain ⟨-, -, -, -, hne⟩ := hlegal
    exact fun h0 => hne (by rw [h0]; rfl)
  simp only [createdRing] at hmod hge hbase
  rw [← hstride, Nat.mul_comm] at hfit
  obtain ⟨hlink, hzero, hout⟩ := layRing_reads (pb := s.args.arg0) (createBegin_cap s) (quiet_createBegin hquiet) hbase
    (by omega) (by omega) hcnt hfit
  have hslot := fun i (hi : i < s.args.arg3.toNat) =>
    region_slot hbase (by omega : (createStride s.args.arg2).toNat % 4 = 0) (by omega) hfit hi
  rw [← hstride]
  refine ⟨s.created, exec_create_of_fits hp hlegal (by rwa [← hstride, Nat.mul_comm]), fun i a hi ha => ?link,
    fun i j a hi hj hlt ha => ?zero, fun a ha => ?outside⟩
  case link =>
    have haddr : a = s.args.arg1 + BitVec.ofNat 32 i * createStride s.args.arg2 :=
      BitVec.eq_of_toNat_eq (ha.trans (hslot i hi).1.symm)
    have hread := hlink i hi
    rw [← haddr] at hread
    change ((layRing _ _ _ _ _).readWord a).toNat = _
    rw [hread]
    split
    · simp [Nat.add_mod, Nat.mul_mod]
    · rfl
  case zero =>
    obtain ⟨haddr, haligned, hend⟩ := hslot i hi
    refine hzero a (by omega) (by omega) (by omega) fun k hk heq => ?_
    have hne := slot_add_ne (show 0 < 4 * j by omega) hlt i k
    have hk' := congrArg BitVec.toNat heq
    rw [(hslot k hk).1] at hk'
    omega
  case outside =>
    rw [Nat.mul_comm (createStride s.args.arg2).toNat] at ha
    exact (hout a ha).trans (createBegin_readByte s a)

/-! ### CLONE (R130 to R132) -/

/-- What `setflag` leaves (R65) where the DMA agent owns nothing: the flag set in its word, every other aligned word and every
byte of another word as before. -/
theorem setFlag_reads {s : State} (hr : s.ring.cap = 0 ∨ s.ring.Sound) (hq : s.Quiet)
    (ho : ∀ x, s.ring.hwOwned x = false) {p : Word} {f : FlagPos} (hp : (wordAddr p f.word).toNat % 4 = 0) :
    (∀ b : Word, b.toNat % 4 = 0 → (setFlag p f s).readWord b =
      if b = wordAddr p f.word then s.readWord b ||| (1#32 <<< f.bit.val) else s.readWord b) ∧
    ∀ x : Word, x.toNat / 4 ≠ (wordAddr p f.word).toNat / 4 → (setFlag p f s).readByte x = s.readByte x := by
  have hring := (memOnly_agentTurn s).ring
  have hrT : (agentTurn s).ring.cap = 0 ∨ (agentTurn s).ring.Sound := by rw [hring]; exact hr
  have hoT : ∀ x, (agentTurn s).ring.hwOwned x = false := by rw [hring]; exact ho
  simp only [setFlag, memRead]
  refine ⟨fun b hb => ?_, fun x hx => ?_⟩
  · rw [readWord_memWrite_eq hrT (quiet_agentTurn hq) hoT hp hb, readWord_agentTurn hr hq ho, readWord_agentTurn hr hq ho]
    split_ifs with heq
    · rw [heq, withFlag]
    · rfl
  · rw [readByte_memWrite_other hrT (quiet_agentTurn hq) hp hx (hoT x), readByte_agentTurn hr hq (ho x)]

/-- A byte of no descriptor is in no descriptor's word (R63). -/
theorem RingRegs.Sound.div_ne_of_not_inDesc {r : RingRegs} (hs : r.Sound) (hc : r.cap ≠ 0) {x : Word}
    (hx : ¬r.inDesc x) {i : Nat} (hi : i < r.cap.toNat) (j : Fin 2) :
    x.toNat / 4 ≠ (wordAddr (r.ptr i) j).toNat / 4 := by
  intro heq
  have hw := hs.wordAddr_toNat hc hi j
  have hm := hs.wordAddr_mod hc hi j
  have hd : descSize = 8 := rfl
  exact hx ⟨i, hi, by omega, by omega⟩

/-- Settles O21: the template by `cloneDescs_reads`, the wrap flag by `setFlag_reads`. -/
theorem cloneCopiesTheTemplate : Obligations.CloneCopiesTheTemplate := by
  intro s dir f hinv hquiet hc hrun hfree hdir
  have hs := hinv.2 hc
  have hpos := RingRegs.cap_pos hc
  have hf : wrapFlag s.params.layout dir = some f := by
    obtain ⟨rfl, rfl⟩ | ⟨rfl, rfl⟩ := hdir <;> rfl
  have hw : s.ring.hwCnt = 0 := by
    have := hs.sum
    rw [hfree] at this
    exact BitVec.eq_of_toNat_eq (show _ = 0 by omega)
  have hnoHw := RingRegs.hwOwned_noHw hw
  have hmem := memOnly_cloneDescs s.args.arg0 s.args.arg1 s.ring.cap.toNat 0 s
  obtain ⟨hcopied, hcopiedOut⟩ := cloneDescs_reads s.args.arg0 s.args.arg1 s.ring.cap.toNat 0 s hs hc hw hquiet (by omega)
  have hq := quiet_cloneDescs s.args.arg0 s.args.arg1 s.ring.cap.toNat 0 s hquiet
  have hhigh := hs.high_eq hc
  have hexec := exec_clone_of_free hc hrun hfree hf
  rw [State.cloned, hmem.ring, hhigh] at hexec
  generalize cloneDescs s.args.arg0 s.args.arg1 s.ring.cap.toNat 0 s = copied at *
  obtain ⟨hflag, hflagOut⟩ := setFlag_reads (.inr (by rw [hmem.ring]; exact hs)) hq (by rw [hmem.ring]; exact hnoHw)
    (hs.wordAddr_mod hc (show s.ring.cap.toNat - 1 < s.ring.cap.toNat by omega) f.word)
  have hall := hmem.trans (memOnly_setFlag (s.ring.ptr (s.ring.cap.toNat - 1)) f copied)
  refine ⟨_, hexec, rfl, hall.ring, hall.args, hall.faults, fun i j hi => ?words, fun a ha => ?bytes⟩
  case words =>
    have hlast : wordAddr (s.ring.ptr i) j = wordAddr (s.ring.ptr (s.ring.cap.toNat - 1)) f.word ↔
        i + 1 = s.ring.cap.toNat ∧ j = f.word := by
      constructor
      · intro heq
        obtain ⟨hi', hj⟩ := hs.wordAddr_inj hc hi (by omega) heq
        exact ⟨by omega, hj⟩
      · rintro ⟨hi', rfl⟩
        rw [← hi', Nat.add_sub_cancel]
    have hword := hflag _ (hs.wordAddr_mod hc hi j)
    simp only [hlast, hcopied i j hi, if_pos (show 0 ≤ i ∧ i < 0 + s.ring.cap.toNat by omega)] at hword
    exact hword
  case bytes =>
    exact (hflagOut a (hs.div_ne_of_not_inDesc hc ha (by omega) f.word)).trans (hcopiedOut a ha)

end Sys2Proof.Machine
end

section
/-! PROOFS. The host's accesses to the register map (10_state.md R40 to R43). The key facts are `step_regRead_at` and
`step_regWrite_at`, what an access at an offset of the map does, and `regOffset_eq_none`, which accesses are none of the
interface. -/

namespace Sys2Proof.Machine
open Sys2Proof.Config

/-! ### Accesses of the interface -/

section
variable {s : State} {off : Nat} {rest : List Event}

/-- A read at an offset of the map (R42). -/
theorem step_regRead_at (hlt : off < 256) (hmod : off % 4 = 0)
    (hev : s.events = .regRead (s.params.regBase + BitVec.ofNat 32 off) .w32 :: rest) :
    step s = .next
      (if unspecified off && !s.ringWritten then
        { s with readData := freeRead s.draws, draws := s.draws + 1, events := rest }
      else { s with readData := readReg s off, events := rest }) := by
  rw [step_of_cons hev]
  simp only [runEvent, hostRegRead, regOffset_at s.params hlt hmod]
  split <;> rfl

/-- A write at an offset of the map other than that of `CMD` (R42). -/
theorem step_regWrite_at {v : Word} (hpos : 0 < off) (hlt : off < 256) (hmod : off % 4 = 0)
    (hev : s.events = .regWrite (s.params.regBase + BitVec.ofNat 32 off) .w32 v :: rest) :
    step s = .next (writeReg { s with events := rest } off v) := by
  obtain ⟨k, rfl⟩ := Nat.exists_eq_succ_of_ne_zero hpos.ne'
  rw [step_of_cons hev]
  simp only [runEvent, hostRegWrite, regOffset_at s.params hlt hmod]

end

/-- The offsets below the ring's registers, and the reserved ones, are never unspecified (R42). -/
theorem unspecified_eq_false {off : Nat} (h : off < 0x24 ∨ 0x60 ≤ off) : unspecified off = false := by
  simp [unspecified]
  omega

/-- The operand registers take what is written (R40). -/
theorem writeReg_arg {k : Nat} (hk : k < 4) (s : State) (v : Word) :
    writeReg s (4 * k + 4) v = { s with
      args :=
        { arg0 := if k = 0 then v else s.args.arg0
          arg1 := if k = 1 then v else s.args.arg1
          arg2 := if k = 2 then v else s.args.arg2
          arg3 := if k = 3 then v else s.args.arg3 } } := by
  interval_cases k <;> rfl

theorem readReg_writeReg_arg {k : Nat} (hk : k < 4) (s : State) (v : Word) :
    readReg (writeReg s (4 * k + 4) v) (4 * k + 4) = v := by
  interval_cases k <;> rfl

/-- Settles O42. -/
theorem operandRegistersHoldWhatIsWritten : Obligations.OperandRegistersHoldWhatIsWritten := by
  intro s k v rest hk a hev
  have hwrite := step_regWrite_at (by omega) (by omega) (by omega) hev
  refine ⟨_, hwrite, writeReg_arg hk _ v, ?_⟩
  have hread := readReg_writeReg_arg hk { s with events := .regRead a .w32 :: rest } v
  rw [writeReg_arg hk] at hread ⊢
  rw [step_regRead_at (off := 4 * k + 4) (by omega) (by omega) rfl, unspecified_eq_false (by omega), hread]
  rfl

/-- No register from `RES_CODE` on takes a write (R42). -/
theorem writeReg_of_le {off : Nat} (h : 0x14 ≤ off) (s : State) (v : Word) : writeReg s off v = s := by
  unfold writeReg
  split
  case h_5 => rfl
  all_goals omega

/-- Settles O43. -/
theorem readOnlyRegistersIgnoreWrites : Obligations.ReadOnlyRegistersIgnoreWrites := by
  intro s off v rest hlo hhi hmod hev
  rw [step_regWrite_at (by omega) hhi hmod hev, writeReg_of_le hlo]

/-- The reserved offsets read 0 (R42). -/
theorem readReg_of_le {off : Nat} (h : 0x60 ≤ off) (s : State) : readReg s off = 0 := by
  unfold readReg
  split
  case h_24 => rfl
  all_goals omega

/-- The registers that read at any time: where they stand, that they are specified, and what they hold (R42). -/
theorem readReg_of_mem_alwaysReadable {s : State} {off : Nat} {v : Word} (h : (off, v) ∈ s.alwaysReadable) :
    off < 256 ∧ off % 4 = 0 ∧ unspecified off = false ∧ readReg s off = v := by
  simp only [State.alwaysReadable, List.mem_cons, Prod.mk.injEq, List.not_mem_nil, or_false] at h
  rcases h with ⟨rfl, rfl⟩ | ⟨rfl, rfl⟩ | ⟨rfl, rfl⟩ | ⟨rfl, rfl⟩ | ⟨rfl, rfl⟩ | ⟨rfl, rfl⟩ | ⟨rfl, rfl⟩ | ⟨rfl, rfl⟩ |
    ⟨rfl, rfl⟩ | ⟨rfl, rfl⟩
  case inr.inr.inr.inr.inr.inr.inr.inr.inr =>
    refine ⟨by decide, by decide, rfl, ?_⟩
    simp [readReg, RunState.toWord, Word.ofBool]
  all_goals exact ⟨by decide, by decide, rfl, rfl⟩

/-- The ring registers that a CREATE makes specified: where they stand, and what they hold (R42). -/
theorem readReg_of_mem_readableAfterCreate {s : State} {off : Nat} {v : Word} (h : (off, v) ∈ s.readableAfterCreate) :
    off < 256 ∧ off % 4 = 0 ∧ unspecified off = true ∧ readReg s off = v := by
  simp only [State.readableAfterCreate, List.mem_cons, Prod.mk.injEq, List.not_mem_nil, or_false] at h
  rcases h with ⟨rfl, rfl⟩ | ⟨rfl, rfl⟩ | ⟨rfl, rfl⟩ | ⟨rfl, rfl⟩ | ⟨rfl, rfl⟩ | ⟨rfl, rfl⟩ | ⟨rfl, rfl⟩ | ⟨rfl, rfl⟩ |
    ⟨rfl, rfl⟩ | ⟨rfl, rfl⟩ | ⟨rfl, rfl⟩ | ⟨rfl, rfl⟩ | ⟨rfl, rfl⟩ | ⟨rfl, rfl⟩
  all_goals exact ⟨by decide, by decide, rfl, rfl⟩

/-- Settles O44. -/
theorem registerReadsFollowTheMap : Obligations.RegisterReadsFollowTheMap := by
  intro s off v rest hev hreg
  have hall : off < 256 ∧ off % 4 = 0 ∧ (unspecified off && !s.ringWritten) = false ∧ readReg s off = v := by
    obtain halways | ⟨hlo, hhi, hmod, rfl⟩ | ⟨hwritten, hafter⟩ := hreg
    · obtain ⟨hlt, hmod, hspec, hval⟩ := readReg_of_mem_alwaysReadable halways
      exact ⟨hlt, hmod, by simp [hspec], hval⟩
    · exact ⟨by omega, hmod, by simp [unspecified_eq_false (.inr hlo)], readReg_of_le hlo s⟩
    · obtain ⟨hlt, hmod, -, hval⟩ := readReg_of_mem_readableAfterCreate hafter
      exact ⟨hlt, hmod, by simp [hwritten], hval⟩
  obtain ⟨hlt, hmod, hspec, hval⟩ := hall
  rw [step_regRead_at hlt hmod hev, if_neg (Bool.eq_false_iff.mp hspec), hval]

/-- Settles O45. -/
theorem unspecifiedReadsAreFreeDraws : Obligations.UnspecifiedReadsAreFreeDraws := by
  intro s off rest hwritten hmem hev
  obtain ⟨⟨off, v⟩, hentry, rfl⟩ := List.mem_map.mp hmem
  obtain ⟨hlt, hmod, hunspec, -⟩ := readReg_of_mem_readableAfterCreate hentry
  rw [step_regRead_at hlt hmod hev, if_pos (by simp [hunspec, hwritten])]

/-! ### Bad accesses (R43) -/

/-- An access that is not an aligned 32-bit access of 0x00 to 0xFC is none of the interface. -/
theorem regOffset_eq_none {p : Params} {a : Word} {w : RegWidth}
    (h : ¬(w = .w32 ∧ (a - p.regBase).toNat % 4 = 0 ∧ (a - p.regBase).toNat ≤ 0xFC)) : regOffset p a w = none := by
  simp only [regOffset]
  refine if_neg fun hok => h ?_
  simp only [Bool.and_eq_true, decide_eq_true_eq] at hok
  obtain ⟨⟨hw, hlt⟩, hmod⟩ := hok
  exact ⟨hw, hmod, by omega⟩

/-- Settles O46. -/
theorem badRegisterAccessIsMarked : Obligations.BadRegisterAccessIsMarked := by
  intro s a v w rest off hbad
  have hnone : regOffset s.params a w = none := regOffset_eq_none hbad
  refine ⟨fun hev => ?_, fun hev => ?_⟩
  · rw [step_of_cons hev]
    simp only [runEvent, hostRegRead, hnone]
    rfl
  · rw [step_of_cons hev]
    simp only [runEvent, hostRegWrite, hnone]
    rfl

end Sys2Proof.Machine
end

section
/-! PROOFS. The host's accesses to descriptor memory (20_memory.md R67, R70, R71, R75). The key facts are `step_memWrite`, a
host write as a store after its mark, and `getLsbD_readWord`, the bits of a word in its bytes. -/

namespace Sys2Proof.Machine
open Sys2Proof.Config

theorem step_memRead {s : State} {a : Word} {w : Width} {rest : List Event} (hev : s.events = .memRead a w :: rest) :
    step s = .next { s with readData := hostValue s a w, events := rest } := by
  rw [step_of_cons hev]
  rfl

/-- A host write is marked exactly if it touches a byte of the hardware partition (R75). -/
theorem touchesHw_iff (r : RingRegs) (a : Word) (w : Width) :
    touchesHw r a w = true ↔ ∃ k, k < w.bytes ∧ r.hwOwned (a + BitVec.ofNat 32 k) = true := by
  simp [touchesHw]

/-- The marks a host write leaves (R75, R241). -/
def markedBy (s : State) (a : Word) (w : Width) : FaultSet :=
  if touchesHw s.ring a w then s.faults.add .hwOwnedWrite else s.faults

/-- A host write: the mark, then the store; a write takes effect whether it is marked or not (R241). -/
theorem step_memWrite {s : State} {a v : Word} {w : Width} {rest : List Event}
    (hev : s.events = .memWrite a w v :: rest) :
    step s = .next (hostStore { s with faults := markedBy s a w, events := rest } a v w) := by
  rw [step_of_cons hev]
  simp only [runEvent, hostMemWrite, markedBy]
  split <;> rfl

/-- Settles O47. -/
theorem hostWordsReadBack : Obligations.HostWordsReadBack := by
  intro s a v w rest
  refine ⟨fun hev => ⟨hostValue s a w, step_memRead hev, ?word, hostValue_lt s a w, fun k => hostValue_byte s a⟩,
    fun hev => ?back⟩
  case word =>
    rintro rfl
    rfl
  case back =>
    refine ⟨_, _, step_memWrite hev, ?written, step_memRead (memOnly_hostStore _ a v w).events,
      hostValue_hostStore _ a v w⟩
    rintro rfl
    exact State.readWord_writeWord _ a v

/-- Settles O48. -/
theorem hostWritesTouchTheirBytesAlone : Obligations.HostWritesTouchTheirBytesAlone := by
  intro s a v w rest hev
  obtain ⟨hparams, hring, hargs, hres, hfaults, -, -, -, hevents⟩ :=
    memOnly_hostStore { s with faults := markedBy s a w, events := rest } a v w
  refine ⟨_, step_memWrite hev, hring, hargs, hres, hparams, hevents, fun k => readByte_hostStore _ a v,
    fun x => readByte_hostStore_other _ a v x w, fun htouch => ?marked, fun hclear => ?unmarked⟩
  case marked =>
    rw [hfaults]
    exact if_pos ((touchesHw_iff _ _ _).mpr htouch)
  case unmarked =>
    rw [hfaults]
    refine if_neg fun htouch => ?_
    obtain ⟨k, hk, hown⟩ := (touchesHw_iff _ _ _).mp htouch
    rw [hclear k hk] at hown
    cases hown

/-- Bit `b` of a word is bit `b % 8` of the byte that lies where `ENDIAN` puts byte `b / 8` (R67). -/
theorem getLsbD_readWord (s : State) (a : Word) {b : Nat} (hb : b < 32) :
    (s.readWord a).getLsbD b =
      (s.readByte (a + BitVec.ofNat 32 (byteIndex s.params.endian 4 (b / 8)))).getLsbD (b % 8) := by
  have hbyte := hostValue_byte s a (w := .w32) (k := b / 8) (by simp only [Width.bytes]; omega)
  rw [Width.bytes] at hbyte
  rw [← hbyte, BitVec.getLsbD_extractLsb', decide_eq_true (by omega), Bool.true_and, Nat.div_add_mod]
  rfl

/-- Byte `j` of a word lies `k` places from its address exactly if byte `k` lies `j` places from it: either order of bytes is
its own reverse (R67). -/
theorem byteIndex_place {e : Endian} {a : Word} {j k : Nat} (hk : k < 4) (hj : j < 4) :
    a + BitVec.ofNat 32 (byteIndex e 4 j) = a + BitVec.ofNat 32 k ↔ j = byteIndex e 4 k := by
  rw [add_right_inj, ← BitVec.toNat_inj, BitVec.toNat_ofNat, BitVec.toNat_ofNat]
  cases e
  · simp only [byteIndex]
    omega
  · simp only [byteIndex]
    omega

/-- Settles O49: of the four bytes of the word only the one written changes. -/
theorem hostByteWriteSelectsByEndian : Obligations.HostByteWriteSelectsByEndian := by
  intro s a v k rest _ hk hev
  refine ⟨_, step_memWrite hev, fun b hb => ?_⟩
  have hplace := byteIndex_place (e := s.params.endian) (a := a) hk (show b / 8 < 4 by omega)
  rw [getLsbD_readWord _ _ hb, getLsbD_readWord _ _ hb, (memOnly_hostStore _ _ v .w8).params, hostStore,
    State.readByte_writeByte]
  by_cases hj : b / 8 = byteIndex s.params.endian 4 k
  · rw [if_pos (hplace.mpr hj)]
    refine Eq.trans ?_ (if_pos hj).symm
    rw [BitVec.getLsbD_extractLsb', decide_eq_true (by omega), Bool.true_and, Nat.zero_add]
  · rw [if_neg (mt hplace.mp hj)]
    exact (if_neg hj).symm

end Sys2Proof.Machine
end

section
/-! PROOFS. Ownership, the DMA agent's steps and the cache (10_state.md R37; 60_exceptions.md R244; 20_memory.md R76, R78). The
key facts are `RingRegs.Geo.offset_iff`, the quotient and remainder of an address in a ring that does not wrap, and the
readings of the cache's operations in the laws. -/

namespace Sys2Proof.Machine
open Sys2Proof.Config

/-! ### Ownership (R37, R244) -/

/-- An address is `m` bytes into the stride slot of descriptor `i` exactly if division by the stride says so. -/
theorem RingRegs.Geo.offset_iff {r : RingRegs} (g : r.Geo) (a : Word) {i m : Nat} (hi : i < r.cap.toNat)
    (hm : m < r.stride.toNat) :
    (a - r.base).toNat / r.stride.toNat = i ∧ (a - r.base).toNat % r.stride.toNat = m ↔
      a.toNat = r.base.toNat + i * r.stride.toNat + m := by
  have hslot := r.slot_le hi
  have hfit := g.noWrap
  have hoff : (a - r.base).toNat = i * r.stride.toNat + m ↔ a.toNat = r.base.toNat + i * r.stride.toNat + m := by
    have := a.isLt
    have := r.base.isLt
    rw [BitVec.toNat_sub]
    omega
  rw [← hoff]
  constructor
  · rintro ⟨rfl, rfl⟩
    exact (Nat.div_add_mod' _ _).symm
  · intro h
    rw [h, Nat.mul_comm, Nat.mul_add_div g.stride, Nat.div_eq_of_lt hm, Nat.mul_add_mod, Nat.mod_eq_of_lt hm]
    exact ⟨rfl, rfl⟩

/-- The owned bytes, by descriptor and place in it. -/
theorem RingRegs.Sound.hwOwned_iff {r : RingRegs} (hs : r.Sound) (hc : r.cap ≠ 0) (a : Word) :
    r.hwOwned a = true ↔
      ∃ i m, i < r.cap.toNat ∧ r.part i = .hw ∧ m < 8 ∧ a.toNat = r.base.toNat + i * r.stride.toNat + m := by
  have g := hs.geo hc
  have hge := hs.stride_ge
  simp only [RingRegs.hwOwned, descSize, Bool.and_eq_true, decide_eq_true_eq, ne_eq, hc, not_false_eq_true, true_and]
  constructor
  · rintro ⟨⟨hi, hm⟩, hpart⟩
    exact ⟨_, _, hi, hpart, hm, (g.offset_iff a hi (by omega)).mp ⟨rfl, rfl⟩⟩
  · rintro ⟨i, m, hi, hpart, hm, ha⟩
    obtain ⟨hdiv, hmod⟩ := (g.offset_iff a hi (by omega)).mpr ha
    rw [hdiv, hmod]
    exact ⟨⟨hi, hm⟩, hpart⟩

/-- Where the DMA agent's steps are enabled: the owned bytes at the start of a word. -/
theorem RingRegs.Sound.dmaEnabled_iff {r : RingRegs} (hs : r.Sound) (hc : r.cap ≠ 0) (a : Word) :
    r.dmaEnabled a = true ↔
      ∃ i, i < r.cap.toNat ∧ r.part i = .hw ∧ ∃ j : Fin 2, a.toNat = r.base.toNat + i * r.stride.toNat + 4 * j.val := by
  have g := hs.geo hc
  have hge := hs.stride_ge
  simp only [RingRegs.dmaEnabled, Bool.and_eq_true, decide_eq_true_eq, hs.hwOwned_iff hc]
  constructor
  · rintro ⟨⟨i, m, hi, hpart, hm, ha⟩, hword⟩
    obtain ⟨-, hmod⟩ := (g.offset_iff a hi (by omega)).mpr ha
    rw [hmod] at hword
    exact ⟨i, hi, hpart, ⟨m / 4, by omega⟩, by dsimp only; omega⟩
  · rintro ⟨i, hi, hpart, j, ha⟩
    obtain ⟨-, hmod⟩ := (g.offset_iff a hi (by omega)).mpr ha
    rw [hmod]
    exact ⟨⟨i, 4 * j.val, hi, hpart, by omega, ha⟩, by omega⟩

/-- Settles O50. -/
theorem dmaOwnsTheHardwareDescriptors : Obligations.DmaOwnsTheHardwareDescriptors := by
  intro r a hc hs
  have g := hs.geo hc
  rw [hs.hwOwned_iff hc, hs.dmaEnabled_iff hc]
  constructor
  · constructor
    · rintro ⟨i, m, hi, hpart, hm, ha⟩
      have := g.ptr_toNat hi
      exact ⟨i, hi, hpart, by omega, by omega⟩
    · rintro ⟨i, hi, hpart, hlo, hhi⟩
      have := g.ptr_toNat hi
      exact ⟨i, a.toNat - (r.ptr i).toNat, hi, hpart, by omega, by omega⟩
  · refine exists_congr fun i => and_congr_right fun hi => and_congr_right fun _ => exists_congr fun j => ?_
    rw [← BitVec.toNat_inj, hs.wordAddr_toNat hc hi]

/-- Settles O51. -/
theorem arcsLieInRingOrder : Obligations.ArcsLieInRingOrder := by
  intro r d hc hs hd
  exact (hs.geo hc).part_adv hs.postPtr hd

/-! ### The DMA agent (R244) -/

/-- The four bytes of a word lie apart. -/
theorem word_places_ne (a : Word) :
    a.toNat ≠ (a + 1).toNat ∧ a.toNat ≠ (a + 2).toNat ∧ a.toNat ≠ (a + 3).toNat ∧ (a + 1).toNat ≠ (a + 2).toNat ∧
      (a + 1).toNat ≠ (a + 3).toNat ∧ (a + 2).toNat ≠ (a + 3).toNat := by
  refine ⟨?_, ?_, ?_, ?_, ?_, ?_⟩ <;> bv_omega

/-- A word of memory after it was written (R70). -/
theorem Memory.word_putWord (e : Endian) (m : Memory) (a v : Word) : (m.putWord e a v).word e a = v := by
  obtain ⟨h01, h02, h03, h12, h13, h23⟩ := word_places_ne a
  simp only [Memory.word, Memory.putWord, Memory.byte_put, h01, h02, h03, h12, h13, h23, if_true, if_false,
    wordOfBytes_byteOfWord]

/-- A byte of memory outside a word that was written. -/
theorem Memory.byte_putWord_other (e : Endian) (m : Memory) {a v x : Word} (h0 : x ≠ a) (h1 : x ≠ a + 1) (h2 : x ≠ a + 2)
    (h3 : x ≠ a + 3) : (m.putWord e a v).byte x.toNat = m.byte x.toNat := by
  have hne : ∀ {y : Word}, x ≠ y → x.toNat ≠ y.toNat := fun h => mt BitVec.eq_of_toNat_eq h
  rw [Memory.putWord, Memory.byte_put_other _ _ (hne h3), Memory.byte_put_other _ _ (hne h2),
    Memory.byte_put_other _ _ (hne h1), Memory.byte_put_other _ _ (hne h0)]

/-- Settles O52. -/
theorem dmaStepsWriteOneWord : Obligations.DmaStepsWriteOneWord := by
  intro s a v rest
  refine ⟨fun hev hen => ?enabled, fun hev hdis => ?disabled, fun hev => ?read⟩
  case enabled =>
    refine ⟨{ s with mem := s.mem.putWord s.params.endian a v, events := rest }, ?_, rfl, Memory.word_putWord _ _ _ _,
      fun x => Memory.byte_putWord_other _ _⟩
    rw [step_of_cons hev]
    simp only [runEvent, runAgentStep, hen]
    rfl
  case disabled =>
    rw [step_of_cons hev]
    simp only [runEvent, runAgentStep, hdis]
    rfl
  case read => rw [step_of_cons hev]; rfl

/-! ### The host's cache maintenance (R76, R78) -/

/-- The bytes of a range are among those that maintenance of it acts on. -/
theorem inRange_of_mem {a n : Word} {x : Nat} (hlo : a.toNat ≤ x) (hhi : x < a.toNat + n.toNat) :
    inRange a n x = true := by
  have hn : n ≠ 0 := by
    rintro rfl
    simp at hhi
    omega
  simp only [inRange, Bool.and_eq_true, decide_eq_true_eq]
  exact ⟨⟨hn, by omega⟩, by omega⟩

/-- After an invalidate a byte of the range reads as memory holds it (R78 item 2). -/
theorem readByte_invalRange {s : State} {a n x : Word} (hx : inRange a n x.toNat = true) :
    (invalRange a n s).readByte x = s.mem.byte x.toNat := by
  simp only [State.readByte_eq, invalRange, State.withMem_params, State.withMem_mem, State.withMem_cache, cacheGet_drop, hx,
    if_true, Option.getD_none, ite_self]

/-- Settles O53. -/
theorem cacheMaintenance : Obligations.CacheMaintenance := by
  intro s a n rest hm
  refine ⟨fun hco hev => ?coherent, fun hco hev => ?clean, fun hco hev => ?invalidate⟩
  case coherent =>
    obtain hev | hev := hev
    · rw [step_of_cons hev]
      simp only [runEvent, hostCacheClean, hco, if_true]
    · rw [step_of_cons hev]
      simp only [runEvent, hostCacheInval, hco, if_true]
  case clean =>
    refine ⟨cleanRange a n { s with events := rest }, ?_, fun x hlo hhi =>
      cleanRange_inside (s := { s with events := rest }) hm (inRange_of_mem hlo hhi)⟩
    rw [step_of_cons hev]
    simp only [runEvent, hostCacheClean, hco]
    rfl
  case invalidate =>
    refine ⟨invalRange a n { s with events := rest }, ?_, rfl, fun x hlo hhi =>
      readByte_invalRange (inRange_of_mem hlo hhi)⟩
    rw [step_of_cons hev]
    simp only [runEvent, hostCacheInval, hco]
    rfl

/-! ### The cache's own steps (R78 items 3 and 4) -/

theorem step_agent {s : State} {t : AgentStep} {rest : List Event} (hev : s.events = .agent t :: rest) :
    step s = .next (runAgentStep t { s with events := rest }) := by
  rw [step_of_cons hev]
  rfl

/-- Whether a line or a word holds a dirty byte. -/
theorem cacheDirty_iff (p : Nat → Bool) (cs : List CacheByte) :
    cacheDirty p cs = true ↔ ∃ c ∈ cs, p c.addr = true ∧ c.dirty = true := by
  simp [cacheDirty]

theorem cacheDirty_eq_false_iff (p : Nat → Bool) (cs : List CacheByte) :
    cacheDirty p cs = false ↔ ∀ c ∈ cs, p c.addr = true → c.dirty = false := by
  simp [cacheDirty]

/-- The view on a non-coherent platform: what the cache holds, and memory's where it holds nothing. -/
theorem State.readByte_of_not_coherent {s : State} (hco : s.params.coherent = false) (x : Word) :
    s.readByte x = (cacheGet s.cache x.toNat).getD (s.mem.byte x.toNat) := by
  rw [State.readByte_eq, hco]
  rfl

theorem State.readByte_withMem {s : State} (hco : s.params.coherent = false) (m : Memory) (cs : List CacheByte)
    (x : Word) : (s.withMem m cs).readByte x = (cacheGet cs x.toNat).getD (m.byte x.toNat) :=
  State.readByte_of_not_coherent (s := s.withMem m cs) hco x

section
variable {s : State} {a : Word} (hco : s.params.coherent = false)
include hco

theorem runAgentStep_cacheFill : runAgentStep (.cacheFill a) s = s.withMem s.mem (cacheFillWord s.mem s.cache a) := by
  simp only [runAgentStep, hco]
  rfl

theorem runAgentStep_cacheEvict :
    runAgentStep (.cacheEvict a) s =
      if cacheDirty (sameWord a) s.cache then s else s.withMem s.mem (cacheDrop (sameWord a) s.cache) := by
  simp only [runAgentStep, hco, Bool.false_or]

theorem runAgentStep_cacheWriteBack :
    runAgentStep (.cacheWriteBack a) s =
      if cacheDirty (sameLine s.params.cacheLine a) s.cache then
        s.withMem (cacheFlush (fun c => sameLine s.params.cacheLine a c.addr) s.cache s.mem)
          (cacheMarkClean (sameLine s.params.cacheLine a) s.cache)
      else s := by
  cases hd : cacheDirty (sameLine s.params.cacheLine a) s.cache <;> simp [runAgentStep, hco, hd]

end

/-- Settles O60, step by step. -/
theorem theCacheActsOnItsOwn : Obligations.TheCacheActsOnItsOwn := by
  intro s a rest hm
  refine ⟨fun hco hev => ?coherent, fun hco hev => ?fill, fun hco hev => ⟨fun hdirty => ?dirtyWord, fun hclean => ?evict⟩,
    fun hco hev => ⟨fun hclean => ?cleanLine, fun hdirty => ?writeBack⟩⟩
  case coherent =>
    obtain hev | hev | hev := hev
    all_goals
      rw [step_agent hev]
      simp only [runAgentStep, hco, if_true, Bool.true_or]
  case fill =>
    have hstep := step_agent hev
    rw [runAgentStep_cacheFill (s := { s with events := rest }) hco] at hstep
    refine ⟨_, hstep, rfl, fun x => ?_, fun x => ?_⟩
    · rw [State.readByte_withMem (s := { s with events := rest }) hco, State.readByte_of_not_coherent hco]
      exact cacheGet_fillWord s.mem s.cache a x.toNat
    · rw [State.readByte_of_not_coherent hco]
      exact cacheGet_fillWord_eq s.mem s.cache a x.toNat
  case dirtyWord =>
    rw [step_agent hev, runAgentStep_cacheEvict (s := { s with events := rest }) hco,
      if_pos ((cacheDirty_iff _ _).mpr hdirty)]
  case evict =>
    have hstep := step_agent hev
    rw [runAgentStep_cacheEvict (s := { s with events := rest }) hco,
      if_neg (Bool.eq_false_iff.mp ((cacheDirty_eq_false_iff _ _).mpr hclean))] at hstep
    refine ⟨_, hstep, rfl, fun x => ?_⟩
    rw [State.readByte_withMem (s := { s with events := rest }) hco, State.readByte_of_not_coherent hco, cacheGet_drop]
    split <;> rfl
  case cleanLine =>
    have hd : cacheDirty (sameLine s.params.cacheLine a) s.cache = false :=
      (cacheDirty_eq_false_iff _ _).mpr fun c hc hline => hclean c hc (of_decide_eq_true hline)
    rw [step_agent hev, runAgentStep_cacheWriteBack (s := { s with events := rest }) hco, if_neg (Bool.eq_false_iff.mp hd)]
  case writeBack =>
    have hline : ∀ c : CacheByte, sameLine s.params.cacheLine a c.addr = true ↔
        c.addr / s.params.cacheLine = a.toNat / s.params.cacheLine := fun c => decide_eq_true_iff
    have hd : cacheDirty (sameLine s.params.cacheLine a) s.cache = true := by
      obtain ⟨c, hc, hin, hdc⟩ := hdirty
      exact (cacheDirty_iff _ _).mpr ⟨c, hc, (hline c).mpr hin, hdc⟩
    have hstep := step_agent hev
    rw [runAgentStep_cacheWriteBack (s := { s with events := rest }) hco, if_pos hd] at hstep
    refine ⟨_, hstep, rfl, fun c hc hin => ?_, fun x hx => ?_, readByte_writtenBack { s with events := rest } hco _ _,
      fun c hc hin => ?_⟩
    · exact Memory.byte_flush _ s.cache 0 s.mem hm.2 c hc ((hline c).mpr hin)
    · exact Memory.byte_flush_other _ s.cache s.mem x fun c hc hin => hx c hc ((hline c).mp hin)
    · by_contra hdc
      have hout := (mem_cacheMarkClean hc (by simpa using hdc)).2
      rw [(hline c).mpr hin] at hout
      cases hout

end Sys2Proof.Machine
end

section
/-! PROOFS. A whole cycle of one packet (90_conflicts.md C4). The key facts are `reclaim_of_whole`, which makes the reclaim return
all that was submitted, and `RingRegs.cycle`, the four moves of the ring registers one after the other. -/

namespace Sys2Proof.Machine
open Sys2Proof.Config

/-- A reclaim of a hardware partition that is one whole packet returns all of it (R180, R181). -/
theorem reclaim_of_whole {s : State} (hs : s.ring.Sound) (hc : s.ring.cap ≠ 0) (hw : s.ring.hwCnt ≠ 0)
    (he : s.interleave = []) {t : FlagPos} {o : Option FlagPos} {limit : Word}
    (hlimit : s.ring.hwCnt.toNat ≤ limit.toNat)
    (hstop : ∀ f, o = some f → ∀ k, k < s.ring.hwCnt.toNat → s.hwFlag f k = true)
    (hlast : s.hwFlag t (s.ring.hwCnt.toNat - 1) = true) :
    ∃ cs, reclaim t o limit s = .next { reclaimed s s.ring.hwCnt.toNat with cache := cs } := by
  obtain ⟨m, ret, v, ⟨-, hpart, -, hshort⟩, ⟨hret, -, hopen⟩, hexec, hv, -⟩ := reclaim_of_empty hs hc hw he t o limit
  have hm : m = s.ring.hwCnt.toNat := by
    by_contra hne
    obtain ⟨f, hf, hclear⟩ := hshort (by omega) (by omega)
    rw [hstop f hf m (by omega)] at hclear
    cases hclear
  have hall : ret = s.ring.hwCnt.toNat := by
    by_contra hne
    have := Word.toNat_pos hw
    have hclear := hopen (s.ring.hwCnt.toNat - 1) (by omega) (by omega)
    rw [hlast] at hclear
    cases hclear
  rw [hv, hall] at hexec
  exact ⟨v.cache, hexec⟩

/-- On a coherent platform the block reads memory (R76). -/
theorem readWord_of_coherent {s : State} (hco : s.params.coherent = true) (a : Word) :
    s.readWord a = s.mem.word s.params.endian a := by
  simp only [State.readWord, State.readByte_eq, hco, if_true, Memory.word]

/-- A wholly free ring has three empty arcs and one place for all four heads (R30, R32). -/
theorem RingRegs.Sound.empty_arcs {r : RingRegs} (hs : r.Sound) (hc : r.cap ≠ 0) (hfree : r.freeCnt = r.cap) :
    (r.preCnt = 0 ∧ r.hwCnt = 0 ∧ r.postCnt = 0) ∧ r.preHead = r.freeHead ∧ r.hwHead = r.freeHead ∧
      r.postHead = r.freeHead := by
  have g := hs.geo hc
  have hsum := hs.sum
  rw [hfree] at hsum
  have hpre : r.preCnt = 0 := BitVec.eq_of_toNat_eq (show _ = 0 by omega)
  have hhw : r.hwCnt = 0 := BitVec.eq_of_toNat_eq (show _ = 0 by omega)
  have hpost : r.postCnt = 0 := BitVec.eq_of_toNat_eq (show _ = 0 by omega)
  have e1 : r.freeHead = r.preHead := by rw [hs.freeHead, hpre]; exact g.adv_zero hs.prePtr
  have e2 : r.preHead = r.hwHead := by rw [hs.preHead, hhw]; exact g.adv_zero hs.hwPtr
  have e3 : r.hwHead = r.postHead := by rw [hs.hwHead, hpost]; exact g.adv_zero hs.postPtr
  exact ⟨⟨hpre, hhw, hpost⟩, e1.symm, (e1.trans e2).symm, (e1.trans (e2.trans e3)).symm⟩

/-- The four moves of a cycle, one after the other (R152, R165, R183, R202). -/
theorem RingRegs.cycle {r : RingRegs} (hpre : r.preHead = r.freeHead) (n : Word) :
    (((r.alloc n).submit n r.freeHead).reclaim n.toNat).release n = { r with
      freeHead := r.adv r.freeHead n.toNat, preHead := r.adv r.preHead n.toNat
      hwHead := r.adv r.hwHead n.toNat, postHead := r.adv r.postHead n.toNat
      hwTail := r.adv r.freeHead (n.toNat - 1) } := by
  have hn : BitVec.ofNat 32 n.toNat = n := by simp
  have back : ∀ c : Word, c - n + n = c := fun c => by ring
  have forth : ∀ c : Word, c + n - n = c := fun c => by ring
  have hregs : (((r.alloc n).submit n r.freeHead).reclaim n.toNat).release n = { r with
      freeHead := r.adv r.freeHead n.toNat, preHead := r.adv r.freeHead n.toNat
      hwHead := r.adv r.hwHead n.toNat, postHead := r.adv r.postHead n.toNat
      hwTail := r.adv r.freeHead (n.toNat - 1)
      freeCnt := r.freeCnt - n + n, preCnt := r.preCnt + n - n
      hwCnt := r.hwCnt + n - BitVec.ofNat 32 n.toNat, postCnt := r.postCnt + BitVec.ofNat 32 n.toNat - n } := rfl
  rw [hregs, hn, back, forth, forth, forth, hpre]

/-! ### The four commands of a cycle -/

/-- The parameters, memory and the script are as they were. -/
def State.KeepsMemory (s t : State) : Prop := t.params = s.params ∧ t.mem = s.mem ∧ t.interleave = s.interleave

section
variable {u : State} {r : RingRegs} {n : Word} (hr : u.ring = r) (hc : r.cap ≠ 0)
include hr hc

theorem exec_alloc_cycle (harg : u.args.arg0 = n) (hn : n.toNat ≤ r.freeCnt.toNat) :
    ∃ t, exec .alloc u = .next t ∧ t.res = { code := .success, ptr := r.freeHead, count := 0 } ∧ t.ring = r.alloc n ∧
      u.KeepsMemory t := by
  subst hr harg
  exact ⟨_, allocMovesTheFreeHead u hc hn, rfl, rfl, rfl, rfl, rfl⟩

theorem exec_submit_cycle (harg : u.args.arg0 = n) (hptr : u.args.arg1 = r.preHead) (hco : u.params.coherent = true)
    (hpos : 0 < n.toNat) (hn : n.toNat ≤ r.preCnt.toNat) :
    ∃ t, exec .submit u = .next t ∧ t.res.code = .success ∧ t.ring = r.submit n r.preHead ∧ u.KeepsMemory t := by
  subst hr harg
  obtain ⟨t, hexec, ht, hkeep, -⟩ := submitHandsOverTheSet u hc hpos hn hptr
  obtain ⟨hmem, -, hscript⟩ := hkeep hco
  refine ⟨t, hexec, ?_, ?_, ?_, hmem, hscript⟩
  · rw [ht]
  · rw [ht, ← hptr]
    rfl
  · rw [ht]

theorem exec_reclaimTx_cycle (hs : r.Sound) (he : u.interleave = []) (hcnt : r.hwCnt = n) (hpos : 0 < n.toNat)
    (hlimit : n.toNat ≤ u.args.arg0.toNat)
    (hused : u.params.txUsedStop = true → ∀ k, k < n.toNat → u.hwFlag u.params.layout.txUsed k = true)
    (hlast : u.hwFlag u.params.layout.txLast (n.toNat - 1) = true) :
    ∃ t, exec .reclaimTx u = .next t ∧ t.res = { code := .success, ptr := r.hwHead, count := n } ∧
      t.ring = r.reclaim n.toNat ∧ u.KeepsMemory t := by
  subst hr hcnt
  have hstop : ∀ f, txStopFlag u.params = some f → ∀ k, k < u.ring.hwCnt.toNat → u.hwFlag f k = true := by
    intro f hf
    rw [txStopFlag] at hf
    split_ifs at hf with hstop
    cases hf
    exact hused hstop
  have hw : u.ring.hwCnt ≠ 0 := fun h0 => by simp [h0] at hpos
  obtain ⟨cs, hexec⟩ := reclaim_of_whole (t := u.params.layout.txLast) hs hc hw he hlimit hstop hlast
  rw [reclaimed, if_neg hpos.ne'] at hexec
  refine ⟨_, hexec, ?_, rfl, rfl, rfl, rfl⟩
  simp

theorem exec_free_cycle (harg : u.args.arg0 = n) (hptr : u.args.arg1 = r.postHead) (hpos : 0 < n.toNat)
    (hn : n.toNat ≤ r.postCnt.toNat) :
    ∃ t, exec .free u = .next t ∧ t.res.code = .success ∧ t.ring = r.release n ∧ u.KeepsMemory t := by
  subst hr harg
  exact ⟨_, freeMovesThePostHead u hc hpos hn hptr, rfl, rfl, rfl, rfl, rfl⟩

end

/-- Settles O59: each command finds the ring that the one before it left. -/
theorem aFullCycleRotatesTheRing : Obligations.AFullCycleRotatesTheRing := by
  intro s n limit hinv hco he hc hfree hpos hn hlimit hlast hused
  have hs := hinv.2 hc
  obtain ⟨⟨hpreCnt, hhwCnt, hpostCnt⟩, hpre, hhw, hpost⟩ := hs.empty_arcs hc hfree
  have hadd : ∀ c : Word, c = 0 → c + n = n := fun c h0 => by rw [h0, zero_add]
  have hnFree : n.toNat ≤ s.ring.freeCnt.toNat := by rw [hfree]; exact hn
  have hsAlloc := hs.alloc hc hnFree
  have hnPre : n.toNat ≤ (s.ring.alloc n).preCnt.toNat := (congrArg BitVec.toNat (hadd _ hpreCnt)).ge
  have hsSubmit := hsAlloc.submit hc hpos hnPre
  obtain ⟨t1, h1, hres1, hring1, hparams1, hmem1, hscript1⟩ :=
    exec_alloc_cycle (u := { s with args := { s.args with arg0 := n } }) rfl hc rfl hnFree
  obtain ⟨t2, h2, hres2, hring2, hparams2, hmem2, hscript2⟩ :=
    exec_submit_cycle (u := { t1 with args := { t1.args with arg0 := n, arg1 := t1.res.ptr } }) hring1 hc rfl
      (by rw [hres1]; exact hpre.symm) (by rw [hparams1]; exact hco) hpos hnPre
  have hparams : t2.params = s.params := hparams2.trans hparams1
  have hmem : t2.mem = s.mem := hmem2.trans hmem1
  have hflag : ∀ (f : FlagPos) (k : Nat),
      State.hwFlag { t2 with args := { t2.args with arg0 := limit } } f k =
        (s.readWord (wordAddr (s.ring.adv s.ring.freeHead k) f.word)).getLsbD f.bit.val := by
    intro f k
    change flagOf (t2.mem.word t2.params.endian (wordAddr (t2.ring.adv t2.ring.hwHead k) f.word)) f = _
    rw [hparams, hmem, hring2, readWord_of_coherent hco, ← hhw]
    rfl
  obtain ⟨t3, h3, hres3, hring3, -, hmem3, -⟩ :=
    exec_reclaimTx_cycle (u := { t2 with args := { t2.args with arg0 := limit } }) hring2 hc hsSubmit
      (hscript2.trans (hscript1.trans he)) (hadd _ hhwCnt) hpos hlimit
      (fun hstop k hk => by rw [hflag, hparams]; exact hused (by rw [← hparams]; exact hstop) k hk)
      (by rw [hflag, hparams]; exact hlast)
  have hnPost : n.toNat ≤ (s.ring.postCnt + BitVec.ofNat 32 n.toNat).toNat := by
    rw [BitVec.ofNat_toNat, BitVec.setWidth_eq, hadd _ hpostCnt]
  obtain ⟨t4, h4, hres4, hring4, -, hmem4, -⟩ :=
    exec_free_cycle (u := { t3 with args := { t3.args with arg0 := t3.res.count, arg1 := t3.res.ptr } }) hring3 hc
      (by rw [hres3]) (by rw [hres3]; exact hhw.trans hpost.symm) hpos hnPost
  refine ⟨t1, t2, t3, t4, h1, by rw [hres1], h2, hres2, h3, by rw [hres3], by rw [hres3], h4, hres4, ?_, ?_⟩
  · rw [hring4, ← RingRegs.cycle hpre n, ← hpre]
    rfl
  · exact hmem4.trans (hmem3.trans hmem)

end Sys2Proof.Machine
end
